-- ==== Sys2Proof/Word.lean ====
section
/-!
DEFINITION. The word, the bit pattern of a binary32 value, and the plain data built from them that every
other file uses: ports, stages, coefficient sets, section memories, the parameter snapshot, packets and
responses. Rules R10, R11, R14, R15, R16, R22, R27, R80, R86 of spec/.
-/

namespace Sys2Proof

/-- A word: 32 bits, bit 0 least significant (R10). The only unit of transfer (R61). -/
abbrev Word := BitVec 32

/-- `F`, an IEEE 754 binary32 value, held as its bit pattern (R11). `asF` and `asW` of R13 are the identity
on bit patterns, so a bit-for-bit move keeps NaN payloads and the sign of zero (R114, R194, R211). -/
abbrev F := BitVec 32

/-- A byte of the byte-serial transport of R62. -/
abbrev Byte := BitVec 8

/-- The two ports, one per execution context (R4, R260). -/
inductive Port where
  /-- the real-time port -/
  | rt
  /-- the presentation port -/
  | pr
  deriving DecidableEq, Repr, Inhabited

/-- The port on the other side. -/
def Port.other : Port → Port
  | .rt => .pr
  | .pr => .rt

/-- One thing for each of the two ports. -/
structure PerPort (α : Type) where
  rt : α
  pr : α
  deriving DecidableEq, Repr, Inhabited

def PerPort.get {α : Type} (x : PerPort α) : Port → α
  | .rt => x.rt
  | .pr => x.pr

def PerPort.set {α : Type} (x : PerPort α) (p : Port) (a : α) : PerPort α :=
  match p with
  | .rt => { x with rt := a }
  | .pr => { x with pr := a }

/-- The three stages in series order: 0 low-cut, 1 peak, 2 high-cut (R14). -/
inductive Stage where
  | lc
  | pk
  | hc
  deriving DecidableEq, Repr, Inhabited

/-- One thing for each of the three stages. -/
structure PerStage (α : Type) where
  lc : α
  pk : α
  hc : α
  deriving DecidableEq, Repr, Inhabited

def PerStage.get {α : Type} (x : PerStage α) : Stage → α
  | .lc => x.lc
  | .pk => x.pk
  | .hc => x.hc

def PerStage.set {α : Type} (x : PerStage α) (st : Stage) (a : α) : PerStage α :=
  match st with
  | .lc => { x with lc := a }
  | .pk => { x with pk := a }
  | .hc => { x with hc := a }

/-- The coefficient set of one section, `(b0, b1, b2, a1, a2)` with `a0 = 1` not stored (R15). -/
structure Coefs where
  b0 : F
  b1 : F
  b2 : F
  a1 : F
  a2 : F
  deriving DecidableEq, Repr, Inhabited

/-- The identity section `ID = (1.0, 0.0, 0.0, 0.0, 0.0)` (R15). -/
def Coefs.ident : Coefs := ⟨0x3F800000#32, 0#32, 0#32, 0#32, 0#32⟩

/-- A stage coefficient set: the section count `NSEC` and the section sets `C[0..]`, slot 0 first (R16). -/
structure StageSet where
  nsec : Nat
  c : List Coefs
  deriving DecidableEq, Repr, Inhabited

/-- The memory of one section, `(s1, s2)` (R22). -/
structure SecMem where
  s1 : F
  s2 : F
  deriving DecidableEq, Repr, Inhabited

/-- A cleared section memory, `(+0.0, +0.0)` (R22, R117). -/
def SecMem.zero : SecMem := ⟨0#32, 0#32⟩

/-- The eleven parameter registers, the document's ParameterSnapshot (R27). -/
structure Snapshot where
  pkf : F
  pkg : F
  pkq : F
  lcf : F
  hcf : F
  lcs : Word
  hcs : Word
  lcb : Bool
  pkb : Bool
  hcb : Bool
  aen : Bool
  deriving DecidableEq, Repr, Inhabited

/-- A point of the path, `(x, y)` (R36). -/
structure Point where
  x : F
  y : F
  deriving DecidableEq, Repr, Inhabited

/-- A command packet: a header word and its payload words; the port it arrives on is not encoded (R80). -/
structure Packet where
  header : Word
  payload : List Word
  deriving DecidableEq, Repr, Inhabited

/-- A response packet: a header word and its data words (R86). -/
structure Response where
  header : Word
  data : List Word
  deriving DecidableEq, Repr, Inhabited

end Sys2Proof
end

