-- ==== Sys2Proof/Config.lean ====
section
/-!
DEFINITION. What an implementation fixes (rule R8 of spec/00_scope.md): the sizes, the open parameters and
the configuration functions, and the free values the rules leave open. A free value is an `opaque` constant
without a body: nothing in Lean can evaluate it, so a claim holds whatever it is. The named properties the
rules give the configuration functions (F2, F4, M2, S1, S2, finiteness of `MapX` and `MapY`) are enforced
where the functions are used (Machine/Factory.lean, Machine/Response.lean, Machine/Spectrum.lean); the
accuracy properties (F3, M1, S3 and the `MAP_TOL` ones) are named premises in Machine/Reference.lean.
-/

namespace Sys2Proof

/-- The parameters of R8 that are numbers: the sizes, and the three view registers' reset values that R8 calls defaults.
They are carried by the state as plain data (log entry 1), so that a claim about every state is a claim about every legal
choice of them, as R8's "a model takes each `OPEN` parameter as an argument" asks. -/
structure Params where
  /-- `N`, the transform size -/
  n : Nat
  /-- `L`, the block length in samples -/
  l : Nat
  /-- `CAP`, the ring capacity in blocks -/
  cap : Nat
  /-- `MQCAP`, the magnitude queue capacity -/
  mqcap : Nat
  /-- the reset value of `FLOOR` -/
  floorReset : F
  /-- the reset value of `DBMIN` -/
  dbminReset : F
  /-- the reset value of `DBMAX` -/
  dbmaxReset : F
  deriving DecidableEq, Repr, Inhabited

/-- `NB`, the magnitude bins per spectrum (R8, D31). -/
def Params.nb (g : Params) : Nat := g.n / 2

/-- The constraints between the parameters: R8 (`N` a power of two and at least 2, `1 ≤ L ≤ 65535`, `CAP ≥ 1`,
`MQCAP ≥ 1`), R9 (`2*NB ≤ 65535`), R79 (`CAP < 2^32`, `MQCAP < 2^32`) and R37 (the reset values are finite: their exponent
fields are not all ones). -/
abbrev Params.Legal (g : Params) : Prop :=
  2 ≤ g.n ∧ 2 ^ Nat.log2 g.n = g.n ∧ 2 * g.nb ≤ 65535 ∧ 1 ≤ g.l ∧ g.l ≤ 65535 ∧
  1 ≤ g.cap ∧ g.cap < 2 ^ 32 ∧ 1 ≤ g.mqcap ∧ g.mqcap < 2 ^ 32 ∧
  g.floorReset.extractLsb' 23 8 ≠ 255#8 ∧ g.dbminReset.extractLsb' 23 8 ≠ 255#8 ∧ g.dbmaxReset.extractLsb' 23 8 ≠ 255#8

/-- `NSTAGE`'s slots: `SLOTS(0) = SLOTS(2) = MAXSEC = 4`, `SLOTS(1) = PKSEC = 1` (R8, R14). -/
def slots : Stage → Nat
  | .lc => 4
  | .pk => 1
  | .hc => 4

namespace Config

/-- `CAP` is OPEN (R8, U15): this is the free value behind it. -/
opaque capDraw : Nat

/-- `CAP`: the free value brought into the range R8 and R79 allow, `1 ≤ CAP < 2^32`; every legal capacity is
a value of it. -/
def capacity : Nat := capDraw % (2 ^ 32 - 1) + 1

/-- The free draws behind the sign and payload of each NaN that arithmetic produces (R12, U1), one per draw
number. -/
opaque nanDraw : Nat → BitVec 32

/-- Which agent is served when both have a command waiting and the state's schedule says nothing (R69, U16),
one per turn number. -/
opaque arbiter : Nat → Port

/-- `WINDOW` (R8, U14), the open window function, by sample position. -/
opaque window : Nat → F

/-- The open section computations of `MakePeak`, `MakeLowCut`, `MakeHighCut` (R175, U2, U3, U5), each a
function of the snapshot and the sample rate alone. -/
opaque peakSection : Snapshot → F → Coefs
opaque lowCutSection : Snapshot → F → Coefs
opaque highCutSection : Snapshot → F → Coefs

/-- The open magnitude evaluator (R181, U4, U5): the enabled sections of each stage, the published bypass
flags, the sample rate, the frequency. -/
opaque magResp : PerStage (List Coefs) → PerStage Bool → F → F → F

/-- The open spectrum computation (R218, U5): transform size, accumulation buffer, floor, bin. -/
opaque spectrumBin : Nat → List F → F → Nat → F

/-- The open log-frequency mapping (R226, U5): frequency in Hz, `VX0`, `VW`. -/
opaque mapX : ℚ → F → F → F

/-- The open decibel mapping (R227, U5): value, `VYB`, `VYT`, `DBMIN`, `DBMAX`. -/
opaque mapY : F → F → F → F → F → F

end Config

/-- The parameters with the defaults of R8 (`N = 2048`, `L = 2*N`, `MQCAP = 5`, `FLOOR` -48.0, `DBMIN` -24.0, `DBMAX`
+24.0); `CAP` has no default. -/
def Params.default : Params where
  n := 2048
  l := 4096
  cap := Config.capacity
  mqcap := 5
  floorReset := 0xC2400000#32
  dbminReset := 0xC1C00000#32
  dbmaxReset := 0x41C00000#32

end Sys2Proof
end

