-- ==== Sys2Proof/Syntax.lean ====
section
/-!
DEFINITION. The 19 commands of rule R90, one constructor per row of spec/opcode_table.json. An operand is the
thing the field or payload word names, not its raw encoding. The port of a command whose class is RT or PR is
that class; a command of class ANY carries the port it came on, which its response goes back to (R80, R86).
-/

namespace Sys2Proof

/-- The eleven parameter registers as `WPAR` names them, `pid` 0..10 in order (R27). -/
inductive Param where
  | pkf | pkg | pkq | lcf | hcf | lcs | hcs | lcb | pkb | hcb | aen
  deriving DecidableEq, Repr, Inhabited

/-- The seven view registers as `WVIEW` names them, `vid` 0..6 in order (R37). -/
inductive View where
  | vx0 | vw | vyb | vyt | dbmin | dbmax | floor
  deriving DecidableEq, Repr, Inhabited

/-- A command, decoded. -/
inductive Instr where
  /-- `NOP` (R240) -/
  | nop (p : Port)
  /-- `SYNC` (R116) -/
  | sync
  /-- `PROC x` (R111) -/
  | proc (x : F)
  /-- `PUSH {x0, ..., x(L-1)}` (R192) -/
  | push (blk : List F)
  /-- `UPDS stage, {section}...` (R131) -/
  | upds (stg : Stage) (secs : List Coefs)
  /-- `SBYP stage, v` (R137) -/
  | sbyp (stg : Stage) (v : Bool)
  /-- `WPAR name, value` (R151) -/
  | wpar (p : Port) (pid : Param) (w : Word)
  /-- `SRATE fs` (R154) -/
  | srate (p : Port) (fs : F)
  /-- `NTFY` (R156) -/
  | ntfy (p : Port)
  /-- `RFSH` (R160) -/
  | rfsh
  /-- `MAGR {f0, ..., f(n-1)}` (R180) -/
  | magr (freqs : List F)
  /-- `WVIEW name, value` (R231) -/
  | wview (vid : View) (w : F)
  /-- `POP` (R195) -/
  | pop
  /-- `AVAIL` (R199) -/
  | avail
  /-- `ANLZ` (R212) -/
  | anlz
  /-- `GENP` (R222) -/
  | genp
  /-- `RDPATH` (R229) -/
  | rdpath
  /-- `RSTAT` (R241) -/
  | rstat (p : Port)
  /-- `CLRST` (R242) -/
  | clrst
  deriving DecidableEq, Repr, Inhabited

/-- The port a command is issued on, and its response returned on (R261, R86). -/
def Instr.port : Instr → Port
  | .nop p => p
  | .sync => .rt
  | .proc _ => .rt
  | .push _ => .rt
  | .upds _ _ => .pr
  | .sbyp _ _ => .pr
  | .wpar p _ _ => p
  | .srate p _ => p
  | .ntfy p => p
  | .rfsh => .pr
  | .magr _ => .pr
  | .wview _ _ => .pr
  | .pop => .pr
  | .avail => .pr
  | .anlz => .pr
  | .genp => .pr
  | .rdpath => .pr
  | .rstat p => p
  | .clrst => .pr

end Sys2Proof
end

