-- ==== Sys2Proof/WellFormed.lean ====
section
/-!
DEFINITION. Which commands the encoding of spec/30_encoding.md can express, given the block length `L`
(rules R83, R84, R93): what `decode` gives is well formed, and a well-formed command has an encoding.
-/

namespace Sys2Proof

/-- Whether a parameter register is one of the four booleans, `pid` 7..10 (R27). -/
def Param.isBool : Param → Bool
  | .lcb | .pkb | .hcb | .aen => true
  | .pkf | .pkg | .pkq | .lcf | .hcf | .lcs | .hcs => false

/-- Well-formedness of a command for the block length `l`: `PUSH` carries `L` words; `UPDS` carries 1 to
`SLOTS(stage)` sections; a boolean parameter is written 0 or 1; `MAGR` carries at most 65535 frequencies. -/
def Instr.wellFormed (l : Nat) : Instr → Bool
  | .push blk => blk.length == l
  | .upds stg secs => decide (1 ≤ secs.length) && decide (secs.length ≤ slots stg)
  | .wpar _ pid w => !pid.isBool || w == 0#32 || w == 1#32
  | .magr freqs => decide (freqs.length ≤ 65535)
  | .nop _ => true
  | .sync => true
  | .proc _ => true
  | .sbyp _ _ => true
  | .srate _ _ => true
  | .ntfy _ => true
  | .rfsh => true
  | .wview _ _ => true
  | .pop => true
  | .avail => true
  | .anlz => true
  | .genp => true
  | .rdpath => true
  | .rstat _ => true
  | .clrst => true

/-- `i` is well formed for the block length `l`. -/
abbrev Instr.WF (l : Nat) (i : Instr) : Prop := i.wellFormed l = true

end Sys2Proof
end

