-- ==== Sys2Proof/Decode.lean ====
section
/-!
DEFINITION. From packets to commands and back: the header fields (R81), the opcode map (R90), the payload
lengths (R83), the decode order (R95), the encoder, and the byte-serial transport of R62. Decoding is total and
rejects by name.
-/

namespace Sys2Proof

/-! ### Header fields (R81) -/

/-- `opc`, bits 31:24. -/
def opcField (h : Word) : BitVec 8 := h.extractLsb' 24 8

/-- `stg`, bits 23:22. -/
def stgField (h : Word) : BitVec 2 := h.extractLsb' 22 2

/-- `nsm1`, bits 21:20. -/
def nsm1Field (h : Word) : BitVec 2 := h.extractLsb' 20 2

/-- `v`, bit 19. -/
def vField (h : Word) : Bool := h.getLsbD 19

/-- `imm16`, bits 15:0. -/
def immField (h : Word) : BitVec 16 := h.extractLsb' 0 16

/-- `NSEC = nsm1 + 1` (R85). -/
def nsecField (h : Word) : Nat := (nsm1Field h).toNat + 1

/-! ### The opcode map (R90) -/

/-- The 19 opcodes, by mnemonic. -/
inductive Op where
  | nop | sync | proc | push | upds | sbyp | wpar | srate | ntfy | rfsh | magr | wview | pop | avail | anlz
  | genp | rdpath | rstat | clrst
  deriving DecidableEq, Repr, Inhabited

/-- The port class of a command (R90, R260). -/
inductive PortClass where
  | rt
  | pr
  | any
  deriving DecidableEq, Repr, Inhabited

/-- Whether a port may issue a command of the class (R260). -/
def portAllowed : PortClass → Port → Bool
  | .rt, .rt => true
  | .rt, .pr => false
  | .pr, .rt => false
  | .pr, .pr => true
  | .any, _ => true

/-- The port column of R90. -/
def opClass : Op → PortClass
  | .nop => .any
  | .sync => .rt
  | .proc => .rt
  | .push => .rt
  | .upds => .pr
  | .sbyp => .pr
  | .wpar => .any
  | .srate => .any
  | .ntfy => .any
  | .rfsh => .pr
  | .magr => .pr
  | .wview => .pr
  | .pop => .pr
  | .avail => .pr
  | .anlz => .pr
  | .genp => .pr
  | .rdpath => .pr
  | .rstat => .any
  | .clrst => .pr

/-- The mask column of R90. -/
def opMask : Op → Word
  | .upds => 0xFF0FFFFF#32
  | .sbyp => 0xFF37FFFF#32
  | .wpar => 0xFFFF0000#32
  | .magr => 0xFFFF0000#32
  | .wview => 0xFFFF0000#32
  | .nop | .sync | .proc | .push | .srate | .ntfy | .rfsh | .pop | .avail | .anlz | .genp | .rdpath | .rstat
  | .clrst => 0xFFFFFFFF#32

/-- The match column of R90. -/
def opMatch : Op → Word
  | .nop => 0x00000000#32
  | .sync => 0x01000000#32
  | .proc => 0x02000000#32
  | .push => 0x03000000#32
  | .upds => 0x10000000#32
  | .sbyp => 0x11000000#32
  | .wpar => 0x12000000#32
  | .srate => 0x13000000#32
  | .ntfy => 0x14000000#32
  | .rfsh => 0x15000000#32
  | .magr => 0x16000000#32
  | .wview => 0x17000000#32
  | .pop => 0x20000000#32
  | .avail => 0x21000000#32
  | .anlz => 0x22000000#32
  | .genp => 0x23000000#32
  | .rdpath => 0x24000000#32
  | .rstat => 0x30000000#32
  | .clrst => 0x31000000#32

/-- The opcode column of R90; every other `opc` value is reserved (R92). -/
def opOfByte (b : BitVec 8) : Option Op :=
  match b.toNat with
  | 0x00 => some .nop
  | 0x01 => some .sync
  | 0x02 => some .proc
  | 0x03 => some .push
  | 0x10 => some .upds
  | 0x11 => some .sbyp
  | 0x12 => some .wpar
  | 0x13 => some .srate
  | 0x14 => some .ntfy
  | 0x15 => some .rfsh
  | 0x16 => some .magr
  | 0x17 => some .wview
  | 0x20 => some .pop
  | 0x21 => some .avail
  | 0x22 => some .anlz
  | 0x23 => some .genp
  | 0x24 => some .rdpath
  | 0x30 => some .rstat
  | 0x31 => some .clrst
  | _ => none

/-- Whether a header matches its opcode's row: every field the format does not use is zero (R89, R91). -/
def headerMatches (o : Op) (h : Word) : Bool := h &&& opMask o == opMatch o

/-- `paylen(header)`, the number of payload words the header implies, for the block length `l` (R83). A header
whose opcode is reserved implies none. -/
def paylen (l : Nat) (h : Word) : Nat :=
  match opOfByte (opcField h) with
  | some .proc => 1
  | some .srate => 1
  | some .wpar => 1
  | some .wview => 1
  | some .push => l
  | some .upds => 5 * nsecField h
  | some .magr => (immField h).toNat
  | _ => 0

/-! ### Operands (R84) -/

/-- The stage select: 3 is reserved (R81, R93). -/
def stageOfField (b : BitVec 2) : Option Stage :=
  match b.toNat with
  | 0 => some .lc
  | 1 => some .pk
  | 2 => some .hc
  | _ => none

/-- The parameter id: above 10 is reserved (R27, R93). -/
def paramOfId (n : Nat) : Option Param :=
  match n with
  | 0 => some .pkf
  | 1 => some .pkg
  | 2 => some .pkq
  | 3 => some .lcf
  | 4 => some .hcf
  | 5 => some .lcs
  | 6 => some .hcs
  | 7 => some .lcb
  | 8 => some .pkb
  | 9 => some .hcb
  | 10 => some .aen
  | _ => none

/-- The view id: above 6 is reserved (R37, R93). -/
def viewOfId (n : Nat) : Option View :=
  match n with
  | 0 => some .vx0
  | 1 => some .vw
  | 2 => some .vyb
  | 3 => some .vyt
  | 4 => some .dbmin
  | 5 => some .dbmax
  | 6 => some .floor
  | _ => none

/-- The sections of a `UPDS` payload, five words each in the order `b0, b1, b2, a1, a2` (R84). -/
def sectionsOf : List Word → List Coefs
  | b0 :: b1 :: b2 :: a1 :: a2 :: rest => ⟨b0, b1, b2, a1, a2⟩ :: sectionsOf rest
  | _ => []

/-! ### Decoding in the order of R95 -/

/-- Why a packet is refused before its command executes, in the order of R95. -/
inductive DecodeError where
  /-- step 1: `opc` is not in the map (R92) -/
  | unknownOpcode
  /-- step 2: the port may not issue the command (R260) -/
  | wrongPort
  /-- step 3: an unused or reserved header field is not zero (R91) -/
  | reservedField
  /-- step 3: a header operand has a reserved value (R93) -/
  | reservedOperand
  /-- step 4: the payload length is not `paylen(header)` (R87) -/
  | wrongLength
  /-- step 5: a payload word has a reserved value (R93) -/
  | reservedPayload
  deriving DecidableEq, Repr, Inhabited

/-- The outcome of decoding: a command, or a rejection by name. -/
abbrev Decoded := Except DecodeError Instr

/-- A payload of no words (format `N`, and `SBYP`). -/
def takeNone (pl : List Word) (i : Instr) : Decoded :=
  match pl with
  | [] => .ok i
  | _ :: _ => .error .wrongLength

/-- A payload of one word (formats `V` and `P`). -/
def takeOne (pl : List Word) (f : Word → Decoded) : Decoded :=
  match pl with
  | [w] => f w
  | _ => .error .wrongLength

/-- A payload of `k` words (`PUSH`, `UPDS`, `MAGR`). -/
def takeWords (pl : List Word) (k : Nat) (i : Instr) : Decoded :=
  if pl.length = k then .ok i else .error .wrongLength

/-- `UPDS`: `stg = 3` is reserved, and so is more than one section for the peak stage (R93). -/
def decodeUpds (h : Word) (pl : List Word) : Decoded :=
  match stageOfField (stgField h) with
  | none => .error .reservedOperand
  | some st =>
    if slots st < nsecField h then .error .reservedOperand
    else takeWords pl (5 * nsecField h) (.upds st (sectionsOf pl))

/-- `SBYP`: `stg = 3` is reserved (R93). -/
def decodeSbyp (h : Word) (pl : List Word) : Decoded :=
  match stageOfField (stgField h) with
  | none => .error .reservedOperand
  | some st => takeNone pl (.sbyp st (vField h))

/-- `WPAR`: `pid` above 10 is reserved, and so is a boolean payload other than 0 or 1 (R93). -/
def decodeWpar (p : Port) (h : Word) (pl : List Word) : Decoded :=
  match paramOfId (immField h).toNat with
  | none => .error .reservedOperand
  | some pid =>
    takeOne pl fun w =>
      if pid.isBool && !(w == 0#32 || w == 1#32) then .error .reservedPayload else .ok (.wpar p pid w)

/-- `WVIEW`: `vid` above 6 is reserved (R93). -/
def decodeWview (h : Word) (pl : List Word) : Decoded :=
  match viewOfId (immField h).toNat with
  | none => .error .reservedOperand
  | some vid => takeOne pl fun w => .ok (.wview vid w)

/-- Steps 3 (operands), 4 and 5 of R95, once the opcode is known and the header matches its row. -/
def decodeOperands (l : Nat) (o : Op) (p : Port) (h : Word) (pl : List Word) : Decoded :=
  match o with
  | .nop => takeNone pl (.nop p)
  | .sync => takeNone pl .sync
  | .proc => takeOne pl fun w => .ok (.proc w)
  | .push => takeWords pl l (.push pl)
  | .upds => decodeUpds h pl
  | .sbyp => decodeSbyp h pl
  | .wpar => decodeWpar p h pl
  | .srate => takeOne pl fun w => .ok (.srate p w)
  | .ntfy => takeNone pl (.ntfy p)
  | .rfsh => takeNone pl .rfsh
  | .magr => takeWords pl (immField h).toNat (.magr pl)
  | .wview => decodeWview h pl
  | .pop => takeNone pl .pop
  | .avail => takeNone pl .avail
  | .anlz => takeNone pl .anlz
  | .genp => takeNone pl .genp
  | .rdpath => takeNone pl .rdpath
  | .rstat => takeNone pl (.rstat p)
  | .clrst => takeNone pl .clrst

/-- Decoding of the packet `(port, header, payload)` for the block length `l`, in the order of R95. -/
def decode (l : Nat) (p : Port) (pk : Packet) : Decoded :=
  match opOfByte (opcField pk.header) with
  | none => .error .unknownOpcode
  | some o =>
    if portAllowed (opClass o) p then
      if headerMatches o pk.header then decodeOperands l o p pk.header pk.payload
      else .error .reservedField
    else .error .wrongPort

/-! ### Encoding -/

/-- The stage number (R14). -/
def stageNumber : Stage → Nat
  | .lc => 0
  | .pk => 1
  | .hc => 2

/-- The parameter id (R27). -/
def paramId : Param → Nat
  | .pkf => 0
  | .pkg => 1
  | .pkq => 2
  | .lcf => 3
  | .hcf => 4
  | .lcs => 5
  | .hcs => 6
  | .lcb => 7
  | .pkb => 8
  | .hcb => 9
  | .aen => 10

/-- The view id (R37). -/
def viewId : View → Nat
  | .vx0 => 0
  | .vw => 1
  | .vyb => 2
  | .vyt => 3
  | .dbmin => 4
  | .dbmax => 5
  | .floor => 6

/-- A header word from its fields: `opc | stg | nsm1 | v | 000 | imm16` (R81). -/
def packHeader (opc : BitVec 8) (stg nsm1 : BitVec 2) (v : Bool) (imm : BitVec 16) : Word :=
  opc ++ stg ++ nsm1 ++ BitVec.ofBool v ++ (0#3) ++ imm

/-- The opcode of a command. -/
def opOf : Instr → Op
  | .nop _ => .nop
  | .sync => .sync
  | .proc _ => .proc
  | .push _ => .push
  | .upds _ _ => .upds
  | .sbyp _ _ => .sbyp
  | .wpar _ _ _ => .wpar
  | .srate _ _ => .srate
  | .ntfy _ => .ntfy
  | .rfsh => .rfsh
  | .magr _ => .magr
  | .wview _ _ => .wview
  | .pop => .pop
  | .avail => .avail
  | .anlz => .anlz
  | .genp => .genp
  | .rdpath => .rdpath
  | .rstat _ => .rstat
  | .clrst => .clrst

/-- The `opc` byte of an opcode: bits 31:24 of its match value (R81, R90). -/
def opByte (o : Op) : BitVec 8 := opcField (opMatch o)

/-- The header word of a command (R90, R97). -/
def headerOf (i : Instr) : Word :=
  match i with
  | .upds st secs => packHeader (opByte .upds) (.ofNat 2 (stageNumber st)) (.ofNat 2 (secs.length - 1)) false 0#16
  | .sbyp st v => packHeader (opByte .sbyp) (.ofNat 2 (stageNumber st)) 0#2 v 0#16
  | .wpar _ pid _ => packHeader (opByte .wpar) 0#2 0#2 false (.ofNat 16 (paramId pid))
  | .magr freqs => packHeader (opByte .magr) 0#2 0#2 false (.ofNat 16 freqs.length)
  | .wview vid _ => packHeader (opByte .wview) 0#2 0#2 false (.ofNat 16 (viewId vid))
  | .nop _ | .sync | .proc _ | .push _ | .srate _ _ | .ntfy _ | .rfsh | .pop | .avail | .anlz | .genp
  | .rdpath | .rstat _ | .clrst => packHeader (opByte (opOf i)) 0#2 0#2 false 0#16

/-- The five words of a section, in payload order (R84). -/
def sectionWords (c : Coefs) : List Word := [c.b0, c.b1, c.b2, c.a1, c.a2]

/-- The payload words of a list of sections (R84). -/
def sectionsWords : List Coefs → List Word
  | [] => []
  | c :: cs => sectionWords c ++ sectionsWords cs

/-- The payload words of a command (R84). -/
def payloadOf : Instr → List Word
  | .proc x => [x]
  | .push blk => blk
  | .upds _ secs => sectionsWords secs
  | .wpar _ _ w => [w]
  | .srate _ fs => [fs]
  | .magr freqs => freqs
  | .wview _ w => [w]
  | .nop _ => []
  | .sync => []
  | .sbyp _ _ => []
  | .ntfy _ => []
  | .rfsh => []
  | .pop => []
  | .avail => []
  | .anlz => []
  | .genp => []
  | .rdpath => []
  | .rstat _ => []
  | .clrst => []

/-- The packet of a command: its header word and payload words (R80). -/
def encode (i : Instr) : Packet := ⟨headerOf i, payloadOf i⟩

/-! ### Byte-serial transport (R62) -/

/-- A word as four bytes, the least significant first (R62). -/
def wordBytes (w : Word) : List Byte :=
  [w.extractLsb' 0 8, w.extractLsb' 8 8, w.extractLsb' 16 8, w.extractLsb' 24 8]

/-- The words a string of bytes carries, `none` when the bytes are not a whole number of words: a mixed-width
transfer cannot be expressed (R61, R62, R63). -/
def bytesWords : List Byte → Option (List Word)
  | [] => some []
  | b0 :: b1 :: b2 :: b3 :: rest => (bytesWords rest).map fun ws => (b3 ++ b2 ++ b1 ++ b0) :: ws
  | _ => none

/-- The packet a string of bytes carries; the transport delimits it (R80). -/
def packetOfBytes (bs : List Byte) : Option Packet :=
  match bytesWords bs with
  | some (h :: pl) => some ⟨h, pl⟩
  | _ => none

/-- A packet as bytes, header first (R62, R80). -/
def packetBytes (pk : Packet) : List Byte := (pk.header :: pk.payload).flatMap wordBytes

/-- Decoding of a packet given as bytes: `none` when the bytes are not a header and whole words. -/
def decodeBytes (l : Nat) (p : Port) (bs : List Byte) : Option Decoded :=
  (packetOfBytes bs).map (decode l p)

/-! ### One row of the opcode table as a packet -/

/-- `k` words of a number, the least significant first. -/
def wordsOfNat : Nat → Nat → List Word
  | 0, _ => []
  | k + 1, w => BitVec.ofNat 32 w :: wordsOfNat k (w / 2 ^ 32)

/-- The packet whose bits are `w`, bit 0 the least significant bit of the header word, every bit from `nbits` on
0, with the payload length that the header implies for the block length `l`. -/
def tablePacket (l nbits w : Nat) : Packet :=
  let bits := w % 2 ^ nbits
  let h := BitVec.ofNat 32 bits
  ⟨h, wordsOfNat (paylen l h) (bits / 2 ^ 32)⟩

/-- A port that may issue the command a header selects: the row's own, or PR for class ANY (R90). -/
def tablePort (h : Word) : Port :=
  match (opOfByte (opcField h)).map opClass with
  | some .rt => .rt
  | _ => .pr

/-- The command the decoder reads from an instruction whose bits are `w`, on a port that may issue it and with the
default block length. -/
def decodeTableWord (nbits w : Nat) : Option Instr :=
  let pk := tablePacket Params.default.l nbits w
  match decode Params.default.l (tablePort pk.header) pk with
  | .ok i => some i
  | .error _ => none

end Sys2Proof
end

