-- ==== Sys2Proof/Machine/State.lean ====
section
/-!
DEFINITION. The state of the block (rule R20 of spec/10_state.md, one field for each piece it names), the model's own
fields (the parameters, the two command streams, the schedule, the responses, the draw counters), the reasons
a step could stop, and the state after reset (R40).
-/

namespace Sys2Proof.Machine

/-- The agents whose turns the execution order is made of (R68, R69, R262): the agent on either port, and the
external reset event, which may fall between any two commands (R280). -/
inductive Agent where
  /-- the agent of a port presents its next command -/
  | port (p : Port)
  /-- the reset event -/
  | reset
  deriving DecidableEq, Repr, Inhabited

/-- The seven view registers (R37). -/
structure ViewRegs where
  vx0 : F
  vw : F
  vyb : F
  vyt : F
  dbmin : F
  dbmax : F
  floor : F
  deriving DecidableEq, Repr, Inhabited

/-- The state. The fields from `mem` to `view` are R20's list; the others are the model's own. -/
structure State where
  /-- `MEM[s][i]`: the section memories of each stage, slot 0 first (R22) -/
  mem : PerStage (List SecMem)
  /-- `ACT[s]`: the active stage coefficient sets (R23) -/
  act : PerStage StageSet
  /-- `ABYP[s]`: the active bypass flags (R24) -/
  abyp : PerStage Bool
  /-- `PUB[s]`: the published stage coefficient sets (R25) -/
  pub : PerStage StageSet
  /-- `PBYP[s]`: the published bypass flags (R26) -/
  pbyp : PerStage Bool
  /-- the eleven parameter registers (R27) -/
  param : Snapshot
  /-- `FS`: the sample rate (R28) -/
  fs : F
  /-- `CHG`: the changed flag (R29) -/
  chg : Bool
  /-- `LAEN`: the live analyzer-enable flag (R30) -/
  laen : Bool
  /-- `STATUS`: the sticky error flags (R31) -/
  status : Word
  /-- `LASTCODE` (R32) -/
  lastcode : BitVec 8
  /-- `LASTERR` (R32) -/
  lasterr : Word
  /-- `SLOT`: the ring's slots as (slot number, block) pairs, numbers rising; a slot not listed reads as `L` words
  `+0.0` and a block of such words is not listed (R33, log entry 4) -/
  slot : List (Nat × List F)
  /-- `W`: the write index (R33) -/
  w : Nat
  /-- `R`: the read index (R33) -/
  r : Nat
  /-- `ACC`: the accumulation buffer, oldest sample first (R34) -/
  acc : List F
  /-- `ACCFILL` (R34) -/
  accfill : Nat
  /-- `MQ`: the magnitude queue, head first (R35) -/
  mq : List (List F)
  /-- `LATEST`: the retained path (R36) -/
  latest : List Point
  /-- `HAVEPATH` (R36) -/
  havepath : Bool
  /-- the seven view registers (R37) -/
  view : ViewRegs
  /-- the model's own: the parameters of R8, which no step changes (R280, log entry 1) -/
  cfg : Params
  /-- the model's own: the commands each agent will still present, next one first (R21, R70, log entry 2) -/
  inq : PerPort (List Packet)
  /-- the model's own: the responses produced on each port, oldest first (R86) -/
  out : PerPort (List Response)
  /-- the model's own: whose turn comes next, as far as the schedule says (R69, log entry 2) -/
  sched : List Agent
  /-- the model's own: turns taken, the argument of the free arbiter (R69, U16, log entry 2) -/
  turn : Nat
  /-- the model's own: NaN draws taken, the argument of the free NaN draw (R12, U1, log entry 3) -/
  draws : Nat
  deriving DecidableEq, Repr

/-- Why the machine could stop with a fault. There is no such reason: "the block has no stuck state and no halt" (R257) and
spec/93_implementation_defined.md says that no behaviour of the block faults. An empty type is safe: nothing is
hidden behind it. -/
inductive Fault where
  deriving DecidableEq, Repr

/-- Why a step could have no meaning. -/
inductive Refusal where
  /-- raised only by an arm of `exec` whose instruction has no meaning yet; there is no such arm, so nothing raises
  it. Safe: a machine that stops shows no wrong result. -/
  | notModelled (mnemonic : String)
  deriving DecidableEq, Repr

/-- A stage set of identity sections with `NSEC = 1` (R40). -/
def resetStageSet (st : Stage) : StageSet := ⟨1, List.replicate (slots st) Coefs.ident⟩

/-- One value for each stage, made from the stage. -/
def perStage {α : Type} (f : Stage → α) : PerStage α := ⟨f .lc, f .pk, f .hc⟩

/-- The state of R40 for the parameters `g`, with no command waiting and no response produced. -/
def State.resetWith (g : Params) : State where
  mem := perStage fun st => List.replicate (slots st) SecMem.zero
  act := perStage resetStageSet
  abyp := perStage fun _ => true
  pub := perStage resetStageSet
  pbyp := perStage fun _ => true
  param :=
    { pkf := 0x443B8000#32    -- 750.0
      pkg := 0x00000000#32    -- 0.0
      pkq := 0x3F800000#32    -- 1.0
      lcf := 0x41A00000#32    -- 20.0
      hcf := 0x469C4000#32    -- 20000.0
      lcs := 0#32
      hcs := 0#32
      lcb := true
      pkb := true
      hcb := true
      aen := true }
  fs := 0#32
  chg := false
  laen := true
  status := 0#32
  lastcode := 0#8
  lasterr := 0#32
  slot := []
  w := 0
  r := 0
  acc := List.replicate g.n 0#32
  accfill := 0
  mq := []
  latest := List.replicate g.nb ⟨0#32, 0#32⟩
  havepath := false
  view :=
    { vx0 := 0x00000000#32    -- 0.0
      vw := 0x3F800000#32     -- 1.0
      vyb := 0x00000000#32    -- 0.0
      vyt := 0x3F800000#32    -- 1.0
      dbmin := g.dbminReset   -- -24.0 by default
      dbmax := g.dbmaxReset   -- +24.0 by default
      floor := g.floorReset } -- -48.0 by default
  cfg := g
  inq := ⟨[], []⟩
  out := ⟨[], []⟩
  sched := []
  turn := 0
  draws := 0

/-- The state right after reset, with the default parameters of R8. -/
def State.reset : State := State.resetWith Params.default

end Sys2Proof.Machine
end

