-- ==== Sys2Proof/Machine/Flags.lean ====
section
/-!
DEFINITION. The response codes (R250), the sticky status flags (R31), the record of a refusal (R254) and the response
header (R86).
-/

namespace Sys2Proof.Machine

/-- The response codes of R250; 6..255 are never produced. -/
inductive Code where
  | ok
  | empty
  | invalidConfiguration
  | coefRejected
  | illegalCommand
  | portViolation
  deriving DecidableEq, Repr, Inhabited

/-- The number of a response code (R250). -/
def codeByte : Code → BitVec 8
  | .ok => 0#8
  | .empty => 1#8
  | .invalidConfiguration => 2#8
  | .coefRejected => 3#8
  | .illegalCommand => 4#8
  | .portViolation => 5#8

/-- The `STATUS` bit a code sets: bit `c - 2` for a code `c` of 2 or more, none for a success (R31, R254). -/
def codeFlag : Code → Word
  | .ok => 0x0#32
  | .empty => 0x0#32
  | .invalidConfiguration => 0x1#32
  | .coefRejected => 0x2#32
  | .illegalCommand => 0x4#32
  | .portViolation => 0x8#32

/-- The response code of a packet refused while decoding (R95, R252). -/
def decodeErrorCode : DecodeError → Code
  | .wrongPort => .portViolation
  | .unknownOpcode => .illegalCommand
  | .reservedField => .illegalCommand
  | .reservedOperand => .illegalCommand
  | .wrongLength => .illegalCommand
  | .reservedPayload => .illegalCommand

/-- The response header word: `cnt[31:16]`, zero `[15:8]`, `code[7:0]` (R86). -/
def respHeader (cnt : Nat) (c : Code) : Word := BitVec.ofNat 16 cnt ++ 0#8 ++ codeByte c

/-- A response with its data words (R86). -/
def mkResponse (c : Code) (ws : List Word) : Response := ⟨respHeader ws.length c, ws⟩

/-- The writes of R254: the sticky flag, `LASTCODE`, `LASTERR`. -/
def recordRefusal (c : Code) (hdr : Word) (s : State) : State :=
  { s with
    status := s.status ||| codeFlag c
    lastcode := codeByte c
    lasterr := hdr }

end Sys2Proof.Machine
end

