-- ==== Sys2Proof/Machine/Float.lean ====
section
/-!
DEFINITION. Binary32 arithmetic on bit patterns (rule R12 of spec/00_scope.md): addition, subtraction and
multiplication, each rounded once to nearest, ties to even, with gradual underflow, overflow to infinity and the
IEEE special cases; comparison; and the exact value of a finite bit pattern. Every operation takes the number of the
NaN draw it uses if its result is a NaN (log entry 3).
-/

namespace Sys2Proof.Machine

/-! ### The parts of a bit pattern -/

/-- The sign bit: `true` for a negative value. -/
def fSign (a : F) : Bool := a.msb

/-- Bits 30:0 as a number: the bit patterns of non-negative values, in the order of their values. -/
def fMag (a : F) : Nat := a.toNat % 2 ^ 31

/-- The biased exponent, bits 30:23. -/
def fExp (a : F) : Nat := fMag a / 2 ^ 23

/-- The fraction, bits 22:0. -/
def fFrac (a : F) : Nat := fMag a % 2 ^ 23

/-- The magnitude pattern of an infinity. -/
def infMag : Nat := 0x7F800000

def isNaN (a : F) : Bool := decide (infMag < fMag a)

def isInf (a : F) : Bool := fMag a == infMag

/-- `finite(a)`: neither a NaN nor an infinity (R12). -/
def isFinite (a : F) : Bool := decide (fMag a < infMag)

/-- `+0.0` or `-0.0`. -/
def isZero (a : F) : Bool := fMag a == 0

/-- A NaN whose leading fraction bit is 1. -/
def isQuietNaN (a : F) : Bool := isNaN a && a.getLsbD 22

/-- The magnitude of a finite value in units of `2^-149`, exactly. -/
def fUnits (a : F) : Nat :=
  if fExp a = 0 then fFrac a else (2 ^ 23 + fFrac a) * 2 ^ (fExp a - 1)

/-- The value of a finite bit pattern in units of `2^-149`, exactly. -/
def fInt (a : F) : Int := if fSign a then -(fUnits a : Int) else (fUnits a : Int)

/-- The value of a finite bit pattern as a rational number. -/
def fRat (a : F) : ℚ := mkRat (fInt a) (2 ^ 149)

/-! ### Comparison -/

/-- A number in the order of the values, infinities included; both zeros at 0. -/
def fOrd (a : F) : Int := if fSign a then -(fMag a : Int) else (fMag a : Int)

/-- IEEE `a < b`: false when either is a NaN. -/
def fLt (a b : F) : Bool := !isNaN a && !isNaN b && decide (fOrd a < fOrd b)

/-- IEEE `a <= b`: false when either is a NaN. -/
def fLe (a b : F) : Bool := !isNaN a && !isNaN b && decide (fOrd a ≤ fOrd b)

/-! ### Rounding -/

/-- `m / 2^d` rounded to the nearest natural number, ties to the even one. -/
def roundHalfEven (m d : Nat) : Nat :=
  let q := m >>> d
  let rest := m % 2 ^ d
  if 2 ^ d < 2 * rest ∨ (2 ^ d = 2 * rest ∧ q % 2 = 1) then q + 1 else q

/-- The magnitude pattern of `m * 2^-(149+k)` rounded once to binary32. The number of bits dropped beyond the `k` is
what leaves at most 24 of them, none for a subnormal result; a pattern at or above that of infinity is an overflow. -/
def roundUnits (m k : Nat) : Nat :=
  let t := Nat.log2 m - 23 - k
  min (t * 2 ^ 23 + roundHalfEven m (k + t)) infMag

/-- A bit pattern from a sign and a magnitude pattern. -/
def packF (neg : Bool) (mag : Nat) : F := BitVec.ofNat 32 (if neg then 2 ^ 31 + mag else mag)

/-- The NaN of draw `k`: some quiet NaN, its sign and payload free (R12, U1). -/
def quietNaN (k : Nat) : F := Config.nanDraw k ||| 0x7FC00000#32

/-! ### The operations of R12 -/

/-- The value with the other sign. -/
def fneg (a : F) : F := a ^^^ 0x80000000#32

/-- `fmul(a, b)`; `0 * inf` is a NaN. -/
def fmul (k : Nat) (a b : F) : F :=
  if isNaN a || isNaN b || (isInf a && isZero b) || (isZero a && isInf b) then quietNaN k
  else if isInf a || isInf b then packF (fSign a != fSign b) infMag
  else packF (fSign a != fSign b) (roundUnits (fUnits a * fUnits b) 149)

/-- `fadd(a, b)`; infinities of opposite signs give a NaN; an exact zero sum is `+0.0` unless both operands are
negative zeros. -/
def fadd (k : Nat) (a b : F) : F :=
  if isNaN a || isNaN b || (isInf a && isInf b && fSign a != fSign b) then quietNaN k
  else if isInf a then a
  else if isInf b then b
  else
    let t := fInt a + fInt b
    if t = 0 then packF (fSign a && fSign b) 0 else packF (decide (t < 0)) (roundUnits t.natAbs 0)

/-- `fsub(a, b)`: `fadd(a, -b)`. -/
def fsub (k : Nat) (a b : F) : F := fadd k a (fneg b)

/-! ### Values brought into a range -/

/-- A finite value: the value itself when it is finite, else the one with bit 30 cleared. Every finite-valued free
value is a value of it (R175 F4, R226, R227). -/
def finitize (a : F) : F := if isFinite a then a else a &&& 0xBFFFFFFF#32

/-- A finite value above zero: the value itself when it is one. The sign is dropped, and the least positive value stands for
zero, so every positive finite value is a value of it (R181 M1). -/
def positiveFinite (a : F) : F :=
  let b := finitize a &&& 0x7FFFFFFF#32
  if b = 0#32 then 1#32 else b

/-- `1.0`. -/
def oneF : F := 0x3F800000#32

/-- The largest finite binary32 value (R219). -/
def maxFinite : F := 0x7F7FFFFF#32

/-- A valid sample rate: finite and above zero (R28). -/
def validRate (fs : F) : Bool := isFinite fs && fLt 0#32 fs

end Sys2Proof.Machine
end

