-- ==== Sys2Proof/Machine/Operands.lean ====
section
/-!
DEFINITION. What the operands of the commands name: the parameter registers a `WPAR` writes (R27, R151), the view
registers a `WVIEW` writes (R37, R231), the stage set a `UPDS` payload stands for (R131, R132), and the tests the
commands make on operands (R28, R133).
-/

namespace Sys2Proof.Machine

/-- A parameter register written by `WPAR`: as `F` for `pid` 0..4, as `U32` for 5 and 6, as `Bool` (bit 0) for 7..10
(R151). Nothing is clamped or tested (R152). -/
def writeParam (pid : Param) (w : Word) (p : Snapshot) : Snapshot :=
  match pid with
  | .pkf => { p with pkf := w }
  | .pkg => { p with pkg := w }
  | .pkq => { p with pkq := w }
  | .lcf => { p with lcf := w }
  | .hcf => { p with hcf := w }
  | .lcs => { p with lcs := w }
  | .hcs => { p with hcs := w }
  | .lcb => { p with lcb := w.getLsbD 0 }
  | .pkb => { p with pkb := w.getLsbD 0 }
  | .hcb => { p with hcb := w.getLsbD 0 }
  | .aen => { p with aen := w.getLsbD 0 }

/-- A view register written by `WVIEW` (R231). -/
def writeView (vid : View) (x : F) (v : ViewRegs) : ViewRegs :=
  match vid with
  | .vx0 => { v with vx0 := x }
  | .vw => { v with vw := x }
  | .vyb => { v with vyb := x }
  | .vyt => { v with vyt := x }
  | .dbmin => { v with dbmin := x }
  | .dbmax => { v with dbmax := x }
  | .floor => { v with floor := x }

/-- Whether all five coefficients of a section are finite. -/
def coefsFinite (c : Coefs) : Bool :=
  isFinite c.b0 && isFinite c.b1 && isFinite c.b2 && isFinite c.a1 && isFinite c.a2

/-- A stage set from its enabled sections: the slots beyond them hold `ID` (R132, R170). -/
def stageSetOf (st : Stage) (secs : List Coefs) : StageSet :=
  ⟨secs.length, secs ++ List.replicate (slots st - secs.length) Coefs.ident⟩

/-- The enabled sections of a stage set: slots `i < NSEC` (R16). -/
def enabledSections (g : StageSet) : List Coefs := g.c.take g.nsec

/-- An out-of-range slope index (R162). -/
def slopeOutOfRange (k : Word) : Bool := decide (3 < k.toNat)

/-- A number as a data word (R79). -/
def wordOfNat (n : Nat) : Word := BitVec.ofNat 32 n

end Sys2Proof.Machine
end

