-- ==== Sys2Proof/Machine/Ops.lean ====
section
/-!
DEFINITION. The shared operations over the state: responding (R86), taking a refusal (R254, R257: the block's trap
entry, which has no return, R259), the ring's slots and the take operation (R33, R192, R198), the two command
streams with the choice of the agent that steps next (R68 to R71), and the reset event (R280).
-/

namespace Sys2Proof.Machine

/-- The outcome of a step of this machine. -/
abbrev Result := Host.Outcome State Fault Refusal

/-! ### Responses and refusals -/

/-- `respond <Code> [w0, ...]`: the response is produced on the port the command came from (R13, R86). -/
def respond (p : Port) (c : Code) (ws : List Word) (s : State) : State :=
  { s with out := s.out.set p (s.out.get p ++ [mkResponse c ws]) }

/-- `raise <Code>`, for a command with the header `hdr` on port `p`: the recording of R254, a response with no data, and
nothing else. This is the whole of the block's exception entry: nothing is saved, no mode changes and control goes
nowhere, so there is nothing a return would restore (R257, R259). -/
def refuse (p : Port) (c : Code) (hdr : Word) (s : State) : State := respond p c [] (recordRefusal c hdr s)

/-! ### The ring (R33) -/

/-- What a slot that is not listed reads as: `L` words `+0.0`, the reset contents (R33). -/
def zeroBlock (l : Nat) : List F := List.replicate l 0#32

/-- The block that slot `j` holds. -/
def slotGet (l : Nat) : List (Nat × List F) → Nat → List F
  | [], _ => zeroBlock l
  | (i, b) :: rest, j => if i = j then b else slotGet l rest j

/-- The slots after `blk` is written to slot `j`; the listed slots stay in rising order, and a block that reads as an
unlisted slot does is not listed. -/
def slotSet (l : Nat) (j : Nat) (blk : List F) : List (Nat × List F) → List (Nat × List F)
  | [] => if blk = zeroBlock l then [] else [(j, blk)]
  | (i, b) :: rest =>
    if i < j then (i, b) :: slotSet l j blk rest
    else
      let tail := if i = j then rest else (i, b) :: rest
      if blk = zeroBlock l then tail else (j, blk) :: tail

/-- The canonical form of the slots: every number below `cap`, the numbers strictly rising, every block of `l` words and
none that reads as an unlisted slot does. -/
def slotsWf (l cap : Nat) (m : List (Nat × List F)) : Bool :=
  decide ((m.map Prod.fst).Pairwise (· < ·)) &&
    m.all fun e => decide (e.1 < cap) && decide (e.2.length = l) && decide (e.2 ≠ zeroBlock l)

/-- `SlotRead(i)` (R13). -/
def slotRead (s : State) (i : Nat) : List F := slotGet s.cfg.l s.slot i

/-- `SlotWrite(i, blk)` (R13). -/
def slotWrite (i : Nat) (blk : List F) (s : State) : State := { s with slot := slotSet s.cfg.l i blk s.slot }

/-- `RingTake()`, shared by `POP` and `ANLZ` (R198): `none` on an empty ring; else blocks that were overwritten are
skipped (R196), the oldest one left is copied out and `R` moves past it. -/
def ringTake (s : State) : Option (List F × State) :=
  if s.w = s.r then none
  else
    let r := if s.cfg.cap < s.w - s.r then s.w - s.cfg.cap else s.r
    some (slotRead s (r % s.cfg.cap), { s with r := r + 1 })

/-- `avail = min(W - R, CAP)` (R191). -/
def ringAvail (s : State) : Nat := min (s.w - s.r) s.cfg.cap

/-! ### The command streams (R21, R68 to R71) -/

/-- What the next step is. -/
inductive Event where
  /-- no agent has a command waiting and no reset is due: the end of the streams (R297) -/
  | idle
  /-- the reset event (R280) -/
  | reset
  /-- the command `pk` is presented on port `p` -/
  | command (p : Port) (pk : Packet)
  deriving DecidableEq, Repr

/-- The next command when it is the turn of `p`: a port with nothing waiting gives its turn away, so that neither port
waits on the other (R71). -/
def nextCommand (p : Port) (s : State) : Event :=
  match s.inq.get p with
  | pk :: _ => .command p pk
  | [] =>
    match s.inq.get p.other with
    | pk :: _ => .command p.other pk
    | [] => .idle

/-- The next event of the execution order: the schedule's next entry where it has one, else the free arbiter's choice
(R69, U16). -/
def nextEvent (s : State) : Event :=
  match s.sched with
  | .reset :: _ => .reset
  | .port p :: _ => nextCommand p s
  | [] => nextCommand (Config.arbiter s.turn) s

/-- The turn is over: its schedule entry is used up. -/
def endTurn (s : State) : State := { s with sched := s.sched.tail }

/-- The command at the head of port `p`'s stream is taken off it, and its turn is counted (R21, R70). -/
def accept (p : Port) (s : State) : State :=
  { s with
    inq := s.inq.set p (s.inq.get p).tail
    sched := s.sched.tail
    turn := s.turn + 1 }

/-- The reset event: every piece of state of R20 goes to its value of R40, for the same parameters (R280, R281). The
agents' streams, the responses already produced and the free draws already taken are not state of the block. -/
def resetEvent (s : State) : State :=
  { State.resetWith s.cfg with
    inq := s.inq
    out := s.out
    sched := s.sched.tail
    turn := s.turn
    draws := s.draws }

/-- The state in which the packet `pk` is the next command and is presented on port `p`. -/
def presentNext (p : Port) (pk : Packet) (s : State) : State :=
  { s with
    inq := s.inq.set p (pk :: s.inq.get p)
    sched := .port p :: s.sched }

end Sys2Proof.Machine
end

