-- ==== Sys2Proof/Machine/Spectrum.lean ====
section
/-!
DEFINITION. The numerics of the analyzer: the slide of the accumulation buffer (R211), the spectrum (R218) and the path of
points (R225 to R227). `Spectrum`, `MapX` and `MapY` are uninterpreted but for their exact properties, which hold by
construction: S1 (finite, at least the floor), S2 (silence gives the floor), S4 (a function), finite coordinates. Their
accuracy is a premise of Machine/Reference.lean (log entries 7, 8).
-/

namespace Sys2Proof.Machine

/-- `ShiftAppend(acc, blk)`: the `N` most recent samples, oldest first (R211). -/
def shiftAppend (n l : Nat) (acc blk : List F) : List F :=
  if n ≤ l then blk.drop (l - n) else acc.drop l ++ blk

/-- A decibel value held at the floor: a NaN gives the floor and plus infinity the largest finite value (R219 S1). -/
def floored (floor d : F) : F :=
  if isNaN d then floor
  else if fLt d floor then floor
  else if isInf d then maxFinite
  else d

/-- One value of `Spectrum(acc, floor)`: the floor for silence (S2) and for a buffer with a NaN or an infinite sample (S1),
else the open value held at the floor (R218, R219). -/
def spectrumValue (n : Nat) (acc : List F) (floor : F) (k : Nat) : F :=
  if acc.all isZero then floor
  else if acc.all isFinite then floored floor (Config.spectrumBin n acc floor k)
  else floor

/-- `Spectrum(acc, floor)`: `NB` values, bin 0 first (R218). -/
def spectrum (n nb : Nat) (acc : List F) (floor : F) : List F := (List.range nb).map (spectrumValue n acc floor)

/-- The center frequency of bin `k`, `k * FS / N`, exactly (R225). -/
def binFrequency (n : Nat) (fs : F) (k : Nat) : ℚ := (k : ℚ) * fRat fs / (n : ℚ)

/-- `MapX(f)` (R226), finite (R228). -/
def mapX (v : ViewRegs) (f : ℚ) : F := finitize (Config.mapX f v.vx0 v.vw)

/-- `MapY(v)` (R227), finite. -/
def mapY (v : ViewRegs) (d : F) : F := finitize (Config.mapY d v.vyb v.vyt v.dbmin v.dbmax)

/-- The point of bin `k`: the initial point lies at `VX0`, the others at their mapped center frequency (R225). -/
def pathPoint (n : Nat) (fs : F) (v : ViewRegs) (k : Nat) (d : F) : Point :=
  ⟨if k = 0 then v.vx0 else mapX v (binFrequency n fs k), mapY v d⟩

/-- `PathOf(m)` (R225). Nothing is clamped (R228) and nothing is smoothed (R230). -/
def pathOf (n : Nat) (fs : F) (v : ViewRegs) (m : List F) : List Point := m.mapIdx (pathPoint n fs v)

end Sys2Proof.Machine
end

