-- ==== Sys2Proof/Machine/Analyzer.lean ====
section
/-!
DEFINITION. The spectrum analyzer and path generator (spec/44_spectrum_analyzer.md): `ANLZ`, `GENP`, `RDPATH`, `WVIEW`, all of
class PR.
-/

namespace Sys2Proof.Machine

/-- The magnitude queue with one more entry: a full queue drops its head first (R212, R214). -/
def enqueue (mqcap : Nat) (mq : List (List F)) (m : List F) : List (List F) :=
  (if mq.length = mqcap then mq.tail else mq) ++ [m]

/-- The work of `ANLZ` on a block taken from the ring: slide it in; when the buffer is full, queue its spectrum and report 1,
else report 0 (R212, R213). -/
def analyze (blk : List F) (s : State) : State :=
  let acc := shiftAppend s.cfg.n s.cfg.l s.acc blk
  let fill := min s.cfg.n (s.accfill + s.cfg.l)
  let t := { s with acc := acc, accfill := fill }
  if fill < s.cfg.n then respond .pr .ok [0#32] t
  else
    respond .pr .ok [1#32]
      { t with mq := enqueue s.cfg.mqcap s.mq (spectrum s.cfg.n s.cfg.nb acc s.view.floor) }

/-- `ANLZ` (R212). -/
def execAnlz (s : State) : Result :=
  if s.laen then
    match ringTake s with
    | none => .next (respond .pr .empty [] s)
    | some (blk, t) => .next (analyze blk t)
  else .next (respond .pr .ok [0#32] s)

/-- The validity test of `GENP` (R223). -/
def pathConfigured (s : State) : Bool := validRate s.fs && fLt s.view.dbmin s.view.dbmax

/-- The path left after one path is made for each queued entry in turn, head first, each replacing the one before (R222). -/
def latestPath (s : State) : List Point :=
  s.mq.foldl (fun _ m => pathOf s.cfg.n s.fs s.view m) s.latest

/-- `GENP` (R222). -/
def execGenp (s : State) : Result :=
  if s.laen && !s.mq.isEmpty then
    if pathConfigured s then
      .next (respond .pr .ok [wordOfNat s.mq.length]
        { s with latest := latestPath s, mq := [], havepath := true })
    else .next (refuse .pr .invalidConfiguration (headerOf .genp) s)
  else .next (respond .pr .ok [0#32] s)

/-- The data words of a path: `x0, y0, x1, y1, ...` (R88). -/
def pathWords (ps : List Point) : List Word := ps.flatMap fun q => [q.x, q.y]

/-- `RDPATH` (R229). -/
def execRdpath (s : State) : Result :=
  if s.havepath then .next (respond .pr .ok (pathWords s.latest) s)
  else .next (respond .pr .empty [] s)

/-- `WVIEW name, value` (R231): a NaN or an infinity is refused (R232). -/
def execWview (vid : View) (x : F) (s : State) : Result :=
  if isFinite x then .next (respond .pr .ok [] { s with view := writeView vid x s.view })
  else .next (refuse .pr .invalidConfiguration (headerOf (.wview vid x)) s)

end Sys2Proof.Machine
end

