-- ==== Sys2Proof/Machine/Channel.lean ====
section
/-!
DEFINITION. The sample block channel (spec/43_sample_block_channel.md): `PUSH` (class RT), `POP` and `AVAIL` (class PR).
-/

namespace Sys2Proof.Machine

/-- `PUSH {x0, ..., x(L-1)}` (R192): slot `W mod CAP` is written, whether or not it holds an unread block (R193). -/
def execPush (blk : List F) (s : State) : Result :=
  .next (respond .rt .ok [] { slotWrite (s.w % s.cfg.cap) blk s with w := s.w + 1 })

/-- `POP` (R195). -/
def execPop (s : State) : Result :=
  match ringTake s with
  | none => .next (respond .pr .empty [] s)
  | some (blk, t) => .next (respond .pr .ok blk t)

/-- `AVAIL` (R199). -/
def execAvail (s : State) : Result := .next (respond .pr .ok [wordOfNat (ringAvail s)] s)

end Sys2Proof.Machine
end

