-- ==== Sys2Proof/Machine/Coefficient.lean ====
section
/-!
DEFINITION. Coefficient and bypass control (spec/41_coefficient_control.md): `UPDS` and `SBYP`, both of class PR. They write
the published bank only.
-/

namespace Sys2Proof.Machine

/-- `UPDS stage, {section}...` (R131): a set with a non-finite coefficient is refused whole (R133); else the stage's
published set is replaced whole, the slots beyond the supplied ones holding `ID` (R132). -/
def execUpds (stg : Stage) (secs : List Coefs) (s : State) : Result :=
  if secs.all coefsFinite then
    .next (respond .pr .ok [] { s with pub := s.pub.set stg (stageSetOf stg secs) })
  else .next (refuse .pr .coefRejected (headerOf (.upds stg secs)) s)

/-- `SBYP stage, v` (R137). -/
def execSbyp (stg : Stage) (v : Bool) (s : State) : Result :=
  .next (respond .pr .ok [] { s with pbyp := s.pbyp.set stg v })

end Sys2Proof.Machine
end

