-- ==== Sys2Proof/Machine/Filter.lean ====
section
/-!
DEFINITION. The filter datapath (spec/40_filter_datapath.md): the section step, the stage step, `PROC` and `SYNC`. Both
commands are of class RT: on the PR port decoding has already ended them with `PORT_VIOLATION` (R95 step 2).
-/

namespace Sys2Proof.Machine

/-- The section step `Sec(c, m, v)` of R112: nine operations, each rounded once, in the order and association written
there. Operation `j` uses NaN draw `k + j`. -/
def secStep (k : Nat) (c : Coefs) (m : SecMem) (v : F) : F × SecMem :=
  let y := fadd (k + 1) (fmul k c.b0 v) m.s1
  let s1 := fadd (k + 5) (fsub (k + 4) (fmul (k + 2) c.b1 v) (fmul (k + 3) c.a1 y)) m.s2
  let s2 := fsub (k + 8) (fmul (k + 6) c.b2 v) (fmul (k + 7) c.a2 y)
  (y, ⟨s1, s2⟩)

/-- What running sections gives: the output, the section memories after, the next draw number. -/
structure FilterOut (μ : Type) where
  y : F
  mem : μ
  draws : Nat
  deriving DecidableEq, Repr

/-- The first `n` sections of a stage, in slot order; the slots from `n` on are bypassed, their memories neither read nor
written (R113). -/
def runSections : Nat → List Coefs → List SecMem → F → Nat → FilterOut (List SecMem)
  | n + 1, c :: cs, m :: ms, v, k =>
    let out := secStep k c m v
    let rest := runSections n cs ms out.1 (k + 9)
    { rest with mem := out.2 :: rest.mem }
  | _, _, ms, v, k => ⟨v, ms, k⟩

/-- `Stage(s, v)` of R113 where the stage is not bypassed; a bypassed stage passes its input through, bit for bit, and
leaves its memories alone (R114). -/
def stageStep (byp : Bool) (g : StageSet) (ms : List SecMem) (v : F) (k : Nat) : FilterOut (List SecMem) :=
  if byp then ⟨v, ms, k⟩ else runSections g.nsec g.c ms v k

/-- The three stages in series: low-cut, peak, high-cut (R110, R111). -/
def runChain (act : PerStage StageSet) (abyp : PerStage Bool) (mem : PerStage (List SecMem)) (x : F) (k : Nat) :
    FilterOut (PerStage (List SecMem)) :=
  let lc := stageStep abyp.lc act.lc mem.lc x k
  let pk := stageStep abyp.pk act.pk mem.pk lc.y lc.draws
  let hc := stageStep abyp.hc act.hc mem.hc pk.y pk.draws
  ⟨hc.y, ⟨lc.mem, pk.mem, hc.mem⟩, hc.draws⟩

/-- `PROC x` (R111). -/
def execProc (x : F) (s : State) : Result :=
  let out := runChain s.act s.abyp s.mem x s.draws
  .next (respond .rt .ok [out.y] { s with mem := out.mem, draws := out.draws })

/-- What adoption does to a stage's memories: a slot whose enable changes is cleared, every other keeps its memory
(R116, R117). `old` and `new` are the section counts before and after. -/
def adoptMem (old new : Nat) (ms : List SecMem) : List SecMem :=
  ms.mapIdx fun i m => if decide (i < old) != decide (i < new) then SecMem.zero else m

/-- `SYNC` (R116): the published sets and bypass flags become the active ones. -/
def execSync (s : State) : Result :=
  .next (respond .rt .ok []
    { s with
      mem :=
        { lc := adoptMem s.act.lc.nsec s.pub.lc.nsec s.mem.lc
          pk := adoptMem s.act.pk.nsec s.pub.pk.nsec s.mem.pk
          hc := adoptMem s.act.hc.nsec s.pub.hc.nsec s.mem.hc }
      act := s.pub
      abyp := s.pbyp })

end Sys2Proof.Machine
end

