-- ==== Sys2Proof/Machine/Factory.lean ====
section
/-!
DEFINITION. The coefficient factory (section 3 of spec/42_parameters_factory.md): three functions of a snapshot and a sample
rate (R170), uninterpreted but for their properties: determinism (F1, they are functions), shape (F2, by
construction), finiteness within the bounds (F4, by `finitize`). Their accuracy (F3) is the premise
`FactoryAccurate` of Machine/Reference.lean (log entry 5).
-/

namespace Sys2Proof.Machine

/-- `lo <= x <= hi`, false for a NaN. -/
def within (lo x hi : F) : Bool := fLe lo x && fLe x hi

/-- The premise of F3 and F4 (R175): every parameter within its bounds of R27 and `2*20000 < fs`. -/
def inBounds (p : Snapshot) (fs : F) : Bool :=
  within 0x41A00000#32 p.pkf 0x469C4000#32 &&    -- 20, 20000
  within 0xC1C00000#32 p.pkg 0x41C00000#32 &&    -- -24, +24
  within 0x3DCCCCCD#32 p.pkq 0x41200000#32 &&    -- 0.1 (the least binary32 value above it), 10
  within 0x41A00000#32 p.lcf 0x469C4000#32 &&
  within 0x41A00000#32 p.hcf 0x469C4000#32 &&
  !slopeOutOfRange p.lcs && !slopeOutOfRange p.hcs &&
  isFinite fs && fLt 0x471C4000#32 fs            -- 40000

def finitizeCoefs (c : Coefs) : Coefs :=
  ⟨finitize c.b0, finitize c.b1, finitize c.b2, finitize c.a1, finitize c.a2⟩

/-- A section as the factory gives it: finite within the bounds (F4), any value outside them (R176). -/
def factorySection (p : Snapshot) (fs : F) (c : Coefs) : Coefs :=
  if inBounds p fs then finitizeCoefs c else c

/-- A cut stage for the slope index `k`: `k + 1` equal sections, the other slots `ID` (R170, R174, F2). -/
def cutSet (st : Stage) (k : Word) (c : Coefs) : StageSet := stageSetOf st (List.replicate (k.toNat + 1) c)

/-- `MakeLowCut` (R172). -/
def makeLowCut (p : Snapshot) (fs : F) : StageSet :=
  cutSet .lc p.lcs (factorySection p fs (Config.lowCutSection p fs))

/-- `MakePeak` (R171). -/
def makePeak (p : Snapshot) (fs : F) : StageSet :=
  stageSetOf .pk [factorySection p fs (Config.peakSection p fs)]

/-- `MakeHighCut` (R173). -/
def makeHighCut (p : Snapshot) (fs : F) : StageSet :=
  cutSet .hc p.hcs (factorySection p fs (Config.highCutSection p fs))

/-- The three stage sets of a refresh, from one snapshot (R160, R161). -/
def factorySets (p : Snapshot) (fs : F) : PerStage StageSet := ⟨makeLowCut p fs, makePeak p fs, makeHighCut p fs⟩

end Sys2Proof.Machine
end

