-- ==== Sys2Proof/Machine/Response.lean ====
section
/-!
DEFINITION. The magnitude evaluator `MagResp` (R181): uninterpreted but for its exact properties, which hold by
construction: with all three stages bypassed the result is `1.0` (M2); where the reference is exactly 0 the
result is `+0.0` (the second clause of M1); where it is a positive real the result is finite and above zero (without
which M1's `20*log10(m)` does not exist). Its accuracy (M1) is the premise `MagRespAccurate` of
Machine/Reference.lean (log entry 6).
-/

namespace Sys2Proof.Machine

/-- Whether the polynomial `p0 + p1*z + p2*z^2` is exactly 0 at `z = e^(-jw)`, where `c` is `2*cos w` when that is an integer
(`none` otherwise). The values are exact numbers in one unit. At `c = 2` and `c = -2` the point is 1 and -1; at `c = 1, 0,
-1` the two conjugate points are the roots exactly of the multiples of `1 - c*z + z^2`; at every other rational
frequency only the zero polynomial vanishes, because `2*cos w` is then not rational (log entry 6). -/
def vanishesAt (c : Option Int) (p0 p1 p2 : Int) : Bool :=
  match c with
  | some 2 => p0 + p1 + p2 == 0
  | some (-2) => p0 - p1 + p2 == 0
  | some c => p0 == p2 && p1 == -(c * p2)
  | none => p0 == 0 && p1 == 0 && p2 == 0

/-- `2*cos(2*pi*f/fs)` when it is an integer, for `0 <= f <= fs/2`: at `f` = 0, `fs/6`, `fs/4`, `fs/3`, `fs/2`. -/
def twiceCos (f fs : F) : Option Int :=
  if fInt f = 0 then some 2
  else if 6 * fInt f = fInt fs then some 1
  else if 4 * fInt f = fInt fs then some 0
  else if 3 * fInt f = fInt fs then some (-1)
  else if 2 * fInt f = fInt fs then some (-2)
  else none

/-- The sections that enter the reference: those of the enabled slots of the stages not bypassed (R181). -/
def audibleSections (secs : PerStage (List Coefs)) (byp : PerStage Bool) : List Coefs :=
  (if byp.lc then [] else secs.lc) ++ (if byp.pk then [] else secs.pk) ++ (if byp.hc then [] else secs.hc)

/-- `1.0` in the unit of `fInt`. -/
def oneUnits : Int := 2 ^ 149

/-- Whether a section's denominator vanishes at the frequency. -/
def denominatorVanishes (f fs : F) (c : Coefs) : Bool :=
  vanishesAt (twiceCos f fs) oneUnits (fInt c.a1) (fInt c.a2)

/-- Whether a section's numerator vanishes at the frequency. -/
def numeratorVanishes (f fs : F) (c : Coefs) : Bool :=
  vanishesAt (twiceCos f fs) (fInt c.b0) (fInt c.b1) (fInt c.b2)

/-- `0 <= f <= fs/2` for a finite `f`: where M1 applies (R181). -/
def inBand (f fs : F) : Bool := isFinite f && decide (0 ≤ fInt f) && decide (2 * fInt f ≤ fInt fs)

/-- Whether the reference magnitude of R181 exists and is exactly 0. -/
def referenceIsZero (secs : List Coefs) (f fs : F) : Bool :=
  inBand f fs && !secs.any (denominatorVanishes f fs) && secs.any (numeratorVanishes f fs)

/-- Whether the reference magnitude of R181 is a positive real: the frequency is in the band, and neither a denominator nor a
numerator vanishes there. -/
def referenceIsPositive (secs : List Coefs) (f fs : F) : Bool :=
  inBand f fs && !secs.any (denominatorVanishes f fs) && !secs.any (numeratorVanishes f fs)

/-- `MagResp(PUB, PBYP, FS, f)` (R181). The slots beyond `NSEC` are never used (R132). -/
def magResp (pub : PerStage StageSet) (pbyp : PerStage Bool) (fs f : F) : F :=
  let secs : PerStage (List Coefs) := ⟨enabledSections pub.lc, enabledSections pub.pk, enabledSections pub.hc⟩
  if pbyp.lc && pbyp.pk && pbyp.hc then oneF
  else if referenceIsZero (audibleSections secs pbyp) f fs then 0#32
  else if referenceIsPositive (audibleSections secs pbyp) f fs then positiveFinite (Config.magResp secs pbyp fs f)
  else Config.magResp secs pbyp fs f

end Sys2Proof.Machine
end

