-- ==== Sys2Proof/Machine/Parameters.lean ====
section
/-!
DEFINITION. Parameters, coalesced refresh and magnitude response (spec/42_parameters_factory.md): `WPAR`, `SRATE`, `NTFY` (class
ANY), `RFSH` and `MAGR` (class PR).
-/

namespace Sys2Proof.Machine

/-- `WPAR name, value` (R151): the register is written as given and `CHG` is set. -/
def execWpar (p : Port) (pid : Param) (w : Word) (s : State) : Result :=
  .next (respond p .ok [] { s with param := writeParam pid w s.param, chg := true })

/-- `SRATE fs` (R154): stored as given, valid or not; `CHG` is set. -/
def execSrate (p : Port) (fs : F) (s : State) : Result :=
  .next (respond p .ok [] { s with fs := fs, chg := true })

/-- `NTFY` (R156). -/
def execNtfy (p : Port) (s : State) : Result :=
  .next (respond p .ok [] { s with chg := true })

/-- A stage set a refresh publishes: every coefficient of its enabled sections is finite (R160). -/
def setFinite (g : StageSet) : Bool := (enabledSections g).all coefsFinite

/-- The stages whose new set is rejected (R167). -/
def rejectedStages (sets : PerStage StageSet) : PerStage Bool :=
  ⟨!setFinite sets.lc, !setFinite sets.pk, !setFinite sets.hc⟩

/-- The data word of a refresh that was carried out: bit 0, and bit `1+s` for each rejected stage `s` (R88, R160). -/
def refreshWord (rej : PerStage Bool) : Word :=
  0x1#32 ||| (if rej.lc then 0x2#32 else 0#32) ||| (if rej.pk then 0x4#32 else 0#32)
    ||| (if rej.hc then 0x8#32 else 0#32)

/-- The published bank after a refresh: a rejected stage keeps its last valid set (R167). -/
def publishSets (old sets : PerStage StageSet) (rej : PerStage Bool) : PerStage StageSet :=
  ⟨if rej.lc then old.lc else sets.lc, if rej.pk then old.pk else sets.pk, if rej.hc then old.hc else sets.hc⟩

/-- The publication of a refresh: the accepted sets, the three bypass flags and the analyzer enable, in one transition; a
rejection is recorded though the response is `OK` (R160, R163, R167). -/
def publish (sets : PerStage StageSet) (s : State) : State :=
  let rej := rejectedStages sets
  let t : State :=
    { s with
      pub := publishSets s.pub sets rej
      pbyp := ⟨s.param.lcb, s.param.pkb, s.param.hcb⟩
      laen := s.param.aen }
  respond .pr .ok [refreshWord rej]
    (if rej.lc || rej.pk || rej.hc then recordRefusal .coefRejected (headerOf .rfsh) t else t)

/-- The configuration test of `RFSH` (R162). -/
def refreshConfigured (s : State) : Bool :=
  validRate s.fs && !slopeOutOfRange s.param.lcs && !slopeOutOfRange s.param.hcs

/-- `RFSH` (R160): nothing to do when `CHG` is 0; else `CHG` is cleared, whatever follows (R162), and the factory's three sets
are published. -/
def execRfsh (s : State) : Result :=
  if s.chg then
    if refreshConfigured s then .next (publish (factorySets s.param s.fs) { s with chg := false })
    else .next (refuse .pr .invalidConfiguration (headerOf .rfsh) { s with chg := false })
  else .next (respond .pr .ok [0#32] s)

/-- `MAGR {f0, ..., f(n-1)}` (R180). -/
def execMagr (freqs : List F) (s : State) : Result :=
  if validRate s.fs then .next (respond .pr .ok (freqs.map (magResp s.pub s.pbyp s.fs)) s)
  else .next (refuse .pr .invalidConfiguration (headerOf (.magr freqs)) s)

end Sys2Proof.Machine
end

