-- ==== Sys2Proof/Machine/System.lean ====
section
/-!
DEFINITION. The system commands (spec/45_system.md): `NOP`, `RSTAT` (class ANY) and `CLRST` (class PR).
-/

namespace Sys2Proof.Machine

/-- `NOP` (R240). -/
def execNop (p : Port) (s : State) : Result := .next (respond p .ok [] s)

/-- `RSTAT` (R241): reading does not clear. -/
def execRstat (p : Port) (s : State) : Result :=
  .next (respond p .ok [s.status, s.lastcode.zeroExtend 32, s.lasterr] s)

/-- `CLRST` (R242). -/
def execClrst (s : State) : Result :=
  .next (respond .pr .ok [] { s with status := 0#32, lastcode := 0#8, lasterr := 0#32 })

end Sys2Proof.Machine
end

