-- ==== Sys2Proof/Machine/Dispatch.lean ====
section
/-!
DEFINITION. The meaning of every command: one arm per constructor of `Instr`.
-/

namespace Sys2Proof.Machine

def exec (i : Instr) (s : State) : Host.Outcome State Fault Refusal :=
  match i with
  | .nop p => Sys2Proof.Machine.execNop p s
  | .sync => Sys2Proof.Machine.execSync s
  | .proc x => Sys2Proof.Machine.execProc x s
  | .push blk => Sys2Proof.Machine.execPush blk s
  | .upds stg secs => Sys2Proof.Machine.execUpds stg secs s
  | .sbyp stg v => Sys2Proof.Machine.execSbyp stg v s
  | .wpar p pid w => Sys2Proof.Machine.execWpar p pid w s
  | .srate p fs => Sys2Proof.Machine.execSrate p fs s
  | .ntfy p => Sys2Proof.Machine.execNtfy p s
  | .rfsh => Sys2Proof.Machine.execRfsh s
  | .magr freqs => Sys2Proof.Machine.execMagr freqs s
  | .wview vid w => Sys2Proof.Machine.execWview vid w s
  | .pop => Sys2Proof.Machine.execPop s
  | .avail => Sys2Proof.Machine.execAvail s
  | .anlz => Sys2Proof.Machine.execAnlz s
  | .genp => Sys2Proof.Machine.execGenp s
  | .rdpath => Sys2Proof.Machine.execRdpath s
  | .rstat p => Sys2Proof.Machine.execRstat p s
  | .clrst => Sys2Proof.Machine.execClrst s

end Sys2Proof.Machine
end

