-- ==== Sys2Proof/Machine/Step.lean ====
section
/-!
DEFINITION. One step of the execution order (R68): the next event is the reset event, a command on a port, or nothing. A command
that decoding rejects ends with its refusal; every other is executed.
-/

namespace Sys2Proof.Machine

/-- One step. A packet refused while decoding changes nothing but the status registers (R94, R260). When both streams are
exhausted nothing happens (R297). -/
def step (s : State) : Host.Outcome State Fault Refusal :=
  match nextEvent s with
  | .idle => .next (endTurn s)
  | .reset => .next (resetEvent s)
  | .command p pk =>
    match decode s.cfg.l p pk with
    | .ok i => exec i (accept p s)
    | .error e => .next (refuse p (decodeErrorCode e) pk.header (accept p s))

/-- The state in which the instruction whose bits are `w` is the next command, on a port that may issue it. -/
def State.withFetchWord (s : State) (nbits w : Nat) : State :=
  let pk := tablePacket s.cfg.l nbits w
  presentNext (tablePort pk.header) pk s

end Sys2Proof.Machine
end

