-- ==== Sys2Proof/Machine/Reference.lean ====
section
/-!
DEFINITION. The reference definitions over the reals (R171 to R174, R181, R218, R226, R227) and the accuracy properties that
tie the uninterpreted configuration functions to them (R175 F3, R181 M1, R219 S3, the `MAP_TOL` properties of R226 and R227).
No step computes with this file: a claim that needs an accuracy property takes it as a premise, for a tolerance of its own.
The definitions are `noncomputable` because the reference functions are transcendental.
-/

namespace Sys2Proof.Machine

/-- The value of a finite bit pattern as a real (R181: "taken as reals"). -/
noncomputable def toReal (a : F) : ℝ := (fInt a : ℝ) / 2 ^ 149

/-- A section's coefficients as reals. -/
structure RealCoefs where
  b0 : ℝ
  b1 : ℝ
  b2 : ℝ
  a1 : ℝ
  a2 : ℝ

noncomputable def realCoefs (c : Coefs) : RealCoefs := ⟨toReal c.b0, toReal c.b1, toReal c.b2, toReal c.a1, toReal c.a2⟩

/-! ### The factory (R171 to R173) -/

/-- The linear gain of a gain in decibels, `g = 10^(G/20)` (R171). -/
noncomputable def linearGain (gainDb : ℝ) : ℝ := (10 : ℝ) ^ (gainDb / 20)

/-- `MakePeak`'s reference section (R171). -/
noncomputable def peakRef (f gainDb q fs : ℝ) : RealCoefs :=
  let a := Real.sqrt (linearGain gainDb)
  let w := 2 * Real.pi * f / fs
  let al := Real.sin w / (2 * q)
  let a0 := 1 + al / a
  { b0 := (1 + al * a) / a0
    b1 := -2 * Real.cos w / a0
    b2 := (1 - al * a) / a0
    a1 := -2 * Real.cos w / a0
    a2 := (1 - al / a) / a0 }

/-- The pre-warped frequency `K = tan(pi*f/fs)` of the cut sections (R172, R173). -/
noncomputable def prewarp (f fs : ℝ) : ℝ := Real.tan (Real.pi * f / fs)

/-- `c = 1 / (1 + sqrt(2)*K + K*K)` (R172, R173). -/
noncomputable def cutScale (k : ℝ) : ℝ := 1 / (1 + Real.sqrt 2 * k + k * k)

/-- `MakeLowCut`'s reference section for the pre-warped frequency `k` (R172). -/
noncomputable def lowCutRef (k : ℝ) : RealCoefs :=
  let c := cutScale k
  { b0 := c
    b1 := -2 * c
    b2 := c
    a1 := 2 * c * (k * k - 1)
    a2 := c * (1 - Real.sqrt 2 * k + k * k) }

/-- `MakeHighCut`'s reference section for the pre-warped frequency `k` (R173). -/
noncomputable def highCutRef (k : ℝ) : RealCoefs :=
  let c := cutScale k
  { b0 := k * k * c
    b1 := 2 * (k * k) * c
    b2 := k * k * c
    a1 := 2 * c * (k * k - 1)
    a2 := c * (1 - Real.sqrt 2 * k + k * k) }

/-- Every coefficient of `c` within `tol` of the reference's. -/
def CoefsNear (tol : ℝ) (c : Coefs) (r : RealCoefs) : Prop :=
  |toReal c.b0 - r.b0| ≤ tol ∧ |toReal c.b1 - r.b1| ≤ tol ∧ |toReal c.b2 - r.b2| ≤ tol ∧
  |toReal c.a1 - r.a1| ≤ tol ∧ |toReal c.a2 - r.a2| ≤ tol

/-- F3 of R175 for one snapshot and rate, `tol` standing for `COEF_TOL`. -/
def FactoryAccurateAt (tol : ℝ) (p : Snapshot) (fs : F) : Prop :=
  CoefsNear tol (factorySection p fs (Config.peakSection p fs))
    (peakRef (toReal p.pkf) (toReal p.pkg) (toReal p.pkq) (toReal fs)) ∧
  CoefsNear tol (factorySection p fs (Config.lowCutSection p fs)) (lowCutRef (prewarp (toReal p.lcf) (toReal fs))) ∧
  CoefsNear tol (factorySection p fs (Config.highCutSection p fs)) (highCutRef (prewarp (toReal p.hcf) (toReal fs)))

/-- F3 of R175. -/
def FactoryAccurate (tol : ℝ) : Prop := ∀ p fs, inBounds p fs = true → FactoryAccurateAt tol p fs

/-! ### The magnitude response (R181) -/

/-- `c0 + c1*e^(-jw) + c2*e^(-2jw)`. -/
noncomputable def polyAt (c0 c1 c2 w : ℝ) : ℂ :=
  (c0 : ℂ) + c1 * Complex.exp (-(w * Complex.I)) + c2 * Complex.exp (-(2 * w * Complex.I))

/-- `Hsec(c)` at the angle `w` (R181). -/
noncomputable def sectionMagnitude (c : RealCoefs) (w : ℝ) : ℝ :=
  ‖polyAt c.b0 c.b1 c.b2 w‖ / ‖polyAt 1 c.a1 c.a2 w‖

/-- The magnitude of a cascade: the product over its sections (R181). -/
noncomputable def cascadeMagnitude (cs : List RealCoefs) (w : ℝ) : ℝ := (cs.map fun c => sectionMagnitude c w).prod

/-- The reference `MagResp` at the frequency `f` (R181): bypassed stages and bypassed slots contribute 1. -/
noncomputable def magRespRef (pub : PerStage StageSet) (pbyp : PerStage Bool) (fs f : F) : ℝ :=
  cascadeMagnitude
    ((audibleSections ⟨enabledSections pub.lc, enabledSections pub.pk, enabledSections pub.hc⟩ pbyp).map realCoefs)
    (2 * Real.pi * toReal f / toReal fs)

/-- A linear magnitude in decibels. -/
noncomputable def decibels (m : ℝ) : ℝ := 20 * Real.logb 10 m

/-- What M1 of R181 allows as the answer where the reference is the positive real `r`: a finite value above zero whose decibels
differ from the reference's by at most `tol`. -/
def MagnitudeWithin (tol r : ℝ) (m : F) : Prop :=
  isFinite m = true ∧ 0 < toReal m ∧ |decibels (toReal m) - decibels r| ≤ tol

/-- M1 of R181 at one point where the reference is a positive real, `tol` standing for `MAGR_TOL_DB`. -/
def MagRespAccurateAt (tol : ℝ) (pub : PerStage StageSet) (pbyp : PerStage Bool) (fs f : F) : Prop :=
  0 < magRespRef pub pbyp fs f → MagnitudeWithin tol (magRespRef pub pbyp fs f) (magResp pub pbyp fs f)

/-- The reference of R181 exists at the frequency `f`: no audible section's denominator is 0 there. -/
def MagRespDefined (pub : PerStage StageSet) (pbyp : PerStage Bool) (fs f : F) : Prop :=
  ∀ c ∈ audibleSections ⟨enabledSections pub.lc, enabledSections pub.pk, enabledSections pub.hc⟩ pbyp,
    polyAt 1 (toReal c.a1) (toReal c.a2) (2 * Real.pi * toReal f / toReal fs) ≠ 0

/-- The other case of M1 at one point: where the reference is 0 the answer is `+0.0`. -/
def MagRespZeroAt (pub : PerStage StageSet) (pbyp : PerStage Bool) (fs f : F) : Prop :=
  MagRespDefined pub pbyp fs f → magRespRef pub pbyp fs f = 0 → magResp pub pbyp fs f = 0x00000000#32

/-- M1 of R181 for every bank, rate and frequency of the band, with the bound R181 sets on `MAGR_TOL_DB`. A positive reference
so small or so large that no finite value is within the tolerance of it is left out: no block could keep M1 there, and a
premise that asked it would be false (log entry 6). -/
def MagRespAccurate (tol : ℝ) : Prop :=
  tol ≤ 1 / 10 ∧
  ∀ pub pbyp fs f, validRate fs = true → inBand f fs = true →
    MagRespZeroAt pub pbyp fs f ∧
    ((∃ x : F, MagnitudeWithin tol (magRespRef pub pbyp fs f) x) → MagRespAccurateAt tol pub pbyp fs f)

/-! ### The spectrum (R218) -/

/-- `X[k]` of a buffer under a window (R218). -/
noncomputable def transformBin (window : ℕ → ℝ) (acc : List F) (k : ℕ) : ℂ :=
  ((acc.zipIdx.map fun e =>
    ((toReal e.1 * window e.2 : ℝ) : ℂ) *
      Complex.exp (-(2 * Real.pi * k * e.2 / acc.length * Complex.I))).sum)

/-- `out[k] = max(20*log10(|X[k]|*NORM), floor)`, the floor where the magnitude is 0 (R218). -/
noncomputable def spectrumRef (window : ℕ → ℝ) (norm : ℝ) (acc : List F) (floor : ℝ) (k : ℕ) : ℝ :=
  let g := ‖transformBin window acc k‖ * norm
  if 0 < g then max (decibels g) floor else floor

/-- The default of `NORM`, `1/NB` (R8, D31). -/
noncomputable def defaultNorm (g : Params) : ℝ := 1 / (g.nb : ℝ)

/-- S3 of R219 for one buffer, floor and bin, `tol` standing for `SPEC_TOL_DB`; `WINDOW` is the open window. -/
def SpectrumAccurateAt (norm tol : ℝ) (n : Nat) (acc : List F) (floor : F) (k : Nat) : Prop :=
  |toReal (spectrumValue n acc floor k) - spectrumRef (fun i => toReal (Config.window i)) norm acc (toReal floor) k| ≤ tol

/-- S3 of R219. -/
def SpectrumAccurate (norm tol : ℝ) (n : Nat) : Prop :=
  ∀ acc floor k, acc.length = n → acc.all isFinite = true → isFinite floor = true → k < n / 2 →
    SpectrumAccurateAt norm tol n acc floor k

/-! ### The path mappings (R226, R227) -/

/-- The reference `MapX(f)` (R226). -/
noncomputable def mapXRef (vx0 vw f : ℝ) : ℝ := vx0 + vw * Real.log (f / 20) / Real.log (20000 / 20)

/-- The reference `MapY(v)` (R227). -/
noncomputable def mapYRef (vyb vyt dbmin dbmax v : ℝ) : ℝ := vyb + (v - dbmin) / (dbmax - dbmin) * (vyt - vyb)

/-- The accuracy of `MapX` at one frequency, `tol` standing for `MAP_TOL` (R226). -/
def MapXAccurateAt (tol : ℝ) (v : ViewRegs) (f : ℚ) : Prop :=
  0 < f → |toReal (mapX v f) - mapXRef (toReal v.vx0) (toReal v.vw) (f : ℝ)| ≤ tol

/-- `MapX` does not decrease with the frequency when `VW > 0` (R226). -/
def MapXMonotone (v : ViewRegs) : Prop :=
  fLt 0#32 v.vw = true → ∀ f g : ℚ, 0 < f → f ≤ g → fLe (mapX v f) (mapX v g) = true

/-- The accuracy of `MapY` at one value, `tol` standing for `MAP_TOL` (R227). -/
def MapYAccurateAt (tol : ℝ) (v : ViewRegs) (d : F) : Prop :=
  fLt v.dbmin v.dbmax = true →
    |toReal (mapY v d) - mapYRef (toReal v.vyb) (toReal v.vyt) (toReal v.dbmin) (toReal v.dbmax) (toReal d)| ≤ tol

end Sys2Proof.Machine
end

