-- ==== Sys2Proof/Machine/Runs.lean ====
section
/-!
DEFINITION. Runs of the block with command streams of any length, finite or infinite (R69, R71, R297). A state holds finite lists of
waiting commands; a run here takes its streams and its order of turns from outside the state, as R20 says they are, and gives the
machine one command at a time (log entry 17). No step uses this file.
-/

namespace Sys2Proof.Machine

/-- The commands of one agent in the order it presents them: command `k`, or nothing from the end of a finite stream on. What an
agent makes of earlier responses shows in the commands it presents (R96). -/
abbrev CommandStream := Nat → Option Packet

/-- A finite stream of `k` commands. -/
def CommandStream.EndsAt (st : CommandStream) (k : Nat) : Prop := (∀ j, j < k → (st j).isSome = true) ∧ st k = none

/-- Where a run stands: how many commands each port's stream has presented, and the state. -/
structure RunPoint where
  pos : PerPort Nat
  state : State
  deriving DecidableEq, Repr

/-- The run goes on from the state a step gave. -/
def continueAt (pos : PerPort Nat) (r : Result) : Host.Outcome RunPoint Fault Refusal :=
  match r with
  | .next t => .next ⟨pos, t⟩
  | .fault f => .fault f
  | .refused x => .refused x

/-- One turn: the agent whose turn it is presents the next command of its stream, and the block executes it; an agent whose stream
is exhausted does nothing; a reset event may take a turn (R280). -/
def runTurn (streams : PerPort CommandStream) (a : Agent) (x : RunPoint) : Host.Outcome RunPoint Fault Refusal :=
  match a with
  | .reset => continueAt x.pos (step { x.state with sched := .reset :: x.state.sched })
  | .port p =>
    match streams.get p (x.pos.get p) with
    | some pk => continueAt (x.pos.set p (x.pos.get p + 1)) (step (presentNext p pk x.state))
    | none => .next x

/-- The run after `n` turns of the order from the state `s`. With no bound on `n` it is the finite or infinite run of R297. -/
def runTo (streams : PerPort CommandStream) (order : Nat → Agent) (s : State) :
    Nat → Host.Outcome RunPoint Fault Refusal
  | 0 => .next ⟨⟨0, 0⟩, s⟩
  | n + 1 =>
    match runTo streams order s n with
    | .next x => runTurn streams (order n) x
    | .fault f => .fault f
    | .refused r => .refused r

/-- Weak fairness between the ports (R71): from every turn on, each port has a turn again. -/
def FairOrder (order : Nat → Agent) : Prop := ∀ (p : Port) (n : Nat), ∃ m, n ≤ m ∧ order m = .port p

end Sys2Proof.Machine
end

