-- ==== Sys2Proof/Machine/Agents.lean ====
section
/-!
DEFINITION. What an agent does with the block: sequences of commands, and the pseudo-instructions of R98 with their loops, which
the agent runs by reading each response (R96). Also the assembler notation of R97. No step uses this file.
-/

namespace Sys2Proof.Machine

/-- The commands of a list in turn, as one agent issues them (R70). -/
def execAll : List Instr → State → Result
  | [], s => .next s
  | i :: is, s =>
    match exec i s with
    | .next t => execAll is t
    | .fault f => .fault f
    | .refused r => .refused r

/-- The code of a response: bits 7:0 of its header (R86). -/
def responseCode (r : Response) : BitVec 8 := r.header.extractLsb' 0 8

/-- The last response on a port. -/
def lastResponse (p : Port) (s : State) : Option Response := (s.out.get p).getLast?

/-- `PR: DRAIN`: `ANLZ` until a response has code `EMPTY`, at most `k` times: its end needs the consumer to be faster than the
producer (R98, R295). -/
def drain : Nat → State → Result
  | 0, s => .next s
  | k + 1, s =>
    match execAnlz s with
    | .next t => if (lastResponse .pr t).map responseCode = some (codeByte .empty) then .next t else drain k t
    | .fault f => .fault f
    | .refused r => .refused r

/-- `PR: POPALL`: `AVAIL` giving `n`, then `n` times `POP` (R98). -/
def popAll (s : State) : Result := execAll (.avail :: List.replicate (ringAvail s) .pop) s

/-- `PR: TICK`: `RFSH`, `DRAIN`, `GENP`, `RDPATH` (R98), the drain bounded by `k`. -/
def tick (k : Nat) (s : State) : Result :=
  match execRfsh s with
  | .next t =>
    match drain k t with
    | .next u => execAll [.genp, .rdpath] u
    | .fault f => .fault f
    | .refused r => .refused r
  | .fault f => .fault f
  | .refused r => .refused r

/-- `RT: BLOCK {x0..x(m-1)}`: `SYNC`, then `PROC` of each sample (R98). -/
def blockCommands (xs : List F) : List Instr := .sync :: xs.map .proc

/-- `ANY: BOOT fs`: `SRATE fs`, then `RFSH` on PR, then `SYNC` on RT (R98, R283). -/
def bootCommands (p : Port) (fs : F) : List Instr := [.srate p fs, .rfsh, .sync]

/-! ### Assembler notation (R97) -/

def hexDigit (n : Nat) : Char :=
  Char.ofNat (if n < 10 then 48 + n else 55 + n)

/-- `0x` and eight hex digits. -/
def hexWord (w : Word) : String :=
  "0x" ++ String.ofList ((List.range 8).map fun i => hexDigit (w.toNat / 16 ^ (7 - i) % 16))

/-- A list in braces, its entries apart by commas. -/
def braced (xs : List String) : String :=
  String.singleton (Char.ofNat 123) ++ ", ".intercalate xs ++ String.singleton (Char.ofNat 125)

def portName : Port → String
  | .rt => "RT"
  | .pr => "PR"

def stageName : Stage → String
  | .lc => "LC"
  | .pk => "PK"
  | .hc => "HC"

def paramName : Param → String
  | .pkf => "PKF"
  | .pkg => "PKG"
  | .pkq => "PKQ"
  | .lcf => "LCF"
  | .hcf => "HCF"
  | .lcs => "LCS"
  | .hcs => "HCS"
  | .lcb => "LCB"
  | .pkb => "PKB"
  | .hcb => "HCB"
  | .aen => "AEN"

def viewName : View → String
  | .vx0 => "VX0"
  | .vw => "VW"
  | .vyb => "VYB"
  | .vyt => "VYT"
  | .dbmin => "DBMIN"
  | .dbmax => "DBMAX"
  | .floor => "FLOOR"

def boolName (v : Bool) : String := if v then "1" else "0"

/-- The value of a `WPAR` as R97 writes it: a bit pattern for the five values of type `F`, a number for the others. -/
def paramValue (pid : Param) (w : Word) : String :=
  match pid with
  | .pkf | .pkg | .pkq | .lcf | .hcf => hexWord w
  | .lcs | .hcs | .lcb | .pkb | .hcb | .aen => toString w.toNat

/-- The mnemonic and operands of a command (R97). -/
def commandText : Instr → String
  | .nop _ => "NOP"
  | .sync => "SYNC"
  | .proc x => "PROC " ++ hexWord x
  | .push blk => "PUSH " ++ braced (blk.map hexWord)
  | .upds st secs =>
    "UPDS " ++ stageName st ++ String.join (secs.map fun c => ", " ++ braced ((sectionWords c).map hexWord))
  | .sbyp st v => "SBYP " ++ stageName st ++ ", " ++ boolName v
  | .wpar _ pid w => "WPAR " ++ paramName pid ++ ", " ++ paramValue pid w
  | .srate _ fs => "SRATE " ++ hexWord fs
  | .ntfy _ => "NTFY"
  | .rfsh => "RFSH"
  | .magr freqs => "MAGR " ++ braced (freqs.map hexWord)
  | .wview vid w => "WVIEW " ++ viewName vid ++ ", " ++ hexWord w
  | .pop => "POP"
  | .avail => "AVAIL"
  | .anlz => "ANLZ"
  | .genp => "GENP"
  | .rdpath => "RDPATH"
  | .rstat _ => "RSTAT"
  | .clrst => "CLRST"

/-- A line of R97: the port, then the command. -/
def asmText (i : Instr) : String := portName i.port ++ ": " ++ commandText i

end Sys2Proof.Machine
end

