-- ==== Sys2Proof/Safety.lean ====
section
/-!
DEFINITION. What counts as a legal state and a safe run of the block: the shape and value invariants of spec/10_state.md (`Inv`),
the form of responses (R86, R250), and the refusal-free real-time port (R258).
-/

namespace Sys2Proof.Machine

/-- A stage set of the right shape whose coefficients are all finite (R16, R23, R25). -/
def SetOk (st : Stage) (g : StageSet) : Prop :=
  g.c.length = slots st ∧ 1 ≤ g.nsec ∧ g.nsec ≤ slots st ∧ ∀ c ∈ g.c, coefsFinite c = true

/-- Every view register is finite (R37). -/
def ViewOk (v : ViewRegs) : Prop :=
  isFinite v.vx0 = true ∧ isFinite v.vw = true ∧ isFinite v.vyb = true ∧ isFinite v.vyt = true ∧
  isFinite v.dbmin = true ∧ isFinite v.dbmax = true ∧ isFinite v.floor = true

/-- A response of the form of R86 with one of the codes of R250: the count is the number of data words, and a refusal carries
none. -/
def ResponseOk (r : Response) : Prop :=
  ∃ c : Code, r.header = respHeader r.data.length c ∧ r.data.length ≤ 65535 ∧
    (2 ≤ (codeByte c).toNat → r.data = [])

/-- The invariant of the block's state. Every clause is about a piece of state the rules bound or shape; each clause's rule is
named. -/
structure Inv (s : State) : Prop where
  /-- the parameters are legal (R8, R9, R37, R79) -/
  cfg : s.cfg.Legal
  /-- the active sets have their shape and are finite (R16, R23) -/
  act : ∀ st, SetOk st (s.act.get st)
  /-- the published sets have their shape and are finite (R16, R25) -/
  pub : ∀ st, SetOk st (s.pub.get st)
  /-- each stage has its section memories (R22) -/
  mem : ∀ st, (s.mem.get st).length = slots st
  /-- `STATUS` bits 31:4 are 0 (R31) -/
  status : s.status.toNat < 16
  /-- `LASTCODE` is 0 or the code of a refusal (R32, R250) -/
  lastcode : s.lastcode = 0#8 ∨ (2 ≤ s.lastcode.toNat ∧ s.lastcode.toNat ≤ 5)
  /-- `W >= R` (R33) -/
  ring : s.r ≤ s.w
  /-- the slots are in canonical form, below `CAP`, each of `L` words (R33) -/
  slot : slotsWf s.cfg.l s.cfg.cap s.slot = true
  /-- `ACC` has `N` words (R34) -/
  acc : s.acc.length = s.cfg.n
  /-- `ACCFILL` is at most `N` (R34) -/
  accfill : s.accfill ≤ s.cfg.n
  /-- `MQ` has at most `MQCAP` entries (R35) -/
  mq : s.mq.length ≤ s.cfg.mqcap
  /-- each entry of `MQ` has `NB` finite values (R35, R219) -/
  mqEntries : ∀ m ∈ s.mq, m.length = s.cfg.nb ∧ ∀ x ∈ m, isFinite x = true
  /-- `LATEST` has `NB` points (R36) -/
  latest : s.latest.length = s.cfg.nb
  /-- every coordinate of `LATEST` is finite (R228) -/
  latestFinite : ∀ q ∈ s.latest, isFinite q.x = true ∧ isFinite q.y = true
  /-- the view registers are finite (R37) -/
  view : ViewOk s.view
  /-- every response produced has the form of R86 -/
  out : ∀ p, ∀ r ∈ s.out.get p, ResponseOk r

/-- A command that R258 says always ends with `OK` on the RT port. -/
def rtOkCommand : Instr → Bool
  | .sync | .proc _ | .push _ => true
  | .nop .rt | .wpar .rt _ _ | .srate .rt _ | .ntfy .rt | .rstat .rt => true
  | .nop .pr | .wpar .pr _ _ | .srate .pr _ | .ntfy .pr | .rstat .pr => false
  | .upds _ _ | .sbyp _ _ | .rfsh | .magr _ | .wview _ _ | .pop | .avail | .anlz | .genp | .rdpath | .clrst => false

/-- The RT agent sends only well-formed packets of the commands of R258, and every response on the RT port so far is `OK`. -/
def RtClean (s : State) : Prop :=
  (∀ pk ∈ s.inq.rt, ∃ i : Instr, rtOkCommand i = true ∧ i.WF s.cfg.l ∧ pk = encode i) ∧
  (∀ r ∈ s.out.rt, r.header.extractLsb' 0 8 = codeByte .ok)

/-- A state from which the next step neither faults nor refuses: the block has no stuck state and no halt (R257). -/
def Completes (s : State) : Prop := ∃ t, step s = .next t

/-! ### The vocabulary of the statements -/

/-- The state after one more response, its header and data words given outright, on port `p` (R86); nothing else changes. -/
def answered (p : Port) (hdr : Word) (ws : List Word) (s : State) : State :=
  { s with out := s.out.set p (s.out.get p ++ [⟨hdr, ws⟩]) }

/-- The state after a refusal with the given code and status bit, for a command with the header `hdr`: the three writes of R254
and a response with no data; nothing else changes. -/
def refusedWith (p : Port) (code : Nat) (flag : Word) (hdr : Word) (s : State) : State :=
  answered p (BitVec.ofNat 32 code) []
    { s with
      status := s.status ||| flag
      lastcode := BitVec.ofNat 8 code
      lasterr := hdr }

/-- Bits 31:24 of a header as a number (R81). -/
def opcode (h : Word) : Nat := h.toNat / 2 ^ 24

/-- The opcodes of R90 by port class. -/
def anyPortOpcodes : List Nat := [0x00, 0x12, 0x13, 0x14, 0x30]

def rtOnlyOpcodes : List Nat := [0x01, 0x02, 0x03]

def prOnlyOpcodes : List Nat := [0x10, 0x11, 0x15, 0x16, 0x17, 0x20, 0x21, 0x22, 0x23, 0x24, 0x31]

/-- The port may issue the opcode (R261). -/
def Issuable (o : Nat) (p : Port) : Prop :=
  o ∈ anyPortOpcodes ∨ (p = .rt ∧ o ∈ rtOnlyOpcodes) ∨ (p = .pr ∧ o ∈ prOnlyOpcodes)

/-- A field that the header's format does not use, or `rsv`, is not zero, in the words of R91. -/
def UnusedFieldSet (h : Word) : Prop :=
  (opcode h = 0x10 ∧ h.toNat % 2 ^ 20 ≠ 0) ∨
  (opcode h = 0x11 ∧ (h.toNat / 2 ^ 20 % 4 ≠ 0 ∨ h.toNat % 2 ^ 19 ≠ 0)) ∨
  (opcode h ∈ [0x12, 0x16, 0x17] ∧ h.toNat / 2 ^ 16 % 2 ^ 8 ≠ 0) ∨
  (opcode h ∈ [0x00, 0x01, 0x02, 0x03, 0x13, 0x14, 0x15, 0x20, 0x21, 0x22, 0x23, 0x24, 0x30, 0x31] ∧
    h.toNat % 2 ^ 24 ≠ 0)

/-- An operand, in the header or the payload, has a value that R93 reserves. -/
def ReservedOperand (pk : Packet) : Prop :=
  let n := pk.header.toNat
  (opcode pk.header = 0x10 ∧ (n / 2 ^ 22 % 4 = 3 ∨ (n / 2 ^ 22 % 4 = 1 ∧ n / 2 ^ 20 % 4 ≠ 0))) ∨
  (opcode pk.header = 0x11 ∧ n / 2 ^ 22 % 4 = 3) ∨
  (opcode pk.header = 0x12 ∧ 10 < n % 2 ^ 16) ∨
  (opcode pk.header = 0x17 ∧ 6 < n % 2 ^ 16) ∨
  (opcode pk.header = 0x12 ∧ 7 ≤ n % 2 ^ 16 ∧ n % 2 ^ 16 ≤ 10 ∧ ∃ w : Word, pk.payload = [w] ∧ 1 < w.toNat)

/-- The payload length a header implies, by opcode (R83). -/
def impliedLength (l : Nat) (h : Word) : Nat :=
  if opcode h = 0x03 then l
  else if opcode h = 0x10 then 5 * (h.toNat / 2 ^ 20 % 4 + 1)
  else if opcode h = 0x16 then h.toNat % 2 ^ 16
  else if opcode h ∈ [0x02, 0x12, 0x13, 0x17] then 1
  else 0

/-- A parameter register as a word (R27). -/
def readParam (pid : Param) (p : Snapshot) : Word :=
  match pid with
  | .pkf => p.pkf
  | .pkg => p.pkg
  | .pkq => p.pkq
  | .lcf => p.lcf
  | .hcf => p.hcf
  | .lcs => p.lcs
  | .hcs => p.hcs
  | .lcb => if p.lcb then 1#32 else 0#32
  | .pkb => if p.pkb then 1#32 else 0#32
  | .hcb => if p.hcb then 1#32 else 0#32
  | .aen => if p.aen then 1#32 else 0#32

/-- A view register (R37). -/
def readView (vid : View) (v : ViewRegs) : F :=
  match vid with
  | .vx0 => v.vx0
  | .vw => v.vw
  | .vyb => v.vyb
  | .vyt => v.vyt
  | .dbmin => v.dbmin
  | .dbmax => v.dbmax
  | .floor => v.floor

/-- A valid sample rate by its value: finite and positive (R28). -/
def RateValid (fs : F) : Prop := isFinite fs = true ∧ 0 < fInt fs

/-- A finite value between two whole numbers, by its exact value. -/
def ValueWithin (lo hi : Int) (x : F) : Prop :=
  isFinite x = true ∧ lo * 2 ^ 149 ≤ fInt x ∧ fInt x ≤ hi * 2 ^ 149

/-- Every parameter within its bounds of R27, by its exact value, and `2*20000 < fs`: the premise of F3 and F4 (R175). -/
def ParametersInBounds (p : Snapshot) (fs : F) : Prop :=
  ValueWithin 20 20000 p.pkf ∧ ValueWithin (-24) 24 p.pkg ∧
  (isFinite p.pkq = true ∧ 2 ^ 149 ≤ 10 * fInt p.pkq ∧ fInt p.pkq ≤ 10 * 2 ^ 149) ∧
  ValueWithin 20 20000 p.lcf ∧ ValueWithin 20 20000 p.hcf ∧
  p.lcs.toNat ≤ 3 ∧ p.hcs.toNat ≤ 3 ∧ isFinite fs = true ∧ 40000 * 2 ^ 149 < fInt fs

/-- The header of a successful response with `n` data words (R86). -/
def okHeader (n : Nat) : Word := BitVec.ofNat 32 (2 ^ 16 * n)

/-- A section step as R112 writes it, in the order and association written there; each operation may use any NaN draw (R12). -/
def SectionStep (c : Coefs) (m : SecMem) (v y : F) (m' : SecMem) : Prop :=
  ∃ k0 k1 k2 k3 k4 k5 k6 k7 k8 : Nat,
    y = fadd k1 (fmul k0 c.b0 v) m.s1 ∧
    m'.s1 = fadd k5 (fsub k4 (fmul k2 c.b1 v) (fmul k3 c.a1 y)) m.s2 ∧
    m'.s2 = fsub k8 (fmul k6 c.b2 v) (fmul k7 c.a2 y)

/-- Sections in slot order, one memory each; the memories beyond the sections stay as they are (R113). -/
def SectionsStep : List Coefs → List SecMem → F → F → List SecMem → Prop
  | [], ms, v, y, ms' => y = v ∧ ms' = ms
  | c :: cs, m :: ms, v, y, m' :: ms' => ∃ u, SectionStep c m v u m' ∧ SectionsStep cs ms u y ms'
  | _ :: _, _, _, _, _ => False

/-- A stage on one sample: a bypassed stage is a wire (R114); any other runs its enabled sections (R113). -/
def StageRuns (byp : Bool) (g : StageSet) (ms : List SecMem) (v y : F) (ms' : List SecMem) : Prop :=
  if byp then y = v ∧ ms' = ms else SectionsStep (g.c.take g.nsec) ms v y ms'

/-- The shape of a stage set (R16). -/
def SetShape (st : Stage) (g : StageSet) : Prop :=
  g.c.length = slots st ∧ 1 ≤ g.nsec ∧ g.nsec ≤ slots st

/-- The shape F2 of R175 gives a stage set with `n` sections: all of them equal, `ID` in the slots beyond. -/
def FactoryShape (st : Stage) (n : Nat) (g : StageSet) : Prop :=
  g.nsec = n ∧ ∃ c : Coefs,
    g.c = List.replicate n c ++ List.replicate (slots st - n) ⟨0x3F800000#32, 0#32, 0#32, 0#32, 0#32⟩

/-- A coefficient of one of the enabled sections is a NaN or an infinity. -/
def HasNonFinite (g : StageSet) : Prop := ∃ c ∈ g.c.take g.nsec, coefsFinite c = false

/-- Every piece of state of R20 at its value of R40, for the parameters `g`. -/
structure ResetValues (g : Params) (t : State) : Prop where
  mem : t.mem = ⟨List.replicate 4 ⟨0#32, 0#32⟩, [⟨0#32, 0#32⟩], List.replicate 4 ⟨0#32, 0#32⟩⟩
  act : t.act =
    ⟨⟨1, List.replicate 4 ⟨0x3F800000#32, 0#32, 0#32, 0#32, 0#32⟩⟩, ⟨1, [⟨0x3F800000#32, 0#32, 0#32, 0#32, 0#32⟩]⟩,
      ⟨1, List.replicate 4 ⟨0x3F800000#32, 0#32, 0#32, 0#32, 0#32⟩⟩⟩
  pub : t.pub = t.act
  byp : t.abyp = ⟨true, true, true⟩ ∧ t.pbyp = ⟨true, true, true⟩
  param : t.param =
    ⟨0x443B8000#32, 0#32, 0x3F800000#32, 0x41A00000#32, 0x469C4000#32, 0#32, 0#32, true, true, true, true⟩
  rate : t.fs = 0#32
  flags : t.chg = false ∧ t.laen = true
  record : t.status = 0#32 ∧ t.lastcode = 0#8 ∧ t.lasterr = 0#32
  ring : t.w = 0 ∧ t.r = 0 ∧ ∀ j, slotRead t j = List.replicate g.l 0#32
  analyzer : t.acc = List.replicate g.n 0#32 ∧ t.accfill = 0 ∧ t.mq = []
  path : t.havepath = false ∧ t.latest = List.replicate g.nb ⟨0#32, 0#32⟩
  view : t.view = ⟨0#32, 0x3F800000#32, 0#32, 0x3F800000#32, g.dbminReset, g.dbmaxReset, g.floorReset⟩
  cfg : t.cfg = g

/-- An edit: a command whose effect is to write a parameter or the sample rate, or only to set `CHG` (R150). -/
def isEdit : Instr → Bool
  | .wpar _ _ _ | .srate _ _ | .ntfy _ => true
  | .nop _ | .sync | .proc _ | .push _ | .upds _ _ | .sbyp _ _ | .rfsh | .magr _ | .wview _ _ | .pop | .avail
  | .anlz | .genp | .rdpath | .rstat _ | .clrst => false

end Sys2Proof.Machine
end

