-- ==== Sys2Proof/Certificates/Slice0/Obligations.lean ====
section
/-!
DEFINITION. The statements for the provers. A refusal is written out as `refusedWith port code flag header state` and a response
as `answered port header words state` (Safety.lean): the codes, flags and headers are the spec's own numbers.
-/

section Statements

open Sys2Proof Sys2Proof.Machine

/-! ### Encoding (spec/30_encoding.md) -/

/-- R80 to R85, R97: decoding reads every well-formed command back from its packet, on its port, for every block length. -/
def Obligations.DecodeOfEncode : Prop :=
  ∀ (l : Nat) (i : Instr), i.WF l → decode l i.port (encode i) = .ok i

/-- R80 to R93: a packet that decodes is exactly the packet of the command it decodes to, which is well formed and belongs to that
port: no bit of a packet is ignored. -/
def Obligations.EncodeOfDecode : Prop :=
  ∀ (l : Nat) (p : Port) (pk : Packet) (i : Instr),
    decode l p pk = .ok i → encode i = pk ∧ i.port = p ∧ i.WF l

/-- R89: no header matches the mask and match of two rows of R90. -/
def Obligations.AtMostOneRowMatches : Prop :=
  ∀ (h : Word) (a b : Op), h &&& opMask a = opMatch a → h &&& opMask b = opMatch b → a = b

/-- R99: the worked encodings of the commands, word for word, with the default block length. -/
def Obligations.SpecWordsDecode : Prop :=
  decode 4096 .pr ⟨0x10400000#32, [0x3F000000#32, 0x3E800000#32, 0x3E000000#32, 0xBF000000#32, 0x3E800000#32]⟩ =
    .ok (.upds .pk [⟨0x3F000000#32, 0x3E800000#32, 0x3E000000#32, 0xBF000000#32, 0x3E800000#32⟩]) ∧
  (∀ c0 c1 c2 c3 : Coefs,
    decode 4096 .pr ⟨0x10B00000#32, sectionsWords [c0, c1, c2, c3]⟩ = .ok (.upds .hc [c0, c1, c2, c3])) ∧
  decode 4096 .pr ⟨0x11080000#32, []⟩ = .ok (.sbyp .lc true) ∧
  decode 4096 .pr ⟨0x11400000#32, []⟩ = .ok (.sbyp .pk false) ∧
  decode 4096 .pr ⟨0x11880000#32, []⟩ = .ok (.sbyp .hc true) ∧
  decode 4096 .pr ⟨0x12000001#32, [0x40C00000#32]⟩ = .ok (.wpar .pr .pkg 0x40C00000#32) ∧
  decode 4096 .pr ⟨0x12000005#32, [0x00000002#32]⟩ = .ok (.wpar .pr .lcs 0x00000002#32) ∧
  decode 4096 .rt ⟨0x02000000#32, [0x3F800000#32]⟩ = .ok (.proc 0x3F800000#32) ∧
  decode 4096 .pr ⟨0x16000003#32, [0x447A0000#32, 0x41A00000#32, 0x469C4000#32]⟩ =
    .ok (.magr [0x447A0000#32, 0x41A00000#32, 0x469C4000#32]) ∧
  decode 4096 .pr ⟨0x17000006#32, [0xC2400000#32]⟩ = .ok (.wview .floor 0xC2400000#32)

/-- R62: a word travels as four bytes, the least significant first, and a packet is read back from its bytes. -/
def Obligations.WordsTravelLeastByteFirst : Prop :=
  (∀ w : Word, (wordBytes w).map BitVec.toNat =
    [w.toNat % 256, w.toNat / 2 ^ 8 % 256, w.toNat / 2 ^ 16 % 256, w.toNat / 2 ^ 24]) ∧
  ∀ pk : Packet, packetOfBytes (packetBytes pk) = some pk

/-- R92: a packet whose opcode lies in one of the four reserved ranges ends with `ILLEGAL_COMMAND` on either port, whatever the
rest of it is; and no command but `NOP` has no effect in every state. -/
def Obligations.ReservedOpcodesAreIllegal : Prop :=
  (∀ (s : State) (p : Port) (pk : Packet), nextEvent s = .command p pk →
    (0x04 ≤ opcode pk.header ∧ opcode pk.header ≤ 0x0F) ∨ (0x18 ≤ opcode pk.header ∧ opcode pk.header ≤ 0x1F) ∨
      (0x25 ≤ opcode pk.header ∧ opcode pk.header ≤ 0x2F) ∨ (0x32 ≤ opcode pk.header ∧ opcode pk.header ≤ 0xFF) →
    step s = .next (refusedWith p 4 0x4#32 pk.header (accept p s))) ∧
  ∀ i : Instr, (∀ s, exec i s = .next (answered i.port 0x00000000#32 [] s)) → ∃ p, i = .nop p

/-- R260, R261: on the wrong port a known command ends with `PORT_VIOLATION` and changes only the status registers; no other packet
is refused for its port. -/
def Obligations.WrongPortIsRefused : Prop :=
  (∀ (s : State) (p : Port) (pk : Packet), nextEvent s = .command p pk →
    (p = .pr ∧ opcode pk.header ∈ rtOnlyOpcodes) ∨ (p = .rt ∧ opcode pk.header ∈ prOnlyOpcodes) →
    step s = .next (refusedWith p 5 0x8#32 pk.header (accept p s))) ∧
  ∀ (l : Nat) (p : Port) (pk : Packet), decode l p pk = .error .wrongPort ↔
    (p = .pr ∧ opcode pk.header ∈ rtOnlyOpcodes) ∨ (p = .rt ∧ opcode pk.header ∈ prOnlyOpcodes)

/-- R91: a known command, on a port that may issue it, with a field its format does not use (or `rsv`) not zero ends with
`ILLEGAL_COMMAND`. -/
def Obligations.UnusedFieldsMustBeZero : Prop :=
  ∀ (s : State) (p : Port) (pk : Packet), nextEvent s = .command p pk →
    Issuable (opcode pk.header) p → UnusedFieldSet pk.header →
    step s = .next (refusedWith p 4 0x4#32 pk.header (accept p s))

/-- R93: the reserved operand values end the command with `ILLEGAL_COMMAND`; an out-of-range slope is stored by `WPAR` and refused
by the next `RFSH` that finds an edit. -/
def Obligations.ReservedOperandsAreIllegal : Prop :=
  (∀ (s : State) (p : Port) (pk : Packet), nextEvent s = .command p pk →
    Issuable (opcode pk.header) p → ReservedOperand pk →
    step s = .next (refusedWith p 4 0x4#32 pk.header (accept p s))) ∧
  (∀ (s : State) (p : Port) (w : Word), 3 < w.toNat → nextEvent s = .command p ⟨0x12000005#32, [w]⟩ →
    step s = .next (answered p 0x00000000#32 []
      { accept p s with param := { s.param with lcs := w }, chg := true })) ∧
  (∀ (s : State) (p : Port) (w : Word), 3 < w.toNat → nextEvent s = .command p ⟨0x12000006#32, [w]⟩ →
    step s = .next (answered p 0x00000000#32 []
      { accept p s with param := { s.param with hcs := w }, chg := true })) ∧
  ∀ s : State, s.chg = true → 3 < s.param.lcs.toNat ∨ 3 < s.param.hcs.toNat →
    exec .rfsh s = .next (refusedWith .pr 2 0x1#32 0x15000000#32 { s with chg := false })

/-- R87: a packet whose payload length differs from the one its header implies ends with `ILLEGAL_COMMAND`; the length is the
reason exactly when the opcode, the port, the unused fields and the operands have passed. -/
def Obligations.WrongPayloadLengthIsIllegal : Prop :=
  (∀ (s : State) (p : Port) (pk : Packet), nextEvent s = .command p pk →
    Issuable (opcode pk.header) p → pk.payload.length ≠ impliedLength s.cfg.l pk.header →
    step s = .next (refusedWith p 4 0x4#32 pk.header (accept p s))) ∧
  ∀ (l : Nat) (p : Port) (pk : Packet), decode l p pk = .error .wrongLength ↔
    Issuable (opcode pk.header) p ∧ ¬UnusedFieldSet pk.header ∧ ¬ReservedOperand pk ∧
      pk.payload.length ≠ impliedLength l pk.header

/-- R94: whatever makes a command illegal, the only state it writes is the record of the refusal: a packet either decodes, or is
refused for its port, or leaves just that record. -/
def Obligations.IllegalCommandWritesOnlyTheRecord : Prop :=
  ∀ (s : State) (p : Port) (pk : Packet), nextEvent s = .command p pk →
    (∃ i, decode s.cfg.l p pk = .ok i) ∨
    (p = .pr ∧ opcode pk.header ∈ rtOnlyOpcodes) ∨ (p = .rt ∧ opcode pk.header ∈ prOnlyOpcodes) ∨
    step s = .next (refusedWith p 4 0x4#32 pk.header (accept p s))

/-! ### The execution order (spec/20_memory.md) -/

/-- R21, R70: when the packet at the head of the stream decodes, the step is that command's meaning, run in the state in which the
packet is off its stream and one turn is counted; `presentNext` makes a packet the next one; and a word of the opcode table that
decodes to a command, placed as the next command after reset (log entries 2 and 10), is run as that command by the very next step. -/
def Obligations.StepRunsTheDecodedCommand : Prop :=
  (∀ (s : State) (p : Port) (pk : Packet) (i : Instr), nextEvent s = .command p pk → decode s.cfg.l p pk = .ok i →
    step s = exec i (accept p s) ∧
    s.inq.get p = pk :: (accept p s).inq.get p ∧ (accept p s).inq.get p.other = s.inq.get p.other ∧
    accept p s = { s with inq := (accept p s).inq, sched := s.sched.tail, turn := s.turn + 1 }) ∧
  (∀ (s : State) (p : Port) (pk : Packet), nextEvent (presentNext p pk s) = .command p pk) ∧
  ∀ (nbits w : Nat) (i : Instr), decodeTableWord nbits w = some i →
    step (State.reset.withFetchWord nbits w) = exec i { State.reset with turn := 1 }

/-- R69, R70, R71: a scheduled port presents the head of its own stream; a port with nothing left gives way to the other, so that
neither waits; with no schedule some waiting command is served; with no command and no reset nothing happens. The schedule is the
model's own field (log entry 2). -/
def Obligations.ScheduleChoosesThePort : Prop :=
  (∀ (s : State) (p : Port) (ag : List Agent) (pk : Packet) (rest : List Packet),
    s.sched = .port p :: ag → s.inq.get p = pk :: rest → nextEvent s = .command p pk) ∧
  (∀ (s : State) (p : Port) (ag : List Agent) (pk : Packet) (rest : List Packet),
    s.sched = .port p :: ag → s.inq.get p = [] → s.inq.get p.other = pk :: rest →
    nextEvent s = .command p.other pk) ∧
  (∀ s : State, s.sched = [] → s.inq ≠ ⟨[], []⟩ →
    ∃ p pk rest, s.inq.get p = pk :: rest ∧ nextEvent s = .command p pk) ∧
  ∀ s : State, s.inq = ⟨[], []⟩ → (∀ ag, s.sched ≠ .reset :: ag) → step s = .next { s with sched := s.sched.tail }

/-- R21, R70, R86, R257: any number of steps is carried out; on each port the commands executed are a prefix of its stream, and each
has added exactly one response after the ones before it. The steps may include reset events; that the packets not yet presented and the
responses already produced survive them is the model's reading (log entry 9). -/
def Obligations.EveryCommandIsAnswered : Prop :=
  ∀ (k : Nat) (s : State), ∃ t : State, Host.Core.run Sys2Proof.core k s = .next t ∧
    ∀ p : Port, ∃ (n : Nat) (new : List Response), n ≤ k ∧ n ≤ (s.inq.get p).length ∧
      t.inq.get p = (s.inq.get p).drop n ∧ t.out.get p = s.out.get p ++ new ∧ new.length = n

/-- R71, R297: finite streams have only finite runs: after as many steps as there are turns and commands left, both streams are
exhausted, and no later step changes anything. For streams and orders of any length, infinite ones included (log entry 17), a run never
stops: after any number of turns there is a next state, with one response on each port for each command presented. Under a fair order
every command of a stream is executed, and once two finite streams are exhausted the state stays as it is. That responses and streams
survive the reset events an order may hold is the model's reading (log entry 9). -/
def Obligations.RunsEndWithStreamsExhausted : Prop :=
  (∀ (s : State) (k : Nat), s.sched.length + s.inq.rt.length + s.inq.pr.length ≤ k →
    ∃ t : State, Host.Core.run Sys2Proof.core k s = .next t ∧ t.inq = ⟨[], []⟩ ∧ t.sched = [] ∧ step t = .next t) ∧
  (∀ (g : Params) (streams : PerPort CommandStream) (order : Nat → Agent) (n : Nat),
    ∃ x : RunPoint, runTo streams order (State.resetWith g) n = .next x ∧ x.state.inq = ⟨[], []⟩ ∧ x.state.sched = [] ∧
      ∀ p : Port, (x.state.out.get p).length = x.pos.get p ∧ ∀ k, k < x.pos.get p → (streams.get p k).isSome = true) ∧
  (∀ (g : Params) (streams : PerPort CommandStream) (order : Nat → Agent) (p : Port) (k : Nat), FairOrder order →
    (∀ j, j ≤ k → (streams.get p j).isSome = true) →
    ∃ (n : Nat) (x : RunPoint), runTo streams order (State.resetWith g) n = .next x ∧ k < x.pos.get p) ∧
  ∀ (g : Params) (streams : PerPort CommandStream) (order : Nat → Agent) (a b : Nat), FairOrder order →
    (∀ n, order n ≠ .reset) → streams.rt.EndsAt a → streams.pr.EndsAt b →
    ∃ (n : Nat) (t : State), ∀ m, n ≤ m → runTo streams order (State.resetWith g) m = .next ⟨⟨a, b⟩, t⟩

/-! ### System commands (spec/45_system.md) -/

/-- R240, R241, R242: `NOP` reads and writes no state, `RSTAT` returns the three status registers and clears nothing, `CLRST` clears
them and nothing else; each with its encoding, its port rights and its worked examples. -/
def Obligations.SystemCommands : Prop :=
  (∀ (l : Nat) (p : Port), decode l p ⟨0x00000000#32, []⟩ = .ok (.nop p) ∧
    decode l p ⟨0x30000000#32, []⟩ = .ok (.rstat p) ∧ decode l .pr ⟨0x31000000#32, []⟩ = .ok .clrst) ∧
  (∀ (p : Port) (s : State), exec (.nop p) s = .next (answered p 0x00000000#32 [] s)) ∧
  (∀ (s : State) (p : Port) (pk : Packet), nextEvent s = .command p pk → opcode pk.header = 0x00 →
    pk.header ≠ 0x00000000#32 ∨ pk.payload ≠ [] →
    step s = .next (refusedWith p 4 0x4#32 pk.header (accept p s))) ∧
  (∀ (p : Port) (s : State), exec (.rstat p) s =
    .next (answered p 0x00030000#32 [s.status, s.lastcode.setWidth 32, s.lasterr] s)) ∧
  exec (.rstat .pr) State.reset = .next (answered .pr 0x00030000#32 [0x0#32, 0x0#32, 0x0#32] State.reset) ∧
  (∀ c : Coefs, isNaN c.b0 = true ∨ isNaN c.b1 = true ∨ isNaN c.b2 = true ∨ isNaN c.a1 = true ∨ isNaN c.a2 = true →
    ∃ t, execAll [.upds .pk [c], .rstat .pr] State.reset = .next t ∧
      lastResponse .pr t = some ⟨0x00030000#32, [0x00000002#32, 0x00000003#32, 0x10400000#32]⟩) ∧
  (∀ s : State, exec .clrst s =
    .next (answered .pr 0x00000000#32 [] { s with status := 0x0#32, lastcode := 0x0#8, lasterr := 0x0#32 })) ∧
  ∀ (s : State) (pl : List Word), nextEvent s = .command .rt ⟨0x31000000#32, pl⟩ →
    step s = .next (refusedWith .rt 5 0x8#32 0x31000000#32 (accept .rt s))

/-! ### Parameters (spec/42_parameters_factory.md) -/

/-- R151: `WPAR` writes the payload word to the one register `pid` names and sets `CHG`, on either port; a `pid` above 10, or a
boolean payload other than 0 or 1, is illegal and changes neither the register nor `CHG`. -/
def Obligations.WparWritesOneRegister : Prop :=
  (∀ pid : Param, [Param.pkf, .pkg, .pkq, .lcf, .hcf, .lcs, .hcs, .lcb, .pkb, .hcb, .aen][paramId pid]? = some pid) ∧
  (∀ (l : Nat) (p : Port) (pid : Param) (w : Word), (7 ≤ paramId pid → w = 0x0#32 ∨ w = 0x1#32) →
    decode l p ⟨BitVec.ofNat 32 (0x12000000 + paramId pid), [w]⟩ = .ok (.wpar p pid w)) ∧
  (∀ (p : Port) (pid : Param) (w : Word) (s : State), (7 ≤ paramId pid → w = 0x0#32 ∨ w = 0x1#32) →
    ∃ q : Snapshot,
      exec (.wpar p pid w) s = .next (answered p 0x00000000#32 [] { s with param := q, chg := true }) ∧
      readParam pid q = w ∧ ∀ other, other ≠ pid → readParam other q = readParam other s.param) ∧
  ∀ (s : State) (p : Port) (pk : Packet), nextEvent s = .command p pk → opcode pk.header = 0x12 →
    10 < pk.header.toNat % 2 ^ 16 ∨
      (7 ≤ pk.header.toNat % 2 ^ 16 ∧ ∃ w : Word, pk.payload = [w] ∧ w ≠ 0x0#32 ∧ w ≠ 0x1#32) →
    step s = .next (refusedWith p 4 0x4#32 pk.header (accept p s))

/-- R154, R156: `SRATE` stores any rate, valid or not, and sets `CHG`; `NTFY` sets `CHG` and nothing else; both on either port. -/
def Obligations.SrateAndNtfySetChanged : Prop :=
  (∀ (l : Nat) (p : Port) (fs : F), decode l p ⟨0x13000000#32, [fs]⟩ = .ok (.srate p fs) ∧
    decode l p ⟨0x14000000#32, []⟩ = .ok (.ntfy p)) ∧
  (∀ (p : Port) (fs : F) (s : State),
    exec (.srate p fs) s = .next (answered p 0x00000000#32 [] { s with fs := fs, chg := true })) ∧
  ∀ (p : Port) (s : State), exec (.ntfy p) s = .next (answered p 0x00000000#32 [] { s with chg := true })

/-- R160: without an edit `RFSH` reports 0 and does nothing, even when the rate or a slope is invalid (R255). -/
def Obligations.RefreshWithoutEditDoesNothing : Prop :=
  (∀ l : Nat, decode l .pr ⟨0x15000000#32, []⟩ = .ok .rfsh) ∧
  ∀ s : State, s.chg = false → exec .rfsh s = .next (answered .pr 0x00010000#32 [0x00000000#32] s)

/-- R162: with an edit pending and an invalid rate or slope index, `RFSH` ends with `INVALID_CONFIGURATION`, records it, clears `CHG`
and publishes nothing; the next `RFSH` does nothing, and a new `SRATE` or `WPAR` of a slope is an edit again. -/
def Obligations.RefreshRefusesBadConfiguration : Prop :=
  ∀ s : State, s.chg = true → ¬RateValid s.fs ∨ 3 < s.param.lcs.toNat ∨ 3 < s.param.hcs.toNat →
    ∃ t : State, exec .rfsh s = .next t ∧
      t = answered .pr 0x00000002#32 []
        { s with
          chg := false
          status := s.status ||| 0x1#32
          lastcode := 0x2#8
          lasterr := 0x15000000#32 } ∧
      exec .rfsh t = .next (answered .pr 0x00010000#32 [0x00000000#32] t) ∧
      (∀ (p : Port) (fs : F), ∃ u, exec (.srate p fs) t = .next u ∧ u.chg = true) ∧
      ∀ (p : Port) (w : Word), (∃ u, exec (.wpar p .lcs w) t = .next u ∧ u.chg = true) ∧
        ∃ u, exec (.wpar p .hcs w) t = .next u ∧ u.chg = true

/-- From R160, R163, R167, R170, R176 and F1, F2, F4 of R175: three factory sets, functions of the snapshot and the rate alone, of the
shape of F2; each stage whose set is finite is published whole, a stage whose set is not keeps its last valid one and is reported and
recorded, and the bypass flags and `LAEN` are published either way. Within the parameter bounds no set is rejected. That the enabled
sections of a cut stage are equal also outside the bounds is the model's reading of F2 (log entry 5). -/
def Obligations.RefreshPublishesStageByStage : Prop :=
  ∃ make : Snapshot → F → PerStage StageSet,
    (∀ (q : Snapshot) (fs : F), q.lcs.toNat ≤ 3 → q.hcs.toNat ≤ 3 →
      FactoryShape .lc (q.lcs.toNat + 1) (make q fs).lc ∧ FactoryShape .pk 1 (make q fs).pk ∧
      FactoryShape .hc (q.hcs.toNat + 1) (make q fs).hc) ∧
    (∀ (q : Snapshot) (fs : F), ParametersInBounds q fs → ∀ st, ¬HasNonFinite ((make q fs).get st)) ∧
    ∀ (s : State) (rej : PerStage Bool), s.chg = true → RateValid s.fs → s.param.lcs.toNat ≤ 3 → s.param.hcs.toNat ≤ 3 →
      (∀ st, rej.get st = true ↔ HasNonFinite ((make s.param s.fs).get st)) →
      exec .rfsh s = .next (answered .pr 0x00010000#32
        [BitVec.ofNat 32 (1 + 2 * rej.lc.toNat + 4 * rej.pk.toNat + 8 * rej.hc.toNat)]
        { s with
          chg := false
          pub :=
            ⟨if rej.lc then s.pub.lc else (make s.param s.fs).lc,
             if rej.pk then s.pub.pk else (make s.param s.fs).pk,
             if rej.hc then s.pub.hc else (make s.param s.fs).hc⟩
          pbyp := ⟨s.param.lcb, s.param.pkb, s.param.hcb⟩
          laen := s.param.aen
          status := if rej.lc || rej.pk || rej.hc then s.status ||| 0x2#32 else s.status
          lastcode := if rej.lc || rej.pk || rej.hc then 0x3#8 else s.lastcode
          lasterr := if rej.lc || rej.pk || rej.hc then 0x15000000#32 else s.lasterr })

/-- R75, R165: after any edits from either port, in any number, the next `RFSH` clears `CHG`, and the one after it reports 0 and does
nothing: one recomputation for the whole batch. -/
def Obligations.EditsCoalesce : Prop :=
  ∀ (edits : List Instr) (s : State), edits ≠ [] → (∀ i ∈ edits, isEdit i = true) →
    ∃ t u : State, execAll edits s = .next t ∧ t.chg = true ∧
      t = { s with param := t.param, fs := t.fs, chg := true, out := t.out } ∧
      exec .rfsh t = .next u ∧ u.chg = false ∧
      exec .rfsh u = .next (answered .pr 0x00010000#32 [0x00000000#32] u)

/-- R283: the boot sequence with in-bounds parameters: the rate is stored, the refresh reports 1 with no rejected stage, and after
`SYNC` the datapath uses the published finite sets of the slopes' section counts and the bypass flags of the parameters. -/
def Obligations.BootPutsTheFilterInForce : Prop :=
  ∀ (s : State) (p : Port) (fs : F), ParametersInBounds s.param fs →
    ∃ t : State, execAll (bootCommands p fs) s = .next t ∧ t.fs = fs ∧ t.chg = false ∧
      lastResponse .pr t = some ⟨0x00010000#32, [0x00000001#32]⟩ ∧
      lastResponse .rt t = some ⟨0x00000000#32, []⟩ ∧
      t.act = t.pub ∧ (∀ st, SetOk st (t.act.get st)) ∧
      t.act.lc.nsec = s.param.lcs.toNat + 1 ∧ t.act.pk.nsec = 1 ∧ t.act.hc.nsec = s.param.hcs.toNat + 1 ∧
      t.abyp = ⟨s.param.lcb, s.param.pkb, s.param.hcb⟩ ∧ t.status = s.status

/-- R180: `MAGR` without a valid rate ends with `INVALID_CONFIGURATION`. -/
def Obligations.MagrNeedsAValidRate : Prop :=
  ∀ (s : State) (freqs : List F), ¬RateValid s.fs → freqs.length ≤ 65535 →
    exec (.magr freqs) s =
      .next (refusedWith .pr 2 0x1#32 (BitVec.ofNat 32 (0x16000000 + freqs.length)) s)

/-- R180, R181: with a valid rate `MAGR` answers one magnitude for each frequency and changes no state; each is a function of the
enabled sections of the published sets, the published flags, the rate and the frequency alone, and `1.0` when all three stages are
bypassed (M2). -/
def Obligations.MagrEvaluatesThePublishedBank : Prop :=
  ∃ mag : PerStage StageSet → PerStage Bool → F → F → F,
    (∀ (a b : PerStage StageSet) (byp : PerStage Bool) (fs f : F),
      (∀ st, (a.get st).c.take (a.get st).nsec = (b.get st).c.take (b.get st).nsec) → mag a byp fs f = mag b byp fs f) ∧
    (∀ (a : PerStage StageSet) (fs f : F), mag a ⟨true, true, true⟩ fs f = 0x3F800000#32) ∧
    ∀ (s : State) (freqs : List F), RateValid s.fs → freqs.length ≤ 65535 →
      exec (.magr freqs) s =
        .next (answered .pr (okHeader freqs.length) (freqs.map (mag s.pub s.pbyp s.fs)) s)

/-- R181, the last clause of M1 at 0 Hz: where an audible low-cut section's numerator is exactly 0 at 0 Hz and no audible section's
denominator is, `MAGR` answers `+0.0` there. -/
def Obligations.MagrOfLowCutAtZeroIsZero : Prop :=
  ∀ s : State, RateValid s.fs → s.pbyp.lc = false →
    (∃ c ∈ s.pub.lc.c.take s.pub.lc.nsec, fInt c.b0 + fInt c.b1 + fInt c.b2 = 0) →
    (∀ st, s.pbyp.get st = false → ∀ c ∈ (s.pub.get st).c.take (s.pub.get st).nsec,
      2 ^ 149 + fInt c.a1 + fInt c.a2 ≠ 0) →
    exec (.magr [0x00000000#32]) s = .next (answered .pr 0x00010000#32 [0x00000000#32] s)

/-- R182, with R171 and R181: the document's scenario at 48000 Hz, 1000 Hz, +6 dB, Q 1.0, the cut stages bypassed. `RFSH` of these
parameters publishes a peak section as near the reference of R171 as F3's tolerance says. With a section within `10^-7` of that reference
(a rounding to binary32 is) and answers that M1 allows, `MAGR` answers finite values above zero that are +6 dB at 1000 Hz and 0 dB at 20 Hz and
20000 Hz, each within `MAGR_TOL_DB` and 0.01 dB more: within the document's 0.1 dB for a tolerance of 0.09, and within its 0.5 dB for one of
0.1. -/
def Obligations.MagrMeetsTheScenario : Prop :=
  (∀ (s : State) (coefTol : ℝ), s.chg = true → s.fs = 0x473B8000#32 → s.param.pkf = 0x447A0000#32 →
    s.param.pkg = 0x40C00000#32 → s.param.pkq = 0x3F800000#32 →
    s.param.lcb = true → s.param.pkb = false → s.param.hcb = true →
    ParametersInBounds s.param s.fs → FactoryAccurateAt coefTol s.param s.fs →
    ∃ (t : State) (c : Coefs), exec .rfsh s = .next t ∧ t.fs = s.fs ∧ t.pbyp = ⟨true, false, true⟩ ∧
      t.pub.pk.c.take t.pub.pk.nsec = [c] ∧ CoefsNear coefTol c (peakRef 1000 6 1 48000)) ∧
  ∀ (s : State) (c : Coefs) (magrTol : ℝ), s.fs = 0x473B8000#32 → s.pbyp = ⟨true, false, true⟩ →
    s.pub.pk.c.take s.pub.pk.nsec = [c] → CoefsNear (1 / 10 ^ 7) c (peakRef 1000 6 1 48000) →
    (∀ f ∈ [0x447A0000#32, 0x41A00000#32, 0x469C4000#32], MagRespAccurateAt magrTol s.pub s.pbyp s.fs f) →
    ∃ m1 m2 m3 : F,
      exec (.magr [0x447A0000#32, 0x41A00000#32, 0x469C4000#32]) s =
        .next (answered .pr 0x00030000#32 [m1, m2, m3] s) ∧
      (∀ m ∈ [m1, m2, m3], isFinite m = true ∧ 0 < toReal m) ∧
      |decibels (toReal m1) - 6| ≤ magrTol + 1 / 100 ∧
      |decibels (toReal m2)| ≤ magrTol + 1 / 100 ∧
      |decibels (toReal m3)| ≤ magrTol + 1 / 100

/-! ### Coefficient and bypass control (spec/41_coefficient_control.md) -/

/-- R137: `SBYP` writes the one published flag and nothing else; on the RT port it is a port violation, and with `stg = 3` or an unused
field set it is illegal. -/
def Obligations.SbypWritesOneFlag : Prop :=
  (∀ l : Nat, ∀ v : Bool,
    decode l .pr ⟨BitVec.ofNat 32 (0x11000000 + v.toNat * 2 ^ 19), []⟩ = .ok (.sbyp .lc v) ∧
    decode l .pr ⟨BitVec.ofNat 32 (0x11400000 + v.toNat * 2 ^ 19), []⟩ = .ok (.sbyp .pk v) ∧
    decode l .pr ⟨BitVec.ofNat 32 (0x11800000 + v.toNat * 2 ^ 19), []⟩ = .ok (.sbyp .hc v)) ∧
  (∀ (st : Stage) (v : Bool) (s : State), ∃ q : PerStage Bool,
    exec (.sbyp st v) s = .next (answered .pr 0x00000000#32 [] { s with pbyp := q }) ∧
    q.get st = v ∧ ∀ other, other ≠ st → q.get other = s.pbyp.get other) ∧
  (∀ (s : State) (pk : Packet), nextEvent s = .command .rt pk → opcode pk.header = 0x11 →
    step s = .next (refusedWith .rt 5 0x8#32 pk.header (accept .rt s))) ∧
  ∀ (s : State) (pk : Packet), nextEvent s = .command .pr pk → opcode pk.header = 0x11 →
    pk.header.toNat / 2 ^ 22 % 4 = 3 ∨ pk.header.toNat / 2 ^ 20 % 4 ≠ 0 ∨ pk.header.toNat % 2 ^ 19 ≠ 0 ∨ pk.payload ≠ [] →
    step s = .next (refusedWith .pr 4 0x4#32 pk.header (accept .pr s))

/-- R131, R132: `UPDS` with finite coefficients replaces the stage's published set whole: its count is the number of sections given, its
slots hold them in order and `ID` beyond; nothing else changes. -/
def Obligations.UpdsReplacesTheStageSet : Prop :=
  ∀ (st : Stage) (secs : List Coefs) (s : State), 1 ≤ secs.length → secs.length ≤ slots st →
    (∀ c ∈ secs, isFinite c.b0 = true ∧ isFinite c.b1 = true ∧ isFinite c.b2 = true ∧ isFinite c.a1 = true ∧
      isFinite c.a2 = true) →
    (encode (.upds st secs)).header =
      BitVec.ofNat 32 (0x10000000 + stageNumber st * 2 ^ 22 + (secs.length - 1) * 2 ^ 20) ∧
    ∃ q : PerStage StageSet,
      exec (.upds st secs) s = .next (answered .pr 0x00000000#32 [] { s with pub := q }) ∧
      (q.get st).nsec = secs.length ∧ (q.get st).c.length = slots st ∧
      (∀ i, i < secs.length → (q.get st).c[i]? = secs[i]?) ∧
      (∀ i, secs.length ≤ i → i < slots st →
        (q.get st).c[i]? = some ⟨0x3F800000#32, 0x0#32, 0x0#32, 0x0#32, 0x0#32⟩) ∧
      ∀ other, other ≠ st → q.get other = s.pub.get other

/-- R133: a `UPDS` packet with a NaN or an infinity among its payload words is refused whole with `COEF_REJECTED`, the header recorded,
and no part of the set taken. -/
def Obligations.UpdsRejectsNonFiniteSets : Prop :=
  ∀ (s : State) (pk : Packet) (st : Stage) (secs : List Coefs), nextEvent s = .command .pr pk →
    decode s.cfg.l .pr pk = .ok (.upds st secs) → (∃ w ∈ pk.payload, isNaN w = true ∨ isInf w = true) →
    step s = .next (answered .pr 0x00000003#32 []
      { accept .pr s with
        status := s.status ||| 0x2#32
        lastcode := 0x3#8
        lasterr := pk.header })

/-! ### The filter datapath (spec/40_filter_datapath.md) -/

/-- R116: `SYNC` makes the published sets and flags the active ones, clears exactly the section memories whose slot enable changes,
answers `OK` and writes nothing else; with nothing new published it changes nothing. -/
def Obligations.SyncAdoptsThePublishedBank : Prop :=
  (∀ l : Nat, decode l .rt ⟨0x01000000#32, []⟩ = .ok .sync) ∧
  (∀ s : State, ∃ m : PerStage (List SecMem),
    exec .sync s = .next (answered .rt 0x00000000#32 [] { s with mem := m, act := s.pub, abyp := s.pbyp }) ∧
    ∀ st, (m.get st).length = (s.mem.get st).length ∧
      ∀ (i : Nat) (old : SecMem), (s.mem.get st)[i]? = some old →
        ((i < (s.act.get st).nsec ↔ i < (s.pub.get st).nsec) → (m.get st)[i]? = some old) ∧
        (¬(i < (s.act.get st).nsec ↔ i < (s.pub.get st).nsec) → (m.get st)[i]? = some ⟨0x0#32, 0x0#32⟩)) ∧
  ∀ s : State, s.pub = s.act → s.pbyp = s.abyp → exec .sync s = .next (answered .rt 0x00000000#32 [] s)

/-- R118(a): the same `UPDS` once, or twice, or again after its adoption, leaves the same state after `SYNC` but for the responses, and
every later `PROC` gives the same outputs (with the same NaN draws, log entry 3). -/
def Obligations.RepeatedUpdateIsIdempotent : Prop :=
  ∀ (s : State) (st : Stage) (secs : List Coefs) (xs : List F),
    ∃ (a b c a' b' c' : State) (ws : List Response),
      execAll [.upds st secs, .sync] s = .next a ∧
      execAll [.upds st secs, .upds st secs, .sync] s = .next b ∧
      execAll [.upds st secs, .sync, .upds st secs, .sync] s = .next c ∧
      b = { a with out := b.out } ∧ c = { a with out := c.out } ∧
      execAll (xs.map .proc) a = .next a' ∧ a'.out.rt = a.out.rt ++ ws ∧
      execAll (xs.map .proc) b = .next b' ∧ b'.out.rt = b.out.rt ++ ws ∧
      execAll (xs.map .proc) c = .next c' ∧ c'.out.rt = c.out.rt ++ ws

/-- R110 to R113: `PROC x` answers the output of the three stages in series, each running its enabled sections in slot order by the
section step of R112 (R12's NaN draws are free), and writes their memories and nothing else of the block. -/
def Obligations.ProcRunsTheSections : Prop :=
  ∀ (s : State) (x : F), (∀ st, SetShape st (s.act.get st)) → (∀ st, (s.mem.get st).length = slots st) →
    ∃ (u v y : F) (m : PerStage (List SecMem)) (d : Nat),
      exec (.proc x) s = .next (answered .rt 0x00010000#32 [y] { s with mem := m, draws := d }) ∧
      StageRuns s.abyp.lc s.act.lc s.mem.lc x u m.lc ∧
      StageRuns s.abyp.pk s.act.pk s.mem.pk u v m.pk ∧
      StageRuns s.abyp.hc s.act.hc s.mem.hc v y m.hc

/-- R111, R113, R114: in every state `PROC x` ends with `OK` and one word; the memories of a bypassed stage and of the slots from `NSEC`
on stay as they are, and no other state of the block changes. -/
def Obligations.ProcWritesOnlyEnabledMemories : Prop :=
  (∀ (l : Nat) (x : F), decode l .rt ⟨0x02000000#32, [x]⟩ = .ok (.proc x)) ∧
  ∀ (s : State) (x : F), ∃ (y : F) (m : PerStage (List SecMem)) (d : Nat),
    exec (.proc x) s = .next (answered .rt 0x00010000#32 [y] { s with mem := m, draws := d }) ∧
    ∀ st, (m.get st).length = (s.mem.get st).length ∧ (s.abyp.get st = true → m.get st = s.mem.get st) ∧
      ∀ i, (s.act.get st).nsec ≤ i → (m.get st)[i]? = (s.mem.get st)[i]?

/-- R114: a bypassed stage is as if absent. Beside it, the output is that of the two other stages alone, its input being its output bit for
bit, and its memories are held. For every sample sequence, whatever its set and its memories are, every response is the same (with the
same NaN draws, log entry 3), and they are held. `SYNC` clears no memory for a change of the flag. With all three stages bypassed `PROC`
is the identity and writes no state but its response. -/
def Obligations.BypassedStageIsAbsent : Prop :=
  (∀ (xs : List F) (s : State) (st : Stage) (g : StageSet) (ms : List SecMem), s.abyp.get st = true →
    ∃ t : State, execAll (xs.map .proc) s = .next t ∧
      execAll (xs.map .proc) { s with act := s.act.set st g, mem := s.mem.set st ms } =
        .next { t with act := t.act.set st g, mem := t.mem.set st ms } ∧
      t.act = s.act ∧ t.mem.get st = s.mem.get st) ∧
  (∀ (s : State) (x : F), (∀ st, SetShape st (s.act.get st)) → (∀ st, (s.mem.get st).length = slots st) →
    ∃ (y : F) (m : PerStage (List SecMem)) (d : Nat),
      exec (.proc x) s = .next (answered .rt 0x00010000#32 [y] { s with mem := m, draws := d }) ∧
      (s.abyp.lc = true → m.lc = s.mem.lc ∧ ∃ u,
        StageRuns s.abyp.pk s.act.pk s.mem.pk x u m.pk ∧ StageRuns s.abyp.hc s.act.hc s.mem.hc u y m.hc) ∧
      (s.abyp.pk = true → m.pk = s.mem.pk ∧ ∃ u,
        StageRuns s.abyp.lc s.act.lc s.mem.lc x u m.lc ∧ StageRuns s.abyp.hc s.act.hc s.mem.hc u y m.hc) ∧
      (s.abyp.hc = true → m.hc = s.mem.hc ∧ ∃ u,
        StageRuns s.abyp.lc s.act.lc s.mem.lc x u m.lc ∧ StageRuns s.abyp.pk s.act.pk s.mem.pk u y m.pk)) ∧
  (∀ (s : State) (st : Stage), (s.pub.get st).nsec = (s.act.get st).nsec →
    ∃ t, exec .sync s = .next t ∧ t.mem.get st = s.mem.get st) ∧
  ∀ (s : State) (x : F), s.abyp = ⟨true, true, true⟩ → exec (.proc x) s = .next (answered .rt 0x00010000#32 [x] s)

/-- R115(a), R299: a NaN sample makes the output NaN and both memory words of every enabled section of every stage not bypassed NaN; and
while such a section's first memory word is NaN, whatever the sample, the output is NaN and both words of that memory stay NaN. -/
def Obligations.NaNSpreadsThroughTheFilter : Prop :=
  ∀ (s : State) (x : F), (∀ st, SetShape st (s.act.get st)) → (∀ st, (s.mem.get st).length = slots st) →
    ∃ (y : F) (m : PerStage (List SecMem)) (d : Nat),
      exec (.proc x) s = .next (answered .rt 0x00010000#32 [y] { s with mem := m, draws := d }) ∧
      (isNaN x = true → isNaN y = true ∧
        ∀ st, s.abyp.get st = false → ∀ (i : Nat) (e : SecMem), i < (s.act.get st).nsec → (m.get st)[i]? = some e →
          isNaN e.s1 = true ∧ isNaN e.s2 = true) ∧
      ∀ (st : Stage) (i : Nat) (old : SecMem), s.abyp.get st = false → i < (s.act.get st).nsec →
        (s.mem.get st)[i]? = some old → isNaN old.s1 = true →
        isNaN y = true ∧ ∃ e, (m.get st)[i]? = some e ∧ isNaN e.s1 = true ∧ isNaN e.s2 = true

/-- R73(a), R119: what the PR agent does between two `SYNC` commands has no influence on `PROC`: with any PR commands among the samples,
the responses on the RT port and the filter memories are those of the samples alone (with the same NaN draws, log entry 3). -/
def Obligations.ProcIndependentOfPr : Prop :=
  ∀ (cmds : List Instr) (s : State), (∀ i ∈ cmds, (∃ x, i = .proc x) ∨ i.port = .pr) →
    ∃ t u : State, execAll cmds s = .next t ∧
      execAll (cmds.filter fun i => i.port == .rt) s = .next u ∧ t.out.rt = u.out.rt ∧ t.mem = u.mem

/-- R23, R24, R74: the active sets and bypass flags change only in a `SYNC` on the RT port or a reset. -/
def Obligations.ActiveBankChangesOnlyAtSyncOrReset : Prop :=
  ∀ s t : State, step s = .next t → t.act ≠ s.act ∨ t.abyp ≠ s.abyp →
    nextEvent s = .reset ∨ nextEvent s = .command .rt ⟨0x01000000#32, []⟩

/-! ### Binary32 arithmetic (R12 of spec/00_scope.md) -/

/-- R12: the sum of two finite values, where it does not overflow, is a finite value nearest to the exact sum, and even where two values
are nearest (`fInt` is a value in units of `2^-149`). -/
def Obligations.AddRoundsToNearestEven : Prop :=
  ∀ (k : Nat) (a b : F), isFinite a = true → isFinite b = true → |fInt a + fInt b| < (2 ^ 25 - 1) * 2 ^ 252 →
    isFinite (fadd k a b) = true ∧
    ∀ x : F, isFinite x = true →
      |fInt (fadd k a b) - (fInt a + fInt b)| ≤ |fInt x - (fInt a + fInt b)| ∧
      (fInt x ≠ fInt (fadd k a b) →
        |fInt x - (fInt a + fInt b)| = |fInt (fadd k a b) - (fInt a + fInt b)| → (fadd k a b).toNat % 2 = 0)

/-- R12: the product of two finite values, where it does not overflow, is a finite value nearest to the exact product, even where two
are nearest, and has the exclusive or of the signs. -/
def Obligations.MulRoundsToNearestEven : Prop :=
  ∀ (k : Nat) (a b : F), isFinite a = true → isFinite b = true → |fInt a * fInt b| < (2 ^ 25 - 1) * 2 ^ 401 →
    isFinite (fmul k a b) = true ∧ (fmul k a b).msb = (a.msb != b.msb) ∧
    ∀ x : F, isFinite x = true →
      |fInt (fmul k a b) * 2 ^ 149 - fInt a * fInt b| ≤ |fInt x * 2 ^ 149 - fInt a * fInt b| ∧
      (fInt x ≠ fInt (fmul k a b) →
        |fInt x * 2 ^ 149 - fInt a * fInt b| = |fInt (fmul k a b) * 2 ^ 149 - fInt a * fInt b| →
        (fmul k a b).toNat % 2 = 0)

/-- R12: overflow goes to the infinity of the exact result's sign; a result is a NaN, and then a quiet one, exactly for a NaN operand,
`inf - inf` and `0 * inf`; an infinity otherwise gives an infinity; an exact zero sum is `+0.0` unless both operands are `-0.0`;
subtraction is the addition of the negated operand. (The signs of zeros are IEEE 754's, to which R12 leaves them: log entry 16.) -/
def Obligations.ArithmeticSpecialCases : Prop :=
  (∀ (k : Nat) (a b : F), isFinite a = true → isFinite b = true → (2 ^ 25 - 1) * 2 ^ 252 ≤ |fInt a + fInt b| →
    fadd k a b = if 0 < fInt a + fInt b then 0x7F800000#32 else 0xFF800000#32) ∧
  (∀ (k : Nat) (a b : F), isFinite a = true → isFinite b = true → (2 ^ 25 - 1) * 2 ^ 401 ≤ |fInt a * fInt b| →
    fmul k a b = if 0 < fInt a * fInt b then 0x7F800000#32 else 0xFF800000#32) ∧
  (∀ (k : Nat) (a b : F), (isNaN (fadd k a b) = true ↔
      isNaN a = true ∨ isNaN b = true ∨ (isInf a = true ∧ isInf b = true ∧ a ≠ b)) ∧
    (isNaN (fadd k a b) = true → isQuietNaN (fadd k a b) = true)) ∧
  (∀ (k : Nat) (a b : F), (isNaN (fmul k a b) = true ↔
      isNaN a = true ∨ isNaN b = true ∨ (isInf a = true ∧ isZero b = true) ∨ (isZero a = true ∧ isInf b = true)) ∧
    (isNaN (fmul k a b) = true → isQuietNaN (fmul k a b) = true)) ∧
  (∀ (k : Nat) (a b : F), isInf a = true → isFinite b = true → fadd k a b = a ∧ fadd k b a = a) ∧
  (∀ (k : Nat) (a : F), isInf a = true → fadd k a a = a) ∧
  (∀ (k : Nat) (a b : F), isInf a = true → isNaN b = false → isZero b = false →
    fmul k a b = (if a.msb == b.msb then 0x7F800000#32 else 0xFF800000#32) ∧ fmul k b a = fmul k a b) ∧
  (∀ (k : Nat) (a b : F), isFinite a = true → isFinite b = true → fInt a + fInt b = 0 →
    fadd k a b = if a = 0x80000000#32 ∧ b = 0x80000000#32 then 0x80000000#32 else 0x00000000#32) ∧
  ∀ (k : Nat) (a b : F), fsub k a b = fadd k a (b ^^^ 0x80000000#32)

/-! ### The sample block channel (spec/43_sample_block_channel.md) -/

/-- R192, R193, R194: `PUSH` stores the block, bit for bit, in slot `W mod CAP`, full ring or not, advances `W`, answers `OK` and changes
nothing else; every other slot reads as before, and the slots keep their canonical form. -/
def Obligations.PushStoresTheBlock : Prop :=
  (∀ blk : List F, decode blk.length .rt ⟨0x03000000#32, blk⟩ = .ok (.push blk)) ∧
  ∀ (s : State) (blk : List F), ∃ m : List (Nat × List F),
    exec (.push blk) s = .next (answered .rt 0x00000000#32 [] { s with slot := m, w := s.w + 1 }) ∧
    (slotsWf s.cfg.l s.cfg.cap s.slot = true → 1 ≤ s.cfg.cap → blk.length = s.cfg.l →
      slotGet s.cfg.l m (s.w % s.cfg.cap) = blk ∧
      (∀ j, j ≠ s.w % s.cfg.cap → slotGet s.cfg.l m j = slotGet s.cfg.l s.slot j) ∧
      slotsWf s.cfg.l s.cfg.cap m = true)

/-- R195, R196, R198: `POP` on an empty ring answers `EMPTY`; else it answers the oldest block still held, after moving `R` past the
blocks that were overwritten, and writes `R` alone. -/
def Obligations.PopReturnsTheOldestBlock : Prop :=
  (∀ l : Nat, decode l .pr ⟨0x20000000#32, []⟩ = .ok .pop) ∧
  (∀ s : State, s.w = s.r → exec .pop s = .next (answered .pr 0x00000001#32 [] s)) ∧
  (∀ s : State, slotsWf s.cfg.l s.cfg.cap s.slot = true → s.cfg.l ≤ 65535 → s.r < s.w → s.w - s.r ≤ s.cfg.cap →
    exec .pop s =
      .next (answered .pr (okHeader s.cfg.l) (slotGet s.cfg.l s.slot (s.r % s.cfg.cap)) { s with r := s.r + 1 })) ∧
  ∀ s : State, slotsWf s.cfg.l s.cfg.cap s.slot = true → s.cfg.l ≤ 65535 → s.cfg.cap < s.w - s.r →
    exec .pop s =
      .next (answered .pr (okHeader s.cfg.l) (slotGet s.cfg.l s.slot ((s.w - s.cfg.cap) % s.cfg.cap))
        { s with r := s.w - s.cfg.cap + 1 })

/-- R79, R199: `AVAIL` answers `min(W - R, CAP)`, not truncated, and changes nothing; that many takes then succeed, and the ring is
empty after them. -/
def Obligations.AvailCountsTheTakes : Prop :=
  (∀ s : State, ∃ n : Word, exec .avail s = .next (answered .pr 0x00010000#32 [n] s) ∧
    (s.cfg.cap < 2 ^ 32 → n.toNat = min (s.w - s.r) s.cfg.cap)) ∧
  ∀ s : State, s.r ≤ s.w → 1 ≤ s.cfg.cap →
    ∃ (t : State) (new : List Response), execAll (List.replicate (min (s.w - s.r) s.cfg.cap) .pop) s = .next t ∧
      t.out.pr = s.out.pr ++ new ∧ new.length = min (s.w - s.r) s.cfg.cap ∧
      (∀ e ∈ new, responseCode e = 0x0#8) ∧ t.r = t.w ∧ t.w = s.w ∧
      exec .pop t = .next (answered .pr 0x00000001#32 [] t)

/-- R197(b), (c), (d): into a ring with nothing unread, after `m` pushes `min(m, CAP)` takes answer the newest blocks, in push order and
bit for bit, and the next take answers `EMPTY`. -/
def Obligations.RingKeepsTheNewestInOrder : Prop :=
  ∀ (s : State) (blks : List (List F)), slotsWf s.cfg.l s.cfg.cap s.slot = true → 1 ≤ s.cfg.cap → s.cfg.l ≤ 65535 →
    s.w = s.r → (∀ b ∈ blks, b.length = s.cfg.l) →
    ∃ t : State,
      execAll (blks.map .push ++ List.replicate (min blks.length s.cfg.cap) .pop) s = .next t ∧
      t.out.rt = s.out.rt ++ List.replicate blks.length ⟨0x00000000#32, []⟩ ∧
      t.out.pr = s.out.pr ++ (blks.drop (blks.length - s.cfg.cap)).map (fun b => ⟨okHeader s.cfg.l, b⟩) ∧
      exec .pop t = .next (answered .pr 0x00000001#32 [] t)

/-! ### The analyzer (spec/44_spectrum_analyzer.md) -/

/-- R231, R232: `WVIEW` writes a finite value to the one view register `vid` names and does not set `CHG`; a NaN or an infinity ends with
`INVALID_CONFIGURATION` and leaves the register. -/
def Obligations.WviewWritesOneFiniteRegister : Prop :=
  (∀ vid : View, [View.vx0, .vw, .vyb, .vyt, .dbmin, .dbmax, .floor][viewId vid]? = some vid) ∧
  (∀ (l : Nat) (vid : View) (w : F),
    decode l .pr ⟨BitVec.ofNat 32 (0x17000000 + viewId vid), [w]⟩ = .ok (.wview vid w)) ∧
  (∀ (vid : View) (w : F) (s : State), isFinite w = true → ∃ v : ViewRegs,
    exec (.wview vid w) s = .next (answered .pr 0x00000000#32 [] { s with view := v }) ∧
    readView vid v = w ∧ ∀ other, other ≠ vid → readView other v = readView other s.view) ∧
  ∀ (vid : View) (w : F) (s : State), isNaN w = true ∨ isInf w = true →
    exec (.wview vid w) s =
      .next (refusedWith .pr 2 0x1#32 (BitVec.ofNat 32 (0x17000000 + viewId vid)) s)

/-- R212, R215(a): with the analyzer disabled `ANLZ` answers 0 and takes nothing; with an empty ring it answers `EMPTY`. -/
def Obligations.AnlzWithNothingToTake : Prop :=
  (∀ l : Nat, decode l .pr ⟨0x22000000#32, []⟩ = .ok .anlz) ∧
  (∀ s : State, s.laen = false → exec .anlz s = .next (answered .pr 0x00010000#32 [0x00000000#32] s)) ∧
  ∀ s : State, s.laen = true → s.w = s.r → exec .anlz s = .next (answered .pr 0x00000001#32 [] s)

/-- R211, R212, R213, R214: `ANLZ` takes the oldest block still held, keeps the newest `N` samples, and once `N` samples have been supplied
queues the spectrum of the buffer, dropping the oldest entry of a full queue; else it answers 0. -/
def Obligations.AnlzSlidesAndQueues : Prop :=
  ∀ s : State, Inv s → s.laen = true → s.r < s.w →
    ∃ (oldest : Nat) (blk acc : List F), oldest = max s.r (s.w - s.cfg.cap) ∧
      blk = slotGet s.cfg.l s.slot (oldest % s.cfg.cap) ∧ acc = (s.acc ++ blk).drop s.cfg.l ∧
      (s.accfill + s.cfg.l < s.cfg.n →
        exec .anlz s = .next (answered .pr 0x00010000#32 [0x00000000#32]
          { s with r := oldest + 1, acc := acc, accfill := s.accfill + s.cfg.l })) ∧
      (s.cfg.n ≤ s.accfill + s.cfg.l →
        exec .anlz s = .next (answered .pr 0x00010000#32 [0x00000001#32]
          { s with
            r := oldest + 1
            acc := acc
            accfill := s.cfg.n
            mq := (if s.mq.length = s.cfg.mqcap then s.mq.drop 1 else s.mq) ++
              [spectrum s.cfg.n s.cfg.nb acc s.view.floor] }))

/-- S1 and S2 of R219, and the length of R218: for a finite floor a spectrum has `NB` values, all finite and none below the floor; silence
gives the floor in every bin. So does a buffer with a NaN or an infinite sample: that this is meant for every bin, also where the
only such samples are infinite, is the model's reading of S1 (log entry 7). -/
def Obligations.SpectrumProperties : Prop :=
  ∀ (g : Params) (acc : List F) (floor : F), isFinite floor = true →
    (spectrum g.n g.nb acc floor).length = g.nb ∧
    (∀ d ∈ spectrum g.n g.nb acc floor, isFinite d = true ∧ fInt floor ≤ fInt d) ∧
    ((∀ x ∈ acc, x = 0x00000000#32 ∨ x = 0x80000000#32) → spectrum g.n g.nb acc floor = List.replicate g.nb floor) ∧
    ((∃ x ∈ acc, isNaN x = true ∨ isInf x = true) → spectrum g.n g.nb acc floor = List.replicate g.nb floor)

/-- R222, R225, R228(c): `GENP` empties the queue, answers how many entries it held, and keeps the path of the last one: a point for each
bin, the first at `VX0`, the others at the mapped frequency `k * FS / N` (taken exactly, log entry 8), every mapped coordinate finite and a
function of the arguments R226 and R227 name. -/
def Obligations.GenpKeepsTheNewestPath : Prop :=
  ∃ (mx : ℚ → F → F → F) (my : F → F → F → F → F → F),
    (∀ f vx0 vw, isFinite (mx f vx0 vw) = true) ∧
    (∀ d vyb vyt dbmin dbmax, isFinite (my d vyb vyt dbmin dbmax) = true) ∧
    ∀ (s : State) (older : List (List F)) (newest : List F), ViewOk s.view → s.laen = true → s.mq = older ++ [newest] →
      RateValid s.fs → fInt s.view.dbmin < fInt s.view.dbmax →
      exec .genp s = .next (answered .pr 0x00010000#32 [BitVec.ofNat 32 (older.length + 1)]
        { s with
          mq := []
          havepath := true
          latest := newest.mapIdx fun k d =>
            ⟨if k = 0 then s.view.vx0
              else mx ((k : ℚ) * ((fInt s.fs : ℚ) / 2 ^ 149) / (s.cfg.n : ℚ)) s.view.vx0 s.view.vw,
             my d s.view.vyb s.view.vyt s.view.dbmin s.view.dbmax⟩ })

/-- R223: with a path to make, an invalid rate or `DBMAX > DBMIN` false ends `GENP` with `INVALID_CONFIGURATION` and leaves the queue and
the path; with the analyzer disabled or an empty queue it answers 0 before any test (R222, R255). -/
def Obligations.GenpIdleOrRefused : Prop :=
  (∀ l : Nat, decode l .pr ⟨0x23000000#32, []⟩ = .ok .genp) ∧
  (∀ s : State, s.laen = false ∨ s.mq = [] → exec .genp s = .next (answered .pr 0x00010000#32 [0x00000000#32] s)) ∧
  ∀ s : State, ViewOk s.view → s.laen = true → s.mq ≠ [] → ¬RateValid s.fs ∨ ¬fInt s.view.dbmin < fInt s.view.dbmax →
    exec .genp s = .next (refusedWith .pr 2 0x1#32 0x23000000#32 s)

/-- R229: `RDPATH` answers `EMPTY` before the first path, else the coordinates of the retained path in order, and changes nothing; only
`GENP` writes the path, so the same one is answered until then. -/
def Obligations.RdpathReturnsThePath : Prop :=
  (∀ l : Nat, decode l .pr ⟨0x24000000#32, []⟩ = .ok .rdpath) ∧
  (∀ s : State, s.havepath = false → exec .rdpath s = .next (answered .pr 0x00000001#32 [] s)) ∧
  (∀ s : State, s.havepath = true → s.latest.length = s.cfg.nb → 2 * s.cfg.nb ≤ 65535 →
    ∃ ws : List Word, exec .rdpath s = .next (answered .pr (okHeader (2 * s.cfg.nb)) ws s) ∧ ws.length = 2 * s.cfg.nb ∧
      ∀ (k : Nat) (q : Point), s.latest[k]? = some q → ws[2 * k]? = some q.x ∧ ws[2 * k + 1]? = some q.y) ∧
  ∀ (i : Instr) (s t : State), i ≠ .genp → exec i s = .next t → t.latest = s.latest ∧ t.havepath = s.havepath

/-! ### Reset, invariants and whole-machine rules -/

/-- R40: the machine after reset, and after a reset event in any state (R280), has every piece of state of R20 at the value of R40. `DBMIN`,
`DBMAX` and `FLOOR` reset to parameters whose defaults are R40's -24.0, +24.0 and -48.0, since R8 calls these defaults (log entry 1); that a
reset event is an entry of the schedule is the model's form of R280 (log entry 9). -/
def Obligations.ResetRestoresEverything : Prop :=
  (∀ g : Params, ResetValues g (State.resetWith g)) ∧ ResetValues Params.default State.reset ∧
  Params.default.dbminReset = 0xC1C00000#32 ∧ Params.default.dbmaxReset = 0x41C00000#32 ∧
  Params.default.floorReset = 0xC2400000#32 ∧
  ∀ (s : State) (ag : List Agent), s.sched = .reset :: ag → ∃ t, step s = .next t ∧ ResetValues s.cfg t

/-- The invariants hold after reset, for every legal choice of the parameters. -/
def Obligations.InvHoldsAtReset : Prop :=
  (∀ g : Params, g.Legal → Inv (State.resetWith g)) ∧ Inv State.reset ∧ ∀ g : Params, RtClean (State.resetWith g)

/-- R16, R22, R23, R25, R31 to R37, R86, R250: every step keeps the invariant: the shapes and finiteness of both banks, the section
memories, the reserved bits of `STATUS`, the codes, `W >= R`, the canonical slots, the analyzer's lengths, the finite queue, path and view,
and the form of every response. -/
def Obligations.StepKeepsInv : Prop :=
  ∀ s t : State, Inv s → step s = .next t → Inv t

/-- R258: the real-time path is refusal-free: as long as the RT agent sends only well-formed packets of the commands R258 names, every
response on the RT port is `OK`, whatever the state and whatever the PR agent does. (That responses and packets survive a reset event is
log entry 9.) -/
def Obligations.StepKeepsRtClean : Prop :=
  ∀ s t : State, RtClean s → step s = .next t → RtClean t

/-- R39: a command on the PR port writes no state owned by the RT agent; a command on the RT port writes no state owned by the PR agent,
clears no changed flag and clears no sticky status bit. -/
def Obligations.EachAgentWritesWhatItOwns : Prop :=
  ∀ (s t : State) (p : Port) (pk : Packet), nextEvent s = .command p pk → step s = .next t →
    (p = .pr → t.mem = s.mem ∧ t.act = s.act ∧ t.abyp = s.abyp ∧ t.w = s.w ∧ t.slot = s.slot) ∧
    (p = .rt → t.pub = s.pub ∧ t.pbyp = s.pbyp ∧ t.laen = s.laen ∧ t.r = s.r ∧ t.acc = s.acc ∧ t.accfill = s.accfill ∧
      t.mq = s.mq ∧ t.latest = s.latest ∧ t.havepath = s.havepath ∧ t.view = s.view ∧
      (s.chg = true → t.chg = true) ∧ s.status &&& t.status = s.status)

/-- R31, R254: a status bit that is set stays set in every step but a `CLRST` on the PR port and a reset. -/
def Obligations.FlagsAreSticky : Prop :=
  ∀ s t : State, step s = .next t → nextEvent s ≠ .reset → nextEvent s ≠ .command .pr ⟨0x31000000#32, []⟩ →
    s.status &&& t.status = s.status

/-! ### The reference definitions over the reals (R171 to R174) -/

/-- R171: the reference peak section's magnitude is exactly the linear gain at the center frequency, and 1 at 0 Hz and at half the
sample rate. -/
def Obligations.PeakMagnitudeAtCenterIsTheGain : Prop :=
  ∀ f gainDb q fs : ℝ, 0 < f → 2 * f < fs → 0 < q →
    sectionMagnitude (peakRef f gainDb q fs) (2 * Real.pi * f / fs) = (10 : ℝ) ^ (gainDb / 20) ∧
    sectionMagnitude (peakRef f gainDb q fs) 0 = 1 ∧
    sectionMagnitude (peakRef f gainDb q fs) Real.pi = 1

/-- R174: at the cutoff frequency each reference cut section's magnitude is exactly `1/sqrt(2)`, so the cascade of slope index `k` has
`(1/sqrt(2))^(k+1)`; a low cut is 0 at 0 Hz and a high cut 1 there. -/
def Obligations.CutMagnitudeAtCutoff : Prop :=
  ∀ (f fs : ℝ) (k : ℕ), 0 < f → 2 * f < fs →
    cascadeMagnitude (List.replicate (k + 1) (lowCutRef (prewarp f fs))) (2 * Real.pi * f / fs) =
      (1 / Real.sqrt 2) ^ (k + 1) ∧
    cascadeMagnitude (List.replicate (k + 1) (highCutRef (prewarp f fs))) (2 * Real.pi * f / fs) =
      (1 / Real.sqrt 2) ^ (k + 1) ∧
    cascadeMagnitude (List.replicate (k + 1) (lowCutRef (prewarp f fs))) 0 = 0 ∧
    cascadeMagnitude (List.replicate (k + 1) (highCutRef (prewarp f fs))) 0 = 1

end Statements
end

