-- ==== Sys2Proof/Laws/Decode.lean ====
section
/-!
SUPPORT. The fields of a packed header, and what decoding answers: a well-formed command of the port it was presented on.
-/

namespace Sys2Proof

/-! ### The fields of a packed header (R81) -/

theorem packHeader_getLsbD (o : BitVec 8) (s n : BitVec 2) (v : Bool) (m : BitVec 16) (i : Nat) :
    (packHeader o s n v m).getLsbD i =
      if i < 16 then m.getLsbD i
      else if i < 19 then false
      else if i < 20 then v
      else if i < 22 then n.getLsbD (i - 20)
      else if i < 24 then s.getLsbD (i - 22)
      else o.getLsbD (i - 24) := by
  have h : (packHeader o s n v m).getLsbD i =
      (o ++ s ++ n ++ BitVec.ofBool v ++ (0#3) ++ m : BitVec (8 + 2 + 2 + 1 + 3 + 16)).getLsbD i := rfl
  rw [h]
  simp only [BitVec.getLsbD_append, BitVec.getLsbD_zero, BitVec.getLsbD_ofBool]
  split_ifs <;> first | rfl | omega | simp_all

@[simp] theorem opcField_packHeader (o : BitVec 8) (s n : BitVec 2) (v : Bool) (m : BitVec 16) :
    opcField (packHeader o s n v m) = o := by
  apply BitVec.eq_of_getLsbD_eq
  intro i hi
  simp only [opcField, BitVec.getLsbD_extractLsb', packHeader_getLsbD]
  interval_cases i <;> simp

@[simp] theorem stgField_packHeader (o : BitVec 8) (s n : BitVec 2) (v : Bool) (m : BitVec 16) :
    stgField (packHeader o s n v m) = s := by
  apply BitVec.eq_of_getLsbD_eq
  intro i hi
  simp only [stgField, BitVec.getLsbD_extractLsb', packHeader_getLsbD]
  interval_cases i <;> simp

@[simp] theorem nsm1Field_packHeader (o : BitVec 8) (s n : BitVec 2) (v : Bool) (m : BitVec 16) :
    nsm1Field (packHeader o s n v m) = n := by
  apply BitVec.eq_of_getLsbD_eq
  intro i hi
  simp only [nsm1Field, BitVec.getLsbD_extractLsb', packHeader_getLsbD]
  interval_cases i <;> simp

@[simp] theorem vField_packHeader (o : BitVec 8) (s n : BitVec 2) (v : Bool) (m : BitVec 16) :
    vField (packHeader o s n v m) = v := by
  rw [vField, packHeader_getLsbD]
  simp

@[simp] theorem immField_packHeader (o : BitVec 8) (s n : BitVec 2) (v : Bool) (m : BitVec 16) :
    immField (packHeader o s n v m) = m := by
  apply BitVec.eq_of_getLsbD_eq
  intro i hi
  simp only [immField, BitVec.getLsbD_extractLsb', packHeader_getLsbD]
  simp [hi]

@[simp] theorem nsecField_packHeader (o : BitVec 8) (s n : BitVec 2) (v : Bool) (m : BitVec 16) :
    nsecField (packHeader o s n v m) = n.toNat + 1 := by
  simp [nsecField]

/-! ### Numbers and names -/

theorem stageOfField_stageNumber (st : Stage) : stageOfField (.ofNat 2 (stageNumber st)) = some st := by
  cases st <;> rfl

theorem paramOfId_paramId (pid : Param) : paramOfId (paramId pid) = some pid := by
  cases pid <;> rfl

theorem viewOfId_viewId (vid : View) : viewOfId (viewId vid) = some vid := by
  cases vid <;> rfl

theorem paramId_lt (pid : Param) : paramId pid < 11 := by
  cases pid <;> decide

theorem viewId_lt (vid : View) : viewId vid < 7 := by
  cases vid <;> decide

theorem opOfByte_opByte (o : Op) : opOfByte (opByte o) = some o := by
  cases o <;> rfl

/-! ### Sections and payload words (R84) -/

theorem sectionsOf_sectionsWords (cs : List Coefs) : sectionsOf (sectionsWords cs) = cs := by
  induction cs with
  | nil => rfl
  | cons c cs ih => simp [sectionsWords, sectionWords, sectionsOf, ih]

theorem sectionsWords_length (cs : List Coefs) : (sectionsWords cs).length = 5 * cs.length := by
  induction cs with
  | nil => rfl
  | cons c cs ih =>
    simp [sectionsWords, sectionWords, ih]
    omega

theorem sectionsOf_length (k : Nat) (pl : List Word) (h : pl.length = 5 * k) : (sectionsOf pl).length = k := by
  induction k generalizing pl with
  | zero =>
    have : pl = [] := List.length_eq_zero_iff.1 (by omega)
    simp [this, sectionsOf]
  | succ k ih =>
    match pl, h with
    | b0 :: b1 :: b2 :: a1 :: a2 :: rest, h =>
      simp only [List.length_cons] at h
      simp [sectionsOf, ih rest (by omega)]

theorem sectionsWords_sectionsOf (k : Nat) (pl : List Word) (h : pl.length = 5 * k) :
    sectionsWords (sectionsOf pl) = pl := by
  induction k generalizing pl with
  | zero =>
    have : pl = [] := List.length_eq_zero_iff.1 (by omega)
    simp [this, sectionsOf, sectionsWords]
  | succ k ih =>
    match pl, h with
    | b0 :: b1 :: b2 :: a1 :: a2 :: rest, h =>
      simp only [List.length_cons] at h
      simp [sectionsOf, sectionsWords, sectionWords, ih rest (by omega)]

/-! ### What the payload readers answer -/

theorem takeNone_ok {pl : List Word} {i j : Instr} (h : takeNone pl i = .ok j) : pl = [] ∧ j = i := by
  cases pl <;> simp_all [takeNone]

theorem takeOne_ok {pl : List Word} {f : Word → Decoded} {j : Instr} (h : takeOne pl f = .ok j) :
    ∃ w, pl = [w] ∧ f w = .ok j := by
  unfold takeOne at h
  split at h
  · next w => exact ⟨w, rfl, h⟩
  · cases h

theorem takeWords_ok {pl : List Word} {k : Nat} {i j : Instr} (h : takeWords pl k i = .ok j) :
    pl.length = k ∧ j = i := by
  unfold takeWords at h
  split at h
  · next hk =>
    cases h
    exact ⟨hk, rfl⟩
  · cases h

theorem decodeUpds_ok {h : Word} {pl : List Word} {j : Instr} (hd : decodeUpds h pl = .ok j) :
    ∃ st, stageOfField (stgField h) = some st ∧ nsecField h ≤ slots st ∧ pl.length = 5 * nsecField h ∧
      j = .upds st (sectionsOf pl) := by
  unfold decodeUpds at hd
  split at hd
  · cases hd
  · next st hst =>
    split at hd
    · cases hd
    · obtain ⟨hl, rfl⟩ := takeWords_ok hd
      exact ⟨st, hst, by omega, hl, rfl⟩

theorem decodeSbyp_ok {h : Word} {pl : List Word} {j : Instr} (hd : decodeSbyp h pl = .ok j) :
    ∃ st, stageOfField (stgField h) = some st ∧ pl = [] ∧ j = .sbyp st (vField h) := by
  unfold decodeSbyp at hd
  split at hd
  · cases hd
  · next st hst =>
    obtain ⟨hl, rfl⟩ := takeNone_ok hd
    exact ⟨st, hst, hl, rfl⟩

theorem decodeWpar_ok {p : Port} {h : Word} {pl : List Word} {j : Instr} (hd : decodeWpar p h pl = .ok j) :
    ∃ pid w, paramOfId (immField h).toNat = some pid ∧ pl = [w] ∧
      (pid.isBool = true → w = 0#32 ∨ w = 1#32) ∧ j = .wpar p pid w := by
  unfold decodeWpar at hd
  split at hd
  · cases hd
  · next pid hpid =>
    obtain ⟨w, rfl, hw⟩ := takeOne_ok hd
    split at hw
    · cases hw
    · next hb =>
      cases hw
      refine ⟨pid, w, hpid, rfl, fun h1 => ?_, rfl⟩
      by_cases h0 : w = 0#32
      · exact .inl h0
      · exact .inr (by simpa [h1, h0] using hb)

theorem decodeWview_ok {h : Word} {pl : List Word} {j : Instr} (hd : decodeWview h pl = .ok j) :
    ∃ vid w, viewOfId (immField h).toNat = some vid ∧ pl = [w] ∧ j = .wview vid w := by
  unfold decodeWview at hd
  split at hd
  · cases hd
  · next vid hvid =>
    obtain ⟨w, rfl, hw⟩ := takeOne_ok hd
    cases hw
    exact ⟨vid, w, hvid, rfl, rfl⟩

/-- What decoding has checked when it answers a command. -/
theorem decode_ok {l : Nat} {p : Port} {pk : Packet} {i : Instr} (h : decode l p pk = .ok i) :
    ∃ o, opOfByte (opcField pk.header) = some o ∧ portAllowed (opClass o) p = true ∧
      headerMatches o pk.header = true ∧ decodeOperands l o p pk.header pk.payload = .ok i := by
  unfold decode at h
  split at h
  · cases h
  · next o ho =>
    split at h
    · next hp =>
      split at h
      · next hm => exact ⟨o, ho, hp, hm, h⟩
      · cases h
    · cases h

/-- A command that decodes is well formed. -/
theorem decode_wellFormed {l : Nat} {p : Port} {pk : Packet} {i : Instr} (h : decode l p pk = .ok i) : i.WF l := by
  obtain ⟨o, -, -, -, hd⟩ := decode_ok h
  cases o <;> simp only [decodeOperands] at hd
  case proc | srate =>
    obtain ⟨w, -, hw⟩ := takeOne_ok hd
    cases hw
    rfl
  case push =>
    obtain ⟨hl, rfl⟩ := takeWords_ok hd
    simp [Instr.WF, Instr.wellFormed, hl]
  case magr =>
    obtain ⟨hl, rfl⟩ := takeWords_ok hd
    have := (immField pk.header).isLt
    simp only [Instr.WF, Instr.wellFormed, decide_eq_true_eq]
    omega
  case upds =>
    obtain ⟨st, -, hs, hl, rfl⟩ := decodeUpds_ok hd
    have h1 : 1 ≤ nsecField pk.header := by simp [nsecField]
    simp [Instr.WF, Instr.wellFormed, sectionsOf_length _ _ hl, hs, h1]
  case sbyp =>
    obtain ⟨st, -, -, rfl⟩ := decodeSbyp_ok hd
    rfl
  case wpar =>
    obtain ⟨pid, w, -, -, hb, rfl⟩ := decodeWpar_ok hd
    cases hp : pid.isBool
    · simp [Instr.WF, Instr.wellFormed, hp]
    · rcases hb hp with rfl | rfl <;> simp [Instr.WF, Instr.wellFormed]
  case wview =>
    obtain ⟨vid, w, -, -, rfl⟩ := decodeWview_ok hd
    rfl
  all_goals
    obtain ⟨-, rfl⟩ := takeNone_ok hd
    rfl

/-- A command that decodes is one of the port it was presented on. -/
theorem decode_port {l : Nat} {p : Port} {pk : Packet} {i : Instr} (h : decode l p pk = .ok i) : i.port = p := by
  obtain ⟨o, -, hp, -, hd⟩ := decode_ok h
  cases o <;> simp only [decodeOperands] at hd
  case proc | srate =>
    obtain ⟨w, -, hw⟩ := takeOne_ok hd
    cases hw
    cases p <;> first | rfl | cases hp
  case push | magr =>
    obtain ⟨-, rfl⟩ := takeWords_ok hd
    cases p <;> first | rfl | cases hp
  case upds =>
    obtain ⟨st, -, -, -, rfl⟩ := decodeUpds_ok hd
    cases p <;> first | rfl | cases hp
  case sbyp =>
    obtain ⟨st, -, -, rfl⟩ := decodeSbyp_ok hd
    cases p <;> first | rfl | cases hp
  case wpar =>
    obtain ⟨pid, w, -, -, -, rfl⟩ := decodeWpar_ok hd
    rfl
  case wview =>
    obtain ⟨vid, w, -, -, rfl⟩ := decodeWview_ok hd
    cases p <;> first | rfl | cases hp
  all_goals
    obtain ⟨-, rfl⟩ := takeNone_ok hd
    cases p <;> first | rfl | cases hp

end Sys2Proof
end

