-- ==== Sys2Proof/Laws/State.lean ====
section
/-!
SUPPORT. The small lemmas of the state's named updates, one per field per update, and those of the port and stage
selectors, so that no proof unfolds an update.
-/

namespace Sys2Proof

@[simp] theorem PerPort.get_set_same {α : Type} (x : PerPort α) (p : Port) (a : α) : (x.set p a).get p = a := by
  cases p <;> rfl

@[simp] theorem PerPort.get_set_other {α : Type} (x : PerPort α) (p : Port) (a : α) :
    (x.set p a).get p.other = x.get p.other := by
  cases p <;> rfl

theorem PerPort.get_set {α : Type} (x : PerPort α) (p q : Port) (a : α) :
    (x.set p a).get q = if q = p then a else x.get q := by
  cases p <;> cases q <;> rfl

@[simp] theorem PerStage.get_set_same {α : Type} (x : PerStage α) (st : Stage) (a : α) : (x.set st a).get st = a := by
  cases st <;> rfl

theorem PerStage.get_set {α : Type} (x : PerStage α) (st su : Stage) (a : α) :
    (x.set st a).get su = if su = st then a else x.get su := by
  cases st <;> cases su <;> rfl

end Sys2Proof

namespace Sys2Proof.Machine

/-! ### `respond` -/

@[simp] theorem respond_mem (p : Port) (c : Code) (ws : List Word) (s : State) : (respond p c ws s).mem = s.mem := rfl
@[simp] theorem respond_act (p : Port) (c : Code) (ws : List Word) (s : State) : (respond p c ws s).act = s.act := rfl
@[simp] theorem respond_abyp (p : Port) (c : Code) (ws : List Word) (s : State) :
    (respond p c ws s).abyp = s.abyp := rfl
@[simp] theorem respond_pub (p : Port) (c : Code) (ws : List Word) (s : State) : (respond p c ws s).pub = s.pub := rfl
@[simp] theorem respond_pbyp (p : Port) (c : Code) (ws : List Word) (s : State) :
    (respond p c ws s).pbyp = s.pbyp := rfl
@[simp] theorem respond_param (p : Port) (c : Code) (ws : List Word) (s : State) :
    (respond p c ws s).param = s.param := rfl
@[simp] theorem respond_fs (p : Port) (c : Code) (ws : List Word) (s : State) : (respond p c ws s).fs = s.fs := rfl
@[simp] theorem respond_chg (p : Port) (c : Code) (ws : List Word) (s : State) : (respond p c ws s).chg = s.chg := rfl
@[simp] theorem respond_laen (p : Port) (c : Code) (ws : List Word) (s : State) :
    (respond p c ws s).laen = s.laen := rfl
@[simp] theorem respond_status (p : Port) (c : Code) (ws : List Word) (s : State) :
    (respond p c ws s).status = s.status := rfl
@[simp] theorem respond_lastcode (p : Port) (c : Code) (ws : List Word) (s : State) :
    (respond p c ws s).lastcode = s.lastcode := rfl
@[simp] theorem respond_lasterr (p : Port) (c : Code) (ws : List Word) (s : State) :
    (respond p c ws s).lasterr = s.lasterr := rfl
@[simp] theorem respond_slot (p : Port) (c : Code) (ws : List Word) (s : State) :
    (respond p c ws s).slot = s.slot := rfl
@[simp] theorem respond_w (p : Port) (c : Code) (ws : List Word) (s : State) : (respond p c ws s).w = s.w := rfl
@[simp] theorem respond_r (p : Port) (c : Code) (ws : List Word) (s : State) : (respond p c ws s).r = s.r := rfl
@[simp] theorem respond_acc (p : Port) (c : Code) (ws : List Word) (s : State) : (respond p c ws s).acc = s.acc := rfl
@[simp] theorem respond_accfill (p : Port) (c : Code) (ws : List Word) (s : State) :
    (respond p c ws s).accfill = s.accfill := rfl
@[simp] theorem respond_mq (p : Port) (c : Code) (ws : List Word) (s : State) : (respond p c ws s).mq = s.mq := rfl
@[simp] theorem respond_latest (p : Port) (c : Code) (ws : List Word) (s : State) :
    (respond p c ws s).latest = s.latest := rfl
@[simp] theorem respond_havepath (p : Port) (c : Code) (ws : List Word) (s : State) :
    (respond p c ws s).havepath = s.havepath := rfl
@[simp] theorem respond_view (p : Port) (c : Code) (ws : List Word) (s : State) :
    (respond p c ws s).view = s.view := rfl
@[simp] theorem respond_cfg (p : Port) (c : Code) (ws : List Word) (s : State) : (respond p c ws s).cfg = s.cfg := rfl
@[simp] theorem respond_inq (p : Port) (c : Code) (ws : List Word) (s : State) : (respond p c ws s).inq = s.inq := rfl
@[simp] theorem respond_out (p : Port) (c : Code) (ws : List Word) (s : State) :
    (respond p c ws s).out = s.out.set p (s.out.get p ++ [mkResponse c ws]) := rfl
@[simp] theorem respond_sched (p : Port) (c : Code) (ws : List Word) (s : State) :
    (respond p c ws s).sched = s.sched := rfl
@[simp] theorem respond_turn (p : Port) (c : Code) (ws : List Word) (s : State) :
    (respond p c ws s).turn = s.turn := rfl
@[simp] theorem respond_draws (p : Port) (c : Code) (ws : List Word) (s : State) :
    (respond p c ws s).draws = s.draws := rfl

/-! ### `recordRefusal` -/

@[simp] theorem recordRefusal_mem (c : Code) (hdr : Word) (s : State) : (recordRefusal c hdr s).mem = s.mem := rfl
@[simp] theorem recordRefusal_act (c : Code) (hdr : Word) (s : State) : (recordRefusal c hdr s).act = s.act := rfl
@[simp] theorem recordRefusal_abyp (c : Code) (hdr : Word) (s : State) : (recordRefusal c hdr s).abyp = s.abyp := rfl
@[simp] theorem recordRefusal_pub (c : Code) (hdr : Word) (s : State) : (recordRefusal c hdr s).pub = s.pub := rfl
@[simp] theorem recordRefusal_pbyp (c : Code) (hdr : Word) (s : State) : (recordRefusal c hdr s).pbyp = s.pbyp := rfl
@[simp] theorem recordRefusal_param (c : Code) (hdr : Word) (s : State) :
    (recordRefusal c hdr s).param = s.param := rfl
@[simp] theorem recordRefusal_fs (c : Code) (hdr : Word) (s : State) : (recordRefusal c hdr s).fs = s.fs := rfl
@[simp] theorem recordRefusal_chg (c : Code) (hdr : Word) (s : State) : (recordRefusal c hdr s).chg = s.chg := rfl
@[simp] theorem recordRefusal_laen (c : Code) (hdr : Word) (s : State) : (recordRefusal c hdr s).laen = s.laen := rfl
@[simp] theorem recordRefusal_status (c : Code) (hdr : Word) (s : State) :
    (recordRefusal c hdr s).status = s.status ||| codeFlag c := rfl
@[simp] theorem recordRefusal_lastcode (c : Code) (hdr : Word) (s : State) :
    (recordRefusal c hdr s).lastcode = codeByte c := rfl
@[simp] theorem recordRefusal_lasterr (c : Code) (hdr : Word) (s : State) :
    (recordRefusal c hdr s).lasterr = hdr := rfl
@[simp] theorem recordRefusal_slot (c : Code) (hdr : Word) (s : State) : (recordRefusal c hdr s).slot = s.slot := rfl
@[simp] theorem recordRefusal_w (c : Code) (hdr : Word) (s : State) : (recordRefusal c hdr s).w = s.w := rfl
@[simp] theorem recordRefusal_r (c : Code) (hdr : Word) (s : State) : (recordRefusal c hdr s).r = s.r := rfl
@[simp] theorem recordRefusal_acc (c : Code) (hdr : Word) (s : State) : (recordRefusal c hdr s).acc = s.acc := rfl
@[simp] theorem recordRefusal_accfill (c : Code) (hdr : Word) (s : State) :
    (recordRefusal c hdr s).accfill = s.accfill := rfl
@[simp] theorem recordRefusal_mq (c : Code) (hdr : Word) (s : State) : (recordRefusal c hdr s).mq = s.mq := rfl
@[simp] theorem recordRefusal_latest (c : Code) (hdr : Word) (s : State) :
    (recordRefusal c hdr s).latest = s.latest := rfl
@[simp] theorem recordRefusal_havepath (c : Code) (hdr : Word) (s : State) :
    (recordRefusal c hdr s).havepath = s.havepath := rfl
@[simp] theorem recordRefusal_view (c : Code) (hdr : Word) (s : State) : (recordRefusal c hdr s).view = s.view := rfl
@[simp] theorem recordRefusal_cfg (c : Code) (hdr : Word) (s : State) : (recordRefusal c hdr s).cfg = s.cfg := rfl
@[simp] theorem recordRefusal_inq (c : Code) (hdr : Word) (s : State) : (recordRefusal c hdr s).inq = s.inq := rfl
@[simp] theorem recordRefusal_out (c : Code) (hdr : Word) (s : State) : (recordRefusal c hdr s).out = s.out := rfl
@[simp] theorem recordRefusal_sched (c : Code) (hdr : Word) (s : State) :
    (recordRefusal c hdr s).sched = s.sched := rfl
@[simp] theorem recordRefusal_turn (c : Code) (hdr : Word) (s : State) : (recordRefusal c hdr s).turn = s.turn := rfl
@[simp] theorem recordRefusal_draws (c : Code) (hdr : Word) (s : State) :
    (recordRefusal c hdr s).draws = s.draws := rfl

/-! ### `refuse` -/

@[simp] theorem refuse_mem (p : Port) (c : Code) (hdr : Word) (s : State) : (refuse p c hdr s).mem = s.mem := rfl
@[simp] theorem refuse_act (p : Port) (c : Code) (hdr : Word) (s : State) : (refuse p c hdr s).act = s.act := rfl
@[simp] theorem refuse_abyp (p : Port) (c : Code) (hdr : Word) (s : State) : (refuse p c hdr s).abyp = s.abyp := rfl
@[simp] theorem refuse_pub (p : Port) (c : Code) (hdr : Word) (s : State) : (refuse p c hdr s).pub = s.pub := rfl
@[simp] theorem refuse_pbyp (p : Port) (c : Code) (hdr : Word) (s : State) : (refuse p c hdr s).pbyp = s.pbyp := rfl
@[simp] theorem refuse_param (p : Port) (c : Code) (hdr : Word) (s : State) :
    (refuse p c hdr s).param = s.param := rfl
@[simp] theorem refuse_fs (p : Port) (c : Code) (hdr : Word) (s : State) : (refuse p c hdr s).fs = s.fs := rfl
@[simp] theorem refuse_chg (p : Port) (c : Code) (hdr : Word) (s : State) : (refuse p c hdr s).chg = s.chg := rfl
@[simp] theorem refuse_laen (p : Port) (c : Code) (hdr : Word) (s : State) : (refuse p c hdr s).laen = s.laen := rfl
@[simp] theorem refuse_status (p : Port) (c : Code) (hdr : Word) (s : State) :
    (refuse p c hdr s).status = s.status ||| codeFlag c := rfl
@[simp] theorem refuse_lastcode (p : Port) (c : Code) (hdr : Word) (s : State) :
    (refuse p c hdr s).lastcode = codeByte c := rfl
@[simp] theorem refuse_lasterr (p : Port) (c : Code) (hdr : Word) (s : State) :
    (refuse p c hdr s).lasterr = hdr := rfl
@[simp] theorem refuse_slot (p : Port) (c : Code) (hdr : Word) (s : State) : (refuse p c hdr s).slot = s.slot := rfl
@[simp] theorem refuse_w (p : Port) (c : Code) (hdr : Word) (s : State) : (refuse p c hdr s).w = s.w := rfl
@[simp] theorem refuse_r (p : Port) (c : Code) (hdr : Word) (s : State) : (refuse p c hdr s).r = s.r := rfl
@[simp] theorem refuse_acc (p : Port) (c : Code) (hdr : Word) (s : State) : (refuse p c hdr s).acc = s.acc := rfl
@[simp] theorem refuse_accfill (p : Port) (c : Code) (hdr : Word) (s : State) :
    (refuse p c hdr s).accfill = s.accfill := rfl
@[simp] theorem refuse_mq (p : Port) (c : Code) (hdr : Word) (s : State) : (refuse p c hdr s).mq = s.mq := rfl
@[simp] theorem refuse_latest (p : Port) (c : Code) (hdr : Word) (s : State) :
    (refuse p c hdr s).latest = s.latest := rfl
@[simp] theorem refuse_havepath (p : Port) (c : Code) (hdr : Word) (s : State) :
    (refuse p c hdr s).havepath = s.havepath := rfl
@[simp] theorem refuse_view (p : Port) (c : Code) (hdr : Word) (s : State) : (refuse p c hdr s).view = s.view := rfl
@[simp] theorem refuse_cfg (p : Port) (c : Code) (hdr : Word) (s : State) : (refuse p c hdr s).cfg = s.cfg := rfl
@[simp] theorem refuse_inq (p : Port) (c : Code) (hdr : Word) (s : State) : (refuse p c hdr s).inq = s.inq := rfl
@[simp] theorem refuse_out (p : Port) (c : Code) (hdr : Word) (s : State) :
    (refuse p c hdr s).out = s.out.set p (s.out.get p ++ [mkResponse c []]) := rfl
@[simp] theorem refuse_sched (p : Port) (c : Code) (hdr : Word) (s : State) :
    (refuse p c hdr s).sched = s.sched := rfl
@[simp] theorem refuse_turn (p : Port) (c : Code) (hdr : Word) (s : State) : (refuse p c hdr s).turn = s.turn := rfl
@[simp] theorem refuse_draws (p : Port) (c : Code) (hdr : Word) (s : State) :
    (refuse p c hdr s).draws = s.draws := rfl

/-! ### `accept` -/

@[simp] theorem accept_mem (p : Port) (s : State) : (accept p s).mem = s.mem := rfl
@[simp] theorem accept_act (p : Port) (s : State) : (accept p s).act = s.act := rfl
@[simp] theorem accept_abyp (p : Port) (s : State) : (accept p s).abyp = s.abyp := rfl
@[simp] theorem accept_pub (p : Port) (s : State) : (accept p s).pub = s.pub := rfl
@[simp] theorem accept_pbyp (p : Port) (s : State) : (accept p s).pbyp = s.pbyp := rfl
@[simp] theorem accept_param (p : Port) (s : State) : (accept p s).param = s.param := rfl
@[simp] theorem accept_fs (p : Port) (s : State) : (accept p s).fs = s.fs := rfl
@[simp] theorem accept_chg (p : Port) (s : State) : (accept p s).chg = s.chg := rfl
@[simp] theorem accept_laen (p : Port) (s : State) : (accept p s).laen = s.laen := rfl
@[simp] theorem accept_status (p : Port) (s : State) : (accept p s).status = s.status := rfl
@[simp] theorem accept_lastcode (p : Port) (s : State) : (accept p s).lastcode = s.lastcode := rfl
@[simp] theorem accept_lasterr (p : Port) (s : State) : (accept p s).lasterr = s.lasterr := rfl
@[simp] theorem accept_slot (p : Port) (s : State) : (accept p s).slot = s.slot := rfl
@[simp] theorem accept_w (p : Port) (s : State) : (accept p s).w = s.w := rfl
@[simp] theorem accept_r (p : Port) (s : State) : (accept p s).r = s.r := rfl
@[simp] theorem accept_acc (p : Port) (s : State) : (accept p s).acc = s.acc := rfl
@[simp] theorem accept_accfill (p : Port) (s : State) : (accept p s).accfill = s.accfill := rfl
@[simp] theorem accept_mq (p : Port) (s : State) : (accept p s).mq = s.mq := rfl
@[simp] theorem accept_latest (p : Port) (s : State) : (accept p s).latest = s.latest := rfl
@[simp] theorem accept_havepath (p : Port) (s : State) : (accept p s).havepath = s.havepath := rfl
@[simp] theorem accept_view (p : Port) (s : State) : (accept p s).view = s.view := rfl
@[simp] theorem accept_cfg (p : Port) (s : State) : (accept p s).cfg = s.cfg := rfl
@[simp] theorem accept_inq (p : Port) (s : State) : (accept p s).inq = s.inq.set p (s.inq.get p).tail := rfl
@[simp] theorem accept_out (p : Port) (s : State) : (accept p s).out = s.out := rfl
@[simp] theorem accept_sched (p : Port) (s : State) : (accept p s).sched = s.sched.tail := rfl
@[simp] theorem accept_turn (p : Port) (s : State) : (accept p s).turn = s.turn + 1 := rfl
@[simp] theorem accept_draws (p : Port) (s : State) : (accept p s).draws = s.draws := rfl

/-! ### `endTurn` -/

@[simp] theorem endTurn_mem (s : State) : (endTurn s).mem = s.mem := rfl
@[simp] theorem endTurn_act (s : State) : (endTurn s).act = s.act := rfl
@[simp] theorem endTurn_abyp (s : State) : (endTurn s).abyp = s.abyp := rfl
@[simp] theorem endTurn_pub (s : State) : (endTurn s).pub = s.pub := rfl
@[simp] theorem endTurn_pbyp (s : State) : (endTurn s).pbyp = s.pbyp := rfl
@[simp] theorem endTurn_param (s : State) : (endTurn s).param = s.param := rfl
@[simp] theorem endTurn_fs (s : State) : (endTurn s).fs = s.fs := rfl
@[simp] theorem endTurn_chg (s : State) : (endTurn s).chg = s.chg := rfl
@[simp] theorem endTurn_laen (s : State) : (endTurn s).laen = s.laen := rfl
@[simp] theorem endTurn_status (s : State) : (endTurn s).status = s.status := rfl
@[simp] theorem endTurn_lastcode (s : State) : (endTurn s).lastcode = s.lastcode := rfl
@[simp] theorem endTurn_lasterr (s : State) : (endTurn s).lasterr = s.lasterr := rfl
@[simp] theorem endTurn_slot (s : State) : (endTurn s).slot = s.slot := rfl
@[simp] theorem endTurn_w (s : State) : (endTurn s).w = s.w := rfl
@[simp] theorem endTurn_r (s : State) : (endTurn s).r = s.r := rfl
@[simp] theorem endTurn_acc (s : State) : (endTurn s).acc = s.acc := rfl
@[simp] theorem endTurn_accfill (s : State) : (endTurn s).accfill = s.accfill := rfl
@[simp] theorem endTurn_mq (s : State) : (endTurn s).mq = s.mq := rfl
@[simp] theorem endTurn_latest (s : State) : (endTurn s).latest = s.latest := rfl
@[simp] theorem endTurn_havepath (s : State) : (endTurn s).havepath = s.havepath := rfl
@[simp] theorem endTurn_view (s : State) : (endTurn s).view = s.view := rfl
@[simp] theorem endTurn_cfg (s : State) : (endTurn s).cfg = s.cfg := rfl
@[simp] theorem endTurn_inq (s : State) : (endTurn s).inq = s.inq := rfl
@[simp] theorem endTurn_out (s : State) : (endTurn s).out = s.out := rfl
@[simp] theorem endTurn_sched (s : State) : (endTurn s).sched = s.sched.tail := rfl
@[simp] theorem endTurn_turn (s : State) : (endTurn s).turn = s.turn := rfl
@[simp] theorem endTurn_draws (s : State) : (endTurn s).draws = s.draws := rfl

/-! ### `slotWrite` -/

@[simp] theorem slotWrite_mem (i : Nat) (blk : List F) (s : State) : (slotWrite i blk s).mem = s.mem := rfl
@[simp] theorem slotWrite_act (i : Nat) (blk : List F) (s : State) : (slotWrite i blk s).act = s.act := rfl
@[simp] theorem slotWrite_abyp (i : Nat) (blk : List F) (s : State) : (slotWrite i blk s).abyp = s.abyp := rfl
@[simp] theorem slotWrite_pub (i : Nat) (blk : List F) (s : State) : (slotWrite i blk s).pub = s.pub := rfl
@[simp] theorem slotWrite_pbyp (i : Nat) (blk : List F) (s : State) : (slotWrite i blk s).pbyp = s.pbyp := rfl
@[simp] theorem slotWrite_param (i : Nat) (blk : List F) (s : State) : (slotWrite i blk s).param = s.param := rfl
@[simp] theorem slotWrite_fs (i : Nat) (blk : List F) (s : State) : (slotWrite i blk s).fs = s.fs := rfl
@[simp] theorem slotWrite_chg (i : Nat) (blk : List F) (s : State) : (slotWrite i blk s).chg = s.chg := rfl
@[simp] theorem slotWrite_laen (i : Nat) (blk : List F) (s : State) : (slotWrite i blk s).laen = s.laen := rfl
@[simp] theorem slotWrite_status (i : Nat) (blk : List F) (s : State) : (slotWrite i blk s).status = s.status := rfl
@[simp] theorem slotWrite_lastcode (i : Nat) (blk : List F) (s : State) :
    (slotWrite i blk s).lastcode = s.lastcode := rfl
@[simp] theorem slotWrite_lasterr (i : Nat) (blk : List F) (s : State) :
    (slotWrite i blk s).lasterr = s.lasterr := rfl
@[simp] theorem slotWrite_slot (i : Nat) (blk : List F) (s : State) :
    (slotWrite i blk s).slot = slotSet s.cfg.l i blk s.slot := rfl
@[simp] theorem slotWrite_w (i : Nat) (blk : List F) (s : State) : (slotWrite i blk s).w = s.w := rfl
@[simp] theorem slotWrite_r (i : Nat) (blk : List F) (s : State) : (slotWrite i blk s).r = s.r := rfl
@[simp] theorem slotWrite_acc (i : Nat) (blk : List F) (s : State) : (slotWrite i blk s).acc = s.acc := rfl
@[simp] theorem slotWrite_accfill (i : Nat) (blk : List F) (s : State) :
    (slotWrite i blk s).accfill = s.accfill := rfl
@[simp] theorem slotWrite_mq (i : Nat) (blk : List F) (s : State) : (slotWrite i blk s).mq = s.mq := rfl
@[simp] theorem slotWrite_latest (i : Nat) (blk : List F) (s : State) : (slotWrite i blk s).latest = s.latest := rfl
@[simp] theorem slotWrite_havepath (i : Nat) (blk : List F) (s : State) :
    (slotWrite i blk s).havepath = s.havepath := rfl
@[simp] theorem slotWrite_view (i : Nat) (blk : List F) (s : State) : (slotWrite i blk s).view = s.view := rfl
@[simp] theorem slotWrite_cfg (i : Nat) (blk : List F) (s : State) : (slotWrite i blk s).cfg = s.cfg := rfl
@[simp] theorem slotWrite_inq (i : Nat) (blk : List F) (s : State) : (slotWrite i blk s).inq = s.inq := rfl
@[simp] theorem slotWrite_out (i : Nat) (blk : List F) (s : State) : (slotWrite i blk s).out = s.out := rfl
@[simp] theorem slotWrite_sched (i : Nat) (blk : List F) (s : State) : (slotWrite i blk s).sched = s.sched := rfl
@[simp] theorem slotWrite_turn (i : Nat) (blk : List F) (s : State) : (slotWrite i blk s).turn = s.turn := rfl
@[simp] theorem slotWrite_draws (i : Nat) (blk : List F) (s : State) : (slotWrite i blk s).draws = s.draws := rfl

end Sys2Proof.Machine
end

