-- ==== Sys2Proof/Laws/Slots.lean ====
section
/-!
SUPPORT. The ring's slots as a memory: a read after a write to the same slot gives the block written, a write leaves every
other slot alone, and a write keeps the canonical form.
-/

namespace Sys2Proof.Machine

/-- The numbers of a list of slots, strictly rising. -/
abbrev Rising (m : List (Nat × List F)) : Prop := (m.map Prod.fst).Pairwise (· < ·)

theorem rising_tail {e : Nat × List F} {m : List (Nat × List F)} (h : Rising (e :: m)) : Rising m := by
  simp only [Rising, List.map_cons, List.pairwise_cons] at h
  exact h.2

theorem rising_head {e : Nat × List F} {m : List (Nat × List F)} (h : Rising (e :: m)) :
    ∀ d ∈ m, e.1 < d.1 := by
  simp only [Rising, List.map_cons, List.pairwise_cons] at h
  exact fun d hd => h.1 d.1 (List.mem_map_of_mem hd)

theorem slotsWf_rising {l cap : Nat} {m : List (Nat × List F)} (h : slotsWf l cap m = true) : Rising m := by
  simp only [slotsWf, Bool.and_eq_true, decide_eq_true_eq] at h
  exact h.1

theorem slotsWf_entry {l cap : Nat} {m : List (Nat × List F)} (h : slotsWf l cap m = true) :
    ∀ e ∈ m, e.1 < cap ∧ e.2.length = l ∧ e.2 ≠ zeroBlock l := by
  simp only [slotsWf, Bool.and_eq_true, List.all_eq_true, decide_eq_true_eq] at h
  exact fun e he => ⟨(h.2 e he).1.1, (h.2 e he).1.2, (h.2 e he).2⟩

theorem slotsWf_intro {l cap : Nat} {m : List (Nat × List F)} (hr : Rising m)
    (he : ∀ e ∈ m, e.1 < cap ∧ e.2.length = l ∧ e.2 ≠ zeroBlock l) : slotsWf l cap m = true := by
  simp only [slotsWf, Bool.and_eq_true, List.all_eq_true, decide_eq_true_eq]
  exact ⟨hr, fun e h => ⟨⟨(he e h).1, (he e h).2.1⟩, (he e h).2.2⟩⟩

/-- A slot below every listed one reads as an unlisted slot does. -/
theorem slotGet_of_below (l : Nat) {m : List (Nat × List F)} {j : Nat} (h : ∀ d ∈ m, j < d.1) :
    slotGet l m j = zeroBlock l := by
  induction m with
  | nil => rfl
  | cons e m ih =>
    obtain ⟨i, b⟩ := e
    have hi : i ≠ j := by
      have := h (i, b) (by simp)
      simp only at this
      omega
    simp only [slotGet, if_neg hi]
    exact ih fun d hd => h d (by simp [hd])

theorem slotGet_slotSet_same (l j : Nat) (blk : List F) {m : List (Nat × List F)} (h : Rising m) :
    slotGet l (slotSet l j blk m) j = blk := by
  induction m with
  | nil => by_cases hz : blk = zeroBlock l <;> simp [slotSet, slotGet, hz]
  | cons e m ih =>
    obtain ⟨i, b⟩ := e
    by_cases hlt : i < j
    · have hne : i ≠ j := by omega
      simp [slotSet, hlt, slotGet, hne, ih (rising_tail h)]
    · by_cases hz : blk = zeroBlock l
      · by_cases heq : i = j
        · subst heq
          simpa [slotSet, hz] using slotGet_of_below l (rising_head h)
        · have hbelow : ∀ d ∈ (i, b) :: m, j < d.1 := by
            intro d hd
            rcases List.mem_cons.1 hd with rfl | hd
            · simp only
              omega
            · have := rising_head h d hd
              simp only at this
              omega
          simpa [slotSet, hlt, hz, heq] using slotGet_of_below l hbelow
      · simp [slotSet, hlt, hz, slotGet]

theorem slotGet_slotSet_other (l : Nat) {j k : Nat} (hjk : k ≠ j) (blk : List F) {m : List (Nat × List F)} :
    slotGet l (slotSet l j blk m) k = slotGet l m k := by
  have hkj : j ≠ k := fun h => hjk h.symm
  induction m with
  | nil => by_cases hz : blk = zeroBlock l <;> simp [slotSet, slotGet, hz, hkj]
  | cons e m ih =>
    obtain ⟨i, b⟩ := e
    by_cases hlt : i < j
    · by_cases hik : i = k <;> simp [slotSet, hlt, slotGet, hik, ih]
      subst hik
      simp [hlt, slotGet]
    · by_cases hz : blk = zeroBlock l
      · by_cases heq : i = j
        · subst heq
          simp [slotSet, hz, slotGet, hkj]
        · simp [slotSet, hlt, hz, heq]
      · by_cases heq : i = j
        · subst heq
          simp [slotSet, hz, slotGet, hkj]
        · simp [slotSet, hlt, hz, heq, slotGet, hkj]

/-- Every entry after a write is the one written or one from before. -/
theorem mem_slotSet {l j : Nat} {blk : List F} {m : List (Nat × List F)} {e : Nat × List F}
    (h : e ∈ slotSet l j blk m) : (e = (j, blk) ∧ blk ≠ zeroBlock l) ∨ e ∈ m := by
  induction m with
  | nil => by_cases hz : blk = zeroBlock l <;> simp_all [slotSet]
  | cons d m ih =>
    obtain ⟨i, b⟩ := d
    by_cases hlt : i < j
    · simp only [slotSet, hlt, if_true, List.mem_cons] at h ⊢
      rcases h with h | h
      · exact .inr (.inl h)
      · exact (ih h).imp id .inr
    · simp only [slotSet, if_neg hlt, List.mem_cons] at h ⊢
      by_cases hz : blk = zeroBlock l <;> by_cases heq : i = j <;>
        simp only [hz, heq, if_true, if_false, List.mem_cons] at h ⊢ <;> tauto

theorem rising_slotSet (l j : Nat) (blk : List F) {m : List (Nat × List F)} (h : Rising m) :
    Rising (slotSet l j blk m) := by
  induction m with
  | nil => by_cases hz : blk = zeroBlock l <;> simp [slotSet, hz, Rising]
  | cons e m ih =>
    obtain ⟨i, b⟩ := e
    have ht := rising_tail h
    have hh : ∀ d ∈ m, i < d.1 := rising_head h
    by_cases hlt : i < j
    · have : Rising ((i, b) :: slotSet l j blk m) := by
        simp only [Rising, List.map_cons, List.pairwise_cons]
        refine ⟨fun k hk => ?_, ih ht⟩
        obtain ⟨d, hd, rfl⟩ := List.mem_map.1 hk
        rcases mem_slotSet hd with ⟨rfl, -⟩ | hd
        · exact hlt
        · exact hh d hd
      simpa [slotSet, hlt] using this
    · have key : ∀ t : List (Nat × List F), Rising t → (∀ d ∈ t, j < d.1) → Rising ((j, blk) :: t) := by
        intro t h1 h2
        simp only [Rising, List.map_cons, List.pairwise_cons]
        refine ⟨fun k hk => ?_, h1⟩
        obtain ⟨d, hd, rfl⟩ := List.mem_map.1 hk
        exact h2 d hd
      by_cases heq : i = j
      · subst heq
        by_cases hz : blk = zeroBlock l
        · simpa [slotSet, hz] using ht
        · simpa [slotSet, hz] using key m ht hh
      · by_cases hz : blk = zeroBlock l
        · simpa [slotSet, hlt, hz, heq] using h
        · have : ∀ d ∈ (i, b) :: m, j < d.1 := by
            intro d hd
            rcases List.mem_cons.1 hd with rfl | hd
            · simp only
              omega
            · have := hh d hd
              omega
          simpa [slotSet, hlt, hz, heq] using key _ h this

/-- A slot write keeps the canonical form. -/
theorem slotsWf_slotSet {l cap j : Nat} {blk : List F} {m : List (Nat × List F)} (h : slotsWf l cap m = true)
    (hj : j < cap) (hl : blk.length = l) : slotsWf l cap (slotSet l j blk m) = true := by
  refine slotsWf_intro (rising_slotSet l j blk (slotsWf_rising h)) fun e he => ?_
  rcases mem_slotSet he with ⟨rfl, hz⟩ | he
  · exact ⟨hj, hl, hz⟩
  · exact slotsWf_entry h e he

/-- Reset lists no slot, so its slots are in canonical form. -/
theorem slotsWf_reset (g : Params) : slotsWf g.l g.cap (State.resetWith g).slot = true := rfl

/-- A read gives `L` words. -/
theorem slotGet_length {l cap : Nat} {m : List (Nat × List F)} (h : slotsWf l cap m = true) (j : Nat) :
    (slotGet l m j).length = l := by
  have hall : ∀ e ∈ m, e.2.length = l := fun e he => (slotsWf_entry h e he).2.1
  clear h
  induction m with
  | nil => simp [slotGet, zeroBlock]
  | cons e m ih =>
    obtain ⟨i, b⟩ := e
    by_cases hij : i = j
    · simpa [slotGet, hij] using hall (i, b) (by simp)
    · simpa [slotGet, hij] using ih fun d hd => hall d (by simp [hd])

end Sys2Proof.Machine
end

