-- ==== Sys2Proof/Laws/Ops.lean ====
section
/-!
SUPPORT. One lemma for each shared operation that says once everything it can do, for proofs to cite instead of
unfolding it.
-/

namespace Sys2Proof.Machine

/-! ### The ring -/

/-- The number of the next block a take reads: past the blocks that were overwritten (R196). -/
def takeIndex (s : State) : Nat := if s.cfg.cap < s.w - s.r then s.w - s.cfg.cap else s.r

theorem ringTake_empty {s : State} (h : s.w = s.r) : ringTake s = none := by simp [ringTake, h]

theorem ringTake_nonempty {s : State} (h : s.w ≠ s.r) :
    ringTake s = some (slotRead s (takeIndex s % s.cfg.cap), { s with r := takeIndex s + 1 }) := by
  simp [ringTake, takeIndex, h]

/-- What a take that returns a block has done. -/
theorem ringTake_some {s t : State} {blk : List F} (h : ringTake s = some (blk, t)) :
    s.w ≠ s.r ∧ blk = slotRead s (takeIndex s % s.cfg.cap) ∧ t = { s with r := takeIndex s + 1 } := by
  by_cases hw : s.w = s.r
  · simp [ringTake_empty hw] at h
  · rw [ringTake_nonempty hw] at h
    simp only [Option.some.injEq, Prod.mk.injEq] at h
    exact ⟨hw, h.1.symm, h.2.symm⟩

theorem ringTake_none {s : State} (h : ringTake s = none) : s.w = s.r := by
  by_contra hw
  simp [ringTake_nonempty hw] at h

/-- A take keeps `R` at or below `W`. -/
theorem takeIndex_lt {s : State} (hrw : s.r ≤ s.w) (hne : s.w ≠ s.r) (hcap : 1 ≤ s.cfg.cap) : takeIndex s < s.w := by
  unfold takeIndex
  split <;> omega

theorem slotRead_slotWrite_same {s : State} (h : Rising s.slot) (i : Nat) (blk : List F) :
    slotRead (slotWrite i blk s) i = blk := slotGet_slotSet_same _ _ _ h

theorem slotRead_slotWrite_other {s : State} {i j : Nat} (h : j ≠ i) (blk : List F) :
    slotRead (slotWrite i blk s) j = slotRead s j := slotGet_slotSet_other _ h _

/-! ### The command streams -/

/-- A turn that presents a command presents the head of a stream. -/
theorem nextCommand_command {p q : Port} {s : State} {pk : Packet} (h : nextCommand p s = .command q pk) :
    ∃ rest, s.inq.get q = pk :: rest := by
  unfold nextCommand at h
  split at h
  · next pk' rest heq =>
    cases h
    exact ⟨rest, heq⟩
  · split at h
    · next pk' rest heq =>
      cases h
      exact ⟨rest, heq⟩
    · cases h

/-- A turn with nothing to present finds both streams empty. -/
theorem nextCommand_idle {p : Port} {s : State} (h : nextCommand p s = .idle) : s.inq = ⟨[], []⟩ := by
  unfold nextCommand at h
  split at h
  · cases h
  · next h1 =>
    split at h
    · cases h
    · next h2 =>
      rcases hq : s.inq with ⟨rt, pr⟩
      cases p <;> simp_all [PerPort.get, Port.other]

theorem nextCommand_ne_reset (p : Port) (s : State) : nextCommand p s ≠ .reset := by
  unfold nextCommand
  split
  · simp
  · split <;> simp

/-- A port with a command waiting presents it on its turn. -/
theorem nextCommand_head {p : Port} {s : State} {pk : Packet} {rest : List Packet} (h : s.inq.get p = pk :: rest) :
    nextCommand p s = .command p pk := by simp [nextCommand, h]

theorem nextEvent_command {p : Port} {s : State} {pk : Packet} (h : nextEvent s = .command p pk) :
    ∃ rest, s.inq.get p = pk :: rest := by
  unfold nextEvent at h
  split at h
  · cases h
  · exact nextCommand_command h
  · exact nextCommand_command h

theorem nextEvent_idle {s : State} (h : nextEvent s = .idle) : s.inq = ⟨[], []⟩ := by
  unfold nextEvent at h
  split at h
  · cases h
  · exact nextCommand_idle h
  · exact nextCommand_idle h

theorem nextEvent_reset {s : State} (h : nextEvent s = .reset) : ∃ rest, s.sched = .reset :: rest := by
  unfold nextEvent at h
  split at h
  · next rest heq => exact ⟨rest, heq⟩
  · exact absurd h (nextCommand_ne_reset _ _)
  · exact absurd h (nextCommand_ne_reset _ _)

/-- A packet presented next is the next event. -/
theorem nextEvent_presentNext (p : Port) (pk : Packet) (s : State) :
    nextEvent (presentNext p pk s) = .command p pk := by
  simp [nextEvent, presentNext, nextCommand]

/-! ### One step -/

/-- What one step can do: nothing but end a turn, reset, execute a decoded command, or refuse a packet. -/
theorem step_cases {s t : State} (h : step s = .next t) :
    (nextEvent s = .idle ∧ t = endTurn s) ∨
    (nextEvent s = .reset ∧ t = resetEvent s) ∨
    (∃ p pk i, nextEvent s = .command p pk ∧ decode s.cfg.l p pk = .ok i ∧ exec i (accept p s) = .next t) ∨
    (∃ p pk e, nextEvent s = .command p pk ∧ decode s.cfg.l p pk = .error e ∧
      t = refuse p (decodeErrorCode e) pk.header (accept p s)) := by
  unfold step at h
  split at h
  · next he =>
    cases h
    exact .inl ⟨he, rfl⟩
  · next he =>
    cases h
    exact .inr (.inl ⟨he, rfl⟩)
  · next p pk he =>
    split at h
    · next i hd => exact .inr (.inr (.inl ⟨p, pk, i, he, hd, h⟩))
    · next e hd =>
      cases h
      exact .inr (.inr (.inr ⟨p, pk, e, he, hd, rfl⟩))

/-! ### The datapath -/

/-- Running sections keeps the number of section memories. -/
theorem runSections_length (n : Nat) (cs : List Coefs) (ms : List SecMem) (v : F) (k : Nat) :
    (runSections n cs ms v k).mem.length = ms.length := by
  induction n generalizing cs ms v k with
  | zero => simp [runSections]
  | succ n ih =>
    cases cs with
    | nil => simp [runSections]
    | cons c cs =>
      cases ms with
      | nil => simp [runSections]
      | cons m ms => simp [runSections, ih]

/-- The memories of the slots from `n` on are not written (R113). -/
theorem runSections_drop (n : Nat) (cs : List Coefs) (ms : List SecMem) (v : F) (k : Nat) :
    (runSections n cs ms v k).mem.drop n = ms.drop n := by
  induction n generalizing cs ms v k with
  | zero => simp [runSections]
  | succ n ih =>
    cases cs with
    | nil => simp [runSections]
    | cons c cs =>
      cases ms with
      | nil => simp [runSections]
      | cons m ms => simp [runSections, ih]

theorem stageStep_length (byp : Bool) (g : StageSet) (ms : List SecMem) (v : F) (k : Nat) :
    (stageStep byp g ms v k).mem.length = ms.length := by
  cases byp <;> simp [stageStep, runSections_length]

@[simp] theorem stageStep_bypassed (g : StageSet) (ms : List SecMem) (v : F) (k : Nat) :
    stageStep true g ms v k = ⟨v, ms, k⟩ := rfl

@[simp] theorem adoptMem_length (old new : Nat) (ms : List SecMem) : (adoptMem old new ms).length = ms.length := by
  simp [adoptMem]

/-- A slot's memory after adoption: cleared exactly where the enable changes (R117). -/
theorem adoptMem_getElem? (old new i : Nat) (ms : List SecMem) :
    (adoptMem old new ms)[i]? =
      ms[i]?.map fun m => if decide (i < old) != decide (i < new) then SecMem.zero else m := by
  simp [adoptMem]

/-- With an unchanged section count adoption clears nothing. -/
@[simp] theorem adoptMem_same (n : Nat) (ms : List SecMem) : adoptMem n n ms = ms := by
  apply List.ext_getElem?
  intro i
  simp [adoptMem_getElem?]

/-! ### Values brought into a range -/

theorem isFinite_iff (a : F) : isFinite a = true ↔ fMag a < 0x7F800000 := decide_eq_true_iff

theorem isNaN_iff (a : F) : isNaN a = true ↔ 0x7F800000 < fMag a := decide_eq_true_iff

/-- A NaN draw is a quiet NaN, whatever is drawn (R12). -/
theorem quietNaN_isQuietNaN (k : Nat) : isQuietNaN (quietNaN k) = true := by
  have hmag : fMag (quietNaN k) = (Config.nanDraw k).toNat % 2 ^ 31 ||| 0x7FC00000 := by
    simp only [fMag, quietNaN, BitVec.toNat_or, Nat.or_mod_two_pow]
    rfl
  have hle : 0x7FC00000 ≤ fMag (quietNaN k) := hmag ▸ Nat.right_le_or
  have hnan : isNaN (quietNaN k) = true := (isNaN_iff _).2 (by omega)
  have hbit : (quietNaN k).getLsbD 22 = true := by simp [quietNaN]
  simp [isQuietNaN, hnan, hbit]

/-- `finitize` gives a finite value, and leaves a finite one alone. -/
theorem finitize_isFinite (a : F) : isFinite (finitize a) = true := by
  unfold finitize
  split
  · assumption
  · have hlt : fMag (a &&& 0xBFFFFFFF#32) < 2 ^ 30 := by
      apply Nat.lt_pow_two_of_testBit
      intro i hi
      have h30 : (0xBFFFFFFF#32).toNat.testBit 30 = false := by decide
      simp only [fMag, BitVec.toNat_and, Nat.testBit_mod_two_pow, Nat.testBit_and]
      by_cases h : i = 30
      · rw [h, h30]
        simp
      · have : ¬ i < 31 := by omega
        simp [this]
    exact (isFinite_iff _).2 (by omega)

theorem finitize_of_isFinite {a : F} (h : isFinite a = true) : finitize a = a := by simp [finitize, h]

/-- A finite value above zero comes out: the sign is clear, the magnitude is not 0 and below that of an infinity. -/
theorem positiveFinite_spec (a : F) :
    isFinite (positiveFinite a) = true ∧ fSign (positiveFinite a) = false ∧ 0 < fMag (positiveFinite a) := by
  have hm : ∀ b : F, (b &&& 0x7FFFFFFF#32).toNat = fMag b := fun b => by
    simpa [fMag] using Nat.and_two_pow_sub_one_eq_mod b.toNat 31
  have hf := (isFinite_iff _).mp (finitize_isFinite a)
  have hn := hm (finitize a)
  unfold positiveFinite
  simp only
  split
  · exact ⟨by decide, by decide, by decide⟩
  · rename_i hz
    generalize finitize a &&& 0x7FFFFFFF#32 = b at hn hz
    have h0 : 0 < b.toNat := Nat.pos_of_ne_zero fun h => hz (BitVec.eq_of_toNat_eq h)
    have hb : fMag b = b.toNat := Nat.mod_eq_of_lt (by omega)
    exact ⟨(isFinite_iff b).mpr (by omega), BitVec.msb_eq_false_iff_two_mul_lt.mpr (by omega), by omega⟩

/-- Every section the factory gives within the bounds is finite (F4). -/
theorem factorySection_finite {p : Snapshot} {fs : F} (h : inBounds p fs = true) (c : Coefs) :
    coefsFinite (factorySection p fs c) = true := by
  simp [factorySection, h, coefsFinite, finitizeCoefs, finitize_isFinite]

end Sys2Proof.Machine
end

