-- ==== Sys2Proof/Laws/PerInstr.lean ====
section
/-!
SUPPORT. The family `HeaderRow`, one lemma per command: a well-formed command's header is its row's (R89, R90) and its payload
has the length the header implies (R83).
-/

namespace Sys2Proof.Laws.HeaderRow

open Sys2Proof

/-- The header of a well-formed command matches its opcode's row, selects that opcode, and implies the payload's length. -/
def Statement (i : Instr) : Prop :=
  ∀ l, i.WF l →
    headerMatches (opOf i) (headerOf i) = true ∧ opOfByte (opcField (headerOf i)) = some (opOf i) ∧
    paylen l (headerOf i) = (payloadOf i).length

theorem statement_of {i : Instr} (h1 : headerMatches (opOf i) (headerOf i) = true)
    (h2 : opcField (headerOf i) = opByte (opOf i)) (h3 : ∀ l, i.WF l → paylen l (headerOf i) = (payloadOf i).length) :
    Statement i := fun l h => ⟨h1, h2 ▸ opOfByte_opByte _, h3 l h⟩

theorem nop (p : Port) : Statement (.nop p) :=
  statement_of (by simp only [headerOf, opOf]; rfl) (by simp [headerOf, opOf]) fun _ _ => by
    simp [headerOf, opOf, paylen, payloadOf, opOfByte_opByte]

theorem sync : Statement .sync :=
  statement_of (by simp only [headerOf, opOf]; rfl) (by simp [headerOf, opOf]) fun _ _ => by
    simp [headerOf, opOf, paylen, payloadOf, opOfByte_opByte]

theorem proc (x : F) : Statement (.proc x) :=
  statement_of (by simp only [headerOf, opOf]; rfl) (by simp [headerOf, opOf]) fun _ _ => by
    simp [headerOf, opOf, paylen, payloadOf, opOfByte_opByte]

theorem push (blk : List F) : Statement (.push blk) := by
  intro l h
  simp only [Instr.WF, Instr.wellFormed, beq_iff_eq] at h
  refine ⟨by simp only [headerOf, opOf]; rfl, ?_, ?_⟩ <;> simp [headerOf, opOf, paylen, payloadOf, opOfByte_opByte, h]

theorem upds (stg : Stage) (secs : List Coefs) : Statement (.upds stg secs) := by
  intro l h
  simp only [Instr.WF, Instr.wellFormed, Bool.and_eq_true, decide_eq_true_eq] at h
  have hs : slots stg ≤ 4 := by cases stg <;> decide
  have hn : secs.length - 1 < 4 := by omega
  refine ⟨?_, ?_, ?_⟩
  · simp only [headerOf, opOf]
    generalize secs.length - 1 = n at hn
    cases stg <;> interval_cases n <;> rfl
  · simp [headerOf, opOf, opOfByte_opByte]
  · simp only [headerOf, paylen, opcField_packHeader, opOfByte_opByte, nsecField_packHeader, BitVec.toNat_ofNat,
      payloadOf, sectionsWords_length]
    omega

theorem sbyp (stg : Stage) (v : Bool) : Statement (.sbyp stg v) := by
  intro _ _
  cases stg <;> cases v <;> exact ⟨rfl, rfl, rfl⟩

theorem wpar (p : Port) (pid : Param) (w : Word) : Statement (.wpar p pid w) := by
  apply statement_of
  · simp only [headerOf, opOf]
    cases pid <;> rfl
  · simp [headerOf, opOf]
  · intro _ _
    simp [headerOf, paylen, payloadOf, opOfByte_opByte]

theorem srate (p : Port) (fs : F) : Statement (.srate p fs) :=
  statement_of (by simp only [headerOf, opOf]; rfl) (by simp [headerOf, opOf]) fun _ _ => by
    simp [headerOf, opOf, paylen, payloadOf, opOfByte_opByte]

theorem ntfy (p : Port) : Statement (.ntfy p) :=
  statement_of (by simp only [headerOf, opOf]; rfl) (by simp [headerOf, opOf]) fun _ _ => by
    simp [headerOf, opOf, paylen, payloadOf, opOfByte_opByte]

theorem rfsh : Statement .rfsh :=
  statement_of (by simp only [headerOf, opOf]; rfl) (by simp [headerOf, opOf]) fun _ _ => by
    simp [headerOf, opOf, paylen, payloadOf, opOfByte_opByte]

theorem magr (freqs : List F) : Statement (.magr freqs) := by
  intro l h
  simp only [Instr.WF, Instr.wellFormed, decide_eq_true_eq] at h
  refine ⟨?_, ?_, ?_⟩
  · simp only [headerMatches, beq_iff_eq]
    apply BitVec.eq_of_getLsbD_eq
    intro i hi
    simp only [headerOf, opOf, BitVec.getLsbD_and, packHeader_getLsbD]
    by_cases h16 : i < 16
    · have : (opMask .magr).getLsbD i = false := by interval_cases i <;> rfl
      have h2 : (opMatch .magr).getLsbD i = false := by interval_cases i <;> rfl
      simp [this, h2]
    · interval_cases i <;> first | omega | rfl
  · simp [headerOf, opOf, opOfByte_opByte]
  · simp only [headerOf, paylen, opcField_packHeader, opOfByte_opByte, immField_packHeader, BitVec.toNat_ofNat,
      payloadOf]
    omega

theorem wview (vid : View) (w : F) : Statement (.wview vid w) := by
  apply statement_of
  · simp only [headerOf, opOf]
    cases vid <;> rfl
  · simp [headerOf, opOf]
  · intro _ _
    simp [headerOf, paylen, payloadOf, opOfByte_opByte]

theorem pop : Statement .pop :=
  statement_of (by simp only [headerOf, opOf]; rfl) (by simp [headerOf, opOf]) fun _ _ => by
    simp [headerOf, opOf, paylen, payloadOf, opOfByte_opByte]

theorem avail : Statement .avail :=
  statement_of (by simp only [headerOf, opOf]; rfl) (by simp [headerOf, opOf]) fun _ _ => by
    simp [headerOf, opOf, paylen, payloadOf, opOfByte_opByte]

theorem anlz : Statement .anlz :=
  statement_of (by simp only [headerOf, opOf]; rfl) (by simp [headerOf, opOf]) fun _ _ => by
    simp [headerOf, opOf, paylen, payloadOf, opOfByte_opByte]

theorem genp : Statement .genp :=
  statement_of (by simp only [headerOf, opOf]; rfl) (by simp [headerOf, opOf]) fun _ _ => by
    simp [headerOf, opOf, paylen, payloadOf, opOfByte_opByte]

theorem rdpath : Statement .rdpath :=
  statement_of (by simp only [headerOf, opOf]; rfl) (by simp [headerOf, opOf]) fun _ _ => by
    simp [headerOf, opOf, paylen, payloadOf, opOfByte_opByte]

theorem rstat (p : Port) : Statement (.rstat p) :=
  statement_of (by simp only [headerOf, opOf]; rfl) (by simp [headerOf, opOf]) fun _ _ => by
    simp [headerOf, opOf, paylen, payloadOf, opOfByte_opByte]

theorem clrst : Statement .clrst :=
  statement_of (by simp only [headerOf, opOf]; rfl) (by simp [headerOf, opOf]) fun _ _ => by
    simp [headerOf, opOf, paylen, payloadOf, opOfByte_opByte]

end Sys2Proof.Laws.HeaderRow
end

