-- ==== Sys2Proof/Laws/Vocabulary.lean ====
section
/-!
SUPPORT. The vocabulary of the statements (Safety.lean) against the model's own operations: responses, refusals, valid rates.
-/

namespace Sys2Proof.Machine

theorem respHeader_ok (n : Nat) : respHeader n .ok = okHeader n := by
  apply BitVec.eq_of_toNat_eq
  simp only [respHeader, okHeader, codeByte, BitVec.toNat_append, BitVec.toNat_ofNat, Nat.shiftLeft_eq, Nat.zero_mod, Nat.or_zero]
  omega

/-- A response without data is its code. -/
theorem mkResponse_nil (c : Code) : mkResponse c [] = ⟨(codeByte c).setWidth 32, []⟩ := by cases c <;> rfl

theorem respond_ok (p : Port) (ws : List Word) (s : State) :
    respond p .ok ws s = answered p (okHeader ws.length) ws s := by
  simp [respond, answered, mkResponse, respHeader_ok]

theorem respond_ok_nil (p : Port) (s : State) : respond p .ok [] s = answered p 0x00000000#32 [] s := rfl

theorem respond_ok_one (p : Port) (w : Word) (s : State) : respond p .ok [w] s = answered p 0x00010000#32 [w] s :=
  respond_ok p [w] s

theorem respond_empty (p : Port) (s : State) : respond p .empty [] s = answered p 0x00000001#32 [] s := rfl

theorem refuse_invalidConfiguration (p : Port) (h : Word) (s : State) :
    refuse p .invalidConfiguration h s = refusedWith p 2 0x1#32 h s := rfl

theorem refuse_coefRejected (p : Port) (h : Word) (s : State) :
    refuse p .coefRejected h s = refusedWith p 3 0x2#32 h s := rfl

theorem refuse_illegalCommand (p : Port) (h : Word) (s : State) :
    refuse p .illegalCommand h s = refusedWith p 4 0x4#32 h s := rfl

theorem refuse_portViolation (p : Port) (h : Word) (s : State) :
    refuse p .portViolation h s = refusedWith p 5 0x8#32 h s := rfl

/-- The exact value of a finite pattern is positive when its sign is clear and its magnitude is not 0. -/
theorem fInt_pos_iff (a : F) : 0 < fInt a ↔ fSign a = false ∧ 0 < fMag a := by
  have hu : 0 < fUnits a ↔ 0 < fMag a := by
    unfold fUnits fExp fFrac
    split
    · omega
    · have : 0 < (2 ^ 23 + fMag a % 2 ^ 23) * 2 ^ (fMag a / 2 ^ 23 - 1) := by positivity
      omega
  unfold fInt
  cases fSign a
  · simp [hu]
  · simp

theorem validRate_iff (fs : F) : validRate fs = true ↔ RateValid fs := by
  have h0 : isNaN (0#32 : F) = false := by decide
  have h1 : fOrd (0#32 : F) = 0 := by decide
  have hn : isFinite fs = true → isNaN fs = false := by
    intro h
    rw [isFinite_iff] at h
    exact decide_eq_false (show ¬0x7F800000 < fMag fs by omega)
  unfold validRate RateValid
  rw [Bool.and_eq_true, fInt_pos_iff]
  constructor
  · rintro ⟨hf, hl⟩
    refine ⟨hf, ?_⟩
    simp only [fLt, h0, hn hf, h1, Bool.not_false, Bool.true_and, decide_eq_true_iff] at hl
    unfold fOrd at hl
    cases hs : fSign fs
    · rw [hs] at hl
      exact ⟨rfl, by simpa using hl⟩
    · rw [hs] at hl
      exact absurd hl (by simp)
  · rintro ⟨hf, hs, hm⟩
    refine ⟨hf, ?_⟩
    simp only [fLt, h0, hn hf, h1, Bool.not_false, Bool.true_and, decide_eq_true_iff]
    simp [fOrd, hs, hm]

end Sys2Proof.Machine
end

