-- ==== Sys2Proof/Laws/Reference.lean ====
section
/-!
SUPPORT. What `MagResp` answers where its reference is positive (R181), and numeric facts of the document's scenario for `MAGR` (R182): 48000 Hz, 1000 Hz, +6 dB, Q 1.0. The angle is `pi/24`, the root of
the linear gain is `10^(3/20)`, and the binary32 section of V30 is within `10^-7` of the reference section.
-/

namespace Sys2Proof.Laws

open Sys2Proof.Machine

theorem toReal_pos_iff (a : F) : 0 < toReal a ↔ 0 < fInt a := by
  rw [toReal, div_pos_iff_of_pos_right (by positivity), Int.cast_pos]

/-- R181: where the test finds the reference positive the answer is a finite value above zero. -/
theorem magResp_pos {pub : PerStage StageSet} {pbyp : PerStage Bool} {fs f : F}
    (h : referenceIsPositive
      (audibleSections ⟨enabledSections pub.lc, enabledSections pub.pk, enabledSections pub.hc⟩ pbyp) f fs = true) :
    isFinite (magResp pub pbyp fs f) = true ∧ 0 < toReal (magResp pub pbyp fs f) := by
  have hz : referenceIsZero
      (audibleSections ⟨enabledSections pub.lc, enabledSections pub.pk, enabledSections pub.hc⟩ pbyp) f fs = false := by
    simp only [referenceIsPositive, referenceIsZero, Bool.and_eq_true, Bool.not_eq_true'] at h ⊢
    simp [h]
  unfold magResp
  simp only [hz, h]
  split
  · exact ⟨by decide, (toReal_pos_iff _).2 (by decide +kernel)⟩
  · obtain ⟨h1, h2⟩ := positiveFinite_spec (Config.magResp
      ⟨enabledSections pub.lc, enabledSections pub.pk, enabledSections pub.hc⟩ pbyp fs f)
    exact ⟨h1, (toReal_pos_iff _).2 ((fInt_pos_iff _).2 h2)⟩

/-- A nonnegative real lies between two nonnegative reals when its square lies between their squares. -/
theorem between_of_sq {x l u : ℝ} (hx : 0 ≤ x) (hu : 0 ≤ u) (h1 : l ^ 2 ≤ x ^ 2) (h2 : x ^ 2 ≤ u ^ 2) : l ≤ x ∧ x ≤ u :=
  ⟨by nlinarith [abs_le_of_sq_le_sq h1 hx], abs_le_of_sq_le_sq' h2 hu |>.2⟩

/-- The cosine of the scenario's angle. -/
theorem cos_pi_div_24_bounds : 0.9914448613 ≤ Real.cos (Real.pi / 24) ∧ Real.cos (Real.pi / 24) ≤ 0.9914448614 := by
  have h3 : (1.7320508075 : ℝ) ≤ √3 ∧ √3 ≤ 1.7320508076 :=
    between_of_sq (by positivity) (by norm_num) (by norm_num) (by norm_num)
  have hp := Real.pi_pos
  have c12 : Real.cos (Real.pi / 12) ^ 2 = 1 / 2 + √3 / 4 := by
    rw [Real.cos_sq, show 2 * (Real.pi / 12) = Real.pi / 6 by ring, Real.cos_pi_div_six]; ring
  have h12 : (0 : ℝ) ≤ Real.cos (Real.pi / 12) := Real.cos_nonneg_of_mem_Icc ⟨by linarith, by linarith⟩
  have b12 : (0.9659258262 : ℝ) ≤ Real.cos (Real.pi / 12) ∧ Real.cos (Real.pi / 12) ≤ 0.9659258263 :=
    between_of_sq h12 (by norm_num) (by rw [c12]; norm_num; linarith) (by rw [c12]; norm_num; linarith)
  have c24 : Real.cos (Real.pi / 24) ^ 2 = 1 / 2 + Real.cos (Real.pi / 12) / 2 := by
    rw [Real.cos_sq, show 2 * (Real.pi / 24) = Real.pi / 12 by ring]
  have h24 : (0 : ℝ) ≤ Real.cos (Real.pi / 24) := Real.cos_nonneg_of_mem_Icc ⟨by linarith, by linarith⟩
  exact between_of_sq h24 (by norm_num) (by rw [c24]; norm_num; linarith) (by rw [c24]; norm_num; linarith)

/-- The sine of the scenario's angle. -/
theorem sin_pi_div_24_bounds : 0.130526191 ≤ Real.sin (Real.pi / 24) ∧ Real.sin (Real.pi / 24) ≤ 0.130526194 := by
  obtain ⟨hl, hu⟩ := cos_pi_div_24_bounds
  have hs : Real.sin (Real.pi / 24) ^ 2 = 1 - Real.cos (Real.pi / 24) ^ 2 := Real.sin_sq _
  have h0 : (0 : ℝ) ≤ Real.sin (Real.pi / 24) :=
    Real.sin_nonneg_of_nonneg_of_le_pi (by positivity) (by linarith [Real.pi_pos])
  exact between_of_sq h0 (by norm_num) (by rw [hs]; nlinarith) (by rw [hs]; nlinarith)

/-- The root of the linear gain of +6 dB. -/
theorem sqrt_linearGain_six_bounds : 1.4125375446 ≤ √(linearGain 6) ∧ √(linearGain 6) ≤ 1.4125375447 := by
  have h : √(linearGain 6) ^ 20 = 1000 := by
    have hg : (0 : ℝ) ≤ linearGain 6 := by unfold linearGain; positivity
    rw [show 20 = 2 * 10 by rfl, pow_mul, Real.sq_sqrt hg, linearGain, ← Real.rpow_natCast, ← Real.rpow_mul (by norm_num)]
    norm_num
  constructor
  · exact le_of_pow_le_pow_left₀ (n := 20) (by norm_num) (Real.sqrt_nonneg _) (by rw [h]; norm_num)
  · exact le_of_pow_le_pow_left₀ (n := 20) (by norm_num) (by norm_num) (by rw [h]; norm_num)

/-- A finite pattern's value from its exact integer value. -/
theorem toReal_eq {a : F} {n : Int} {x : ℝ} (h : fInt a = n) (hx : (n : ℝ) = x * 2 ^ 149) : toReal a = x := by
  rw [toReal, h, hx]; field_simp

/-- A quotient is within `t` of `x` when its numerator is within `t` denominators of `x` denominators. -/
theorem near_div {x n d t : ℝ} (hd : 0 < d) (h1 : (x - t) * d ≤ n) (h2 : n ≤ (x + t) * d) : |x - n / d| ≤ t := by
  have := (le_div_iff₀ hd).2 h1
  have := (div_le_iff₀ hd).2 h2
  exact abs_le.2 ⟨by linarith, by linarith⟩

/-- V30: the binary32 section of the scenario is within `10^-7` of the reference section. -/
theorem scenario_section_near :
    CoefsNear (1 / 10 ^ 7) ⟨0x3F85A041#32, 0xBFF299DF#32, 0x3F5E230C#32, 0xBFF299DF#32, 0x3F69638F#32⟩
      (peakRef 1000 6 1 48000) := by
  have h1 : toReal 0x3F85A041#32 = 8757313 / 2 ^ 23 :=
    toReal_eq (n := 8757313 * 2 ^ 126) (by decide +kernel) (by norm_num)
  have h2 : toReal 0xBFF299DF#32 = -15899103 / 2 ^ 23 :=
    toReal_eq (n := -15899103 * 2 ^ 126) (by decide +kernel) (by norm_num)
  have h3 : toReal 0x3F5E230C#32 = 14557964 / 2 ^ 24 :=
    toReal_eq (n := 14557964 * 2 ^ 125) (by decide +kernel) (by norm_num)
  have h4 : toReal 0x3F69638F#32 = 15295375 / 2 ^ 24 :=
    toReal_eq (n := 15295375 * 2 ^ 125) (by decide +kernel) (by norm_num)
  obtain ⟨cl, cu⟩ := cos_pi_div_24_bounds
  obtain ⟨sl, su⟩ := sin_pi_div_24_bounds
  obtain ⟨gl, gu⟩ := sqrt_linearGain_six_bounds
  have hw : (2 * Real.pi * 1000 / 48000 : ℝ) = Real.pi / 24 := by ring
  simp only [CoefsNear, peakRef, hw, h1, h2, h3, h4]
  generalize Real.cos (Real.pi / 24) = c at *
  generalize Real.sin (Real.pi / 24) = s at *
  generalize √(linearGain 6) = a at *
  have ha : (0 : ℝ) < a := by linarith
  obtain ⟨q, hq⟩ : ∃ q, q = s / (2 * 1) / a := ⟨_, rfl⟩
  obtain ⟨r, hr⟩ : ∃ r, r = s / (2 * 1) * a := ⟨_, rfl⟩
  have hql : 0.04620273 ≤ q := by rw [hq, le_div_iff₀ ha]; nlinarith
  have hqu : q ≤ 0.04620275 := by rw [hq, div_le_iff₀ ha]; nlinarith
  have hrl : 0.09218657 ≤ r := by rw [hr]; nlinarith
  have hru : r ≤ 0.09218659 := by rw [hr]; nlinarith
  rw [← hq, ← hr]
  have h0 : 0 < 1 + q := by linarith
  refine ⟨?_, ?_, ?_, ?_, ?_⟩ <;> refine near_div h0 ?_ ?_ <;> norm_num <;> linarith

end Sys2Proof.Laws
end

