-- ==== Sys2Proof/Tests/Slice0.lean ====
section
/-!
SUPPORT. The author's own tests: the refusals of `WellFormed`, every command's packet written out from R90, R97 and R99 (and its table
word), vectors of spec/95_test_vectors.md on single steps, and a witness for the hypotheses of every statement of
Certificates/Slice0/Obligations.lean.
-/

namespace Sys2Proof.Tests

open Sys2Proof.Machine

/-! ### Helpers -/

/-- Small parameters: `N = 4`, `L = 2`, `CAP = 2`, `MQCAP = 5`, the defaults of the view registers. -/
def small : Params := ⟨4, 2, 2, 5, 0xC2400000#32, 0xC1C00000#32, 0x41C00000#32⟩

/-- The reset state for the small parameters. -/
def s0 : State := State.resetWith small

/-- `cA` of spec/95_test_vectors.md. -/
def cA : Coefs := ⟨0x3F000000#32, 0x3E800000#32, 0x3E000000#32, 0xBF000000#32, 0x3E800000#32⟩

/-- `cB` of spec/95_test_vectors.md. -/
def cB : Coefs := ⟨0x3F800000#32, 0x3F000000#32, 0#32, 0#32, 0#32⟩

/-- A section with a NaN coefficient. -/
def cNaN : Coefs := ⟨0x7FC00000#32, 0#32, 0#32, 0#32, 0#32⟩

/-- The outcome of one step, looked at through `f`. -/
def after {α : Type} (r : Result) (f : State → α) : Option α :=
  match r with
  | .next t => some (f t)
  | .fault _ => none
  | .refused _ => none

/-- The packet `pk` is presented on port `p` in the state `s`. -/
def present (p : Port) (pk : Packet) (s : State) : Result := step (presentNext p pk s)

/-- The last response header after presenting a packet to the small reset state. -/
def answers (p : Port) (h : Word) (pl : List Word) : Option (Option Word) :=
  after (present p ⟨h, pl⟩ s0) fun t => (lastResponse p t).map Response.header

/-- A state whose peak stage runs the section `c` with the memory `m`, the cut stages bypassed. -/
def peakState (c : Coefs) (m : SecMem) : State :=
  { s0 with act := s0.act.set .pk ⟨1, [c]⟩, abyp := ⟨true, false, true⟩, mem := s0.mem.set .pk [m] }

/-- The ring of R200 after its three pushes: two slots, the first overwritten. -/
def ringState : State :=
  { s0 with
    slot := [(0, [0x40A00000#32, 0x40C00000#32]), (1, [0x40400000#32, 0x40800000#32])]
    w := 3 }

/-- A state with the sample rate 48000.0 and an edit pending. -/
def ratedState : State := { s0 with fs := 0x473B8000#32, chg := true }

/-- A state with one spectrum queued and a valid rate. -/
def queuedState : State := { s0 with fs := 0x473B8000#32, mq := [[0xC2400000#32, 0xC2400000#32]] }

/-! ### `WellFormed` refuses (R83, R93) -/

theorem test_wf_push_wrong_length : ¬(Instr.push [0#32]).WF 2 := by decide
theorem test_wf_upds_no_section : ¬(Instr.upds .lc []).WF 2 := by decide
theorem test_wf_upds_five_sections : ¬(Instr.upds .hc (List.replicate 5 cA)).WF 2 := by decide
theorem test_wf_upds_peak_two_sections : ¬(Instr.upds .pk [cA, cA]).WF 2 := by decide
theorem test_wf_wpar_boolean_two : ¬(Instr.wpar .pr .lcb 2#32).WF 2 := by decide
theorem test_wf_wpar_slope_seven : (Instr.wpar .pr .lcs 7#32).WF 2 := by decide

theorem test_wf_magr_too_many (freqs : List F) (h : freqs.length = 65536) : ¬(Instr.magr freqs).WF 2 := by
  simp [Instr.WF, Instr.wellFormed, h]

/-! ### Decoding: every command from its packet (R90, R97, R99), with block length 2 -/

theorem test_decode_nop : decode 2 .rt ⟨0x00000000#32, []⟩ = .ok (.nop .rt) := rfl
theorem test_decode_sync : decode 2 .rt ⟨0x01000000#32, []⟩ = .ok .sync := rfl
theorem test_decode_proc : decode 2 .rt ⟨0x02000000#32, [0x3F800000#32]⟩ = .ok (.proc 0x3F800000#32) := rfl

theorem test_decode_push :
    decode 2 .rt ⟨0x03000000#32, [0x3F800000#32, 0x40000000#32]⟩ = .ok (.push [0x3F800000#32, 0x40000000#32]) := rfl

/-- R131's example. -/
theorem test_decode_upds :
    decode 2 .pr ⟨0x10100000#32,
      [0x3F000000#32, 0x3E800000#32, 0x3E000000#32, 0xBF000000#32, 0x3E800000#32,
       0x3F000000#32, 0x3E800000#32, 0x3E000000#32, 0xBF000000#32, 0x3E800000#32]⟩ = .ok (.upds .lc [cA, cA]) := rfl

theorem test_decode_sbyp : decode 2 .pr ⟨0x11480000#32, []⟩ = .ok (.sbyp .pk true) := rfl
theorem test_decode_wpar : decode 2 .pr ⟨0x12000000#32, [0x447A0000#32]⟩ = .ok (.wpar .pr .pkf 0x447A0000#32) := rfl
theorem test_decode_srate : decode 2 .pr ⟨0x13000000#32, [0x473B8000#32]⟩ = .ok (.srate .pr 0x473B8000#32) := rfl
theorem test_decode_ntfy : decode 2 .rt ⟨0x14000000#32, []⟩ = .ok (.ntfy .rt) := rfl
theorem test_decode_rfsh : decode 2 .pr ⟨0x15000000#32, []⟩ = .ok .rfsh := rfl
theorem test_decode_magr : decode 2 .pr ⟨0x16000001#32, [0x447A0000#32]⟩ = .ok (.magr [0x447A0000#32]) := rfl
theorem test_decode_wview : decode 2 .pr ⟨0x17000004#32, [0xC2400000#32]⟩ = .ok (.wview .dbmin 0xC2400000#32) := rfl
theorem test_decode_pop : decode 2 .pr ⟨0x20000000#32, []⟩ = .ok .pop := rfl
theorem test_decode_avail : decode 2 .pr ⟨0x21000000#32, []⟩ = .ok .avail := rfl
theorem test_decode_anlz : decode 2 .pr ⟨0x22000000#32, []⟩ = .ok .anlz := rfl
theorem test_decode_genp : decode 2 .pr ⟨0x23000000#32, []⟩ = .ok .genp := rfl
theorem test_decode_rdpath : decode 2 .pr ⟨0x24000000#32, []⟩ = .ok .rdpath := rfl
theorem test_decode_rstat : decode 2 .rt ⟨0x30000000#32, []⟩ = .ok (.rstat .rt) := rfl
theorem test_decode_clrst : decode 2 .pr ⟨0x31000000#32, []⟩ = .ok .clrst := rfl

/-- V21: the largest `MAGR` header, and `UPDS HC` with four sections. -/
theorem test_paylen : paylen 2 0x1600FFFF#32 = 65535 ∧ paylen 2 0x10B00000#32 = 20 := by decide

/-- R62: header `0x10400000` goes out as the bytes 00 00 40 10. -/
theorem test_bytes : wordBytes 0x10400000#32 = [0x00#8, 0x00#8, 0x40#8, 0x10#8] := by decide

/-- The table words: the header in the low 32 bits, the payload above it; a reserved opcode is no instruction. -/
theorem test_table_words :
    decodeTableWord 64 (0x02000000 + 0x3F800000 * 2 ^ 32) = some (.proc 0x3F800000#32) ∧
    decodeTableWord 32 0x17000006 = some (.wview .floor 0#32) ∧
    decodeTableWord 32 0x31000000 = some .clrst ∧ decodeTableWord 32 0x04000000 = none := by decide

theorem test_fetch_word :
    after (step (s0.withFetchWord 64 (0x02000000 + 0x3F800000 * 2 ^ 32))) (fun t => t.out.rt) =
      some [⟨0x00010000#32, [0x3F800000#32]⟩] := by decide

/-- R97: a line of assembler. -/
theorem test_asm : asmText (.wpar .pr .pkg 0x40C00000#32) = "PR: WPAR PKG, 0x40C00000" := by decide +kernel

/-! ### Refusals while decoding (V20) -/

theorem test_refuse_opcodes : answers .pr 0x04000000#32 [] = some (some 4#32) ∧
    answers .rt 0xFF000000#32 [] = some (some 4#32) := by decide

theorem test_refuse_port : answers .rt 0x10C00000#32 (List.replicate 5 0#32) = some (some 5#32) ∧
    answers .pr 0x02000000#32 [0#32] = some (some 5#32) := by decide

theorem test_refuse_fields : answers .pr 0x10480000#32 (List.replicate 5 0#32) = some (some 4#32) ∧
    answers .pr 0x11100000#32 [] = some (some 4#32) ∧ answers .pr 0x20000001#32 [] = some (some 4#32) := by decide

theorem test_refuse_operands : answers .pr 0x10C00000#32 (List.replicate 5 0#32) = some (some 4#32) ∧
    answers .pr 0x10500000#32 (List.replicate 10 0#32) = some (some 4#32) ∧
    answers .pr 0x1200000B#32 [0#32] = some (some 4#32) ∧ answers .pr 0x12000007#32 [2#32] = some (some 4#32) := by decide

theorem test_refuse_length : answers .pr 0x16000002#32 (List.replicate 3 0#32) = some (some 4#32) ∧
    answers .rt 0x03000000#32 [0#32] = some (some 4#32) := by decide

/-- R254 after row c of V20. -/
theorem test_refusal_record :
    after (present .rt ⟨0x10400000#32, List.replicate 5 0#32⟩ s0) (fun t => (t.status, t.lastcode, t.lasterr)) =
      some (0x8#32, 5#8, 0x10400000#32) := by decide

/-! ### Arithmetic and the section step (V1 to V7) -/

/-- V2, step 2: every operation rounds. -/
theorem test_section_rounds :
    secStep 0 ⟨0x3DCCCCCD#32, 0x3E4CCCCD#32, 0x3E99999A#32, 0xBECCCCCD#32, 0x3F000000#32⟩
      ⟨0x3DA3D70B#32, 0x3DAAAAAC#32⟩ 0x3F333333#32 = (0x3E19999A#32, ⟨0x3E911112#32, 0x3E0A3D71#32⟩) := by
  decide +kernel

/-- V3: the identity section turns `-0.0` into `+0.0`. -/
theorem test_section_signed_zero :
    secStep 0 Coefs.ident SecMem.zero 0x80000000#32 = (0#32, ⟨0#32, 0x80000000#32⟩) := by decide +kernel

/-- V4: an infinite sample leaves NaN in the memory. -/
theorem test_section_infinity :
    (secStep 0 Coefs.ident SecMem.zero 0x7F800000#32).1 = 0x7F800000#32 := by decide +kernel

/-- V5 and V6: gradual underflow, overflow. -/
theorem test_mul_range : fmul 0 0x0D800000#32 0x2B800000#32 = 0x00000200#32 ∧
    fmul 0 0x71800000#32 0x71800000#32 = 0x7F800000#32 := by decide +kernel

/-- V7: ties to even among the subnormals. -/
theorem test_mul_ties : fmul 0 0x3F000000#32 0x00000001#32 = 0#32 ∧
    fmul 0 0x3F000000#32 0x00000003#32 = 0x00000002#32 := by decide +kernel

/-! ### One step of each command -/

/-- V1, step 2, through `PROC`. -/
theorem test_proc : after (present .rt ⟨0x02000000#32, [0#32]⟩ (peakState cA ⟨0x3F000000#32, 0#32⟩))
    (fun t => (t.mem.pk, (lastResponse .rt t).map Response.data)) =
      some ([⟨0x3E800000#32, 0xBE000000#32⟩], some [0x3F000000#32]) := by decide +kernel

/-- V9: a bypassed stage passes a NaN bit for bit. -/
theorem test_proc_bypassed : after (present .rt ⟨0x02000000#32, [0x7FC00001#32]⟩ s0)
    (fun t => (lastResponse .rt t).map Response.data) = some (some [0x7FC00001#32]) := by decide

/-- R117: from one section to two, only the second slot's memory is cleared. -/
theorem test_sync : after (present .rt ⟨0x01000000#32, []⟩
    { s0 with
      pub := s0.pub.set .lc (stageSetOf .lc [cA, cA])
      mem := s0.mem.set .lc (List.replicate 4 ⟨1#32, 1#32⟩) })
    (fun t => (t.act.lc.nsec, t.mem.lc)) = some (2, [⟨1#32, 1#32⟩, SecMem.zero, ⟨1#32, 1#32⟩, ⟨1#32, 1#32⟩]) := by decide

/-- R131's example. -/
theorem test_upds : after (exec (.upds .lc [cA, cA]) s0) (fun t => t.pub.lc) =
    some ⟨2, [cA, cA, Coefs.ident, Coefs.ident]⟩ := by decide +kernel

/-- V18: the whole set is refused. -/
theorem test_upds_rejected : after (exec (.upds .lc [cA, cNaN]) s0)
    (fun t => (t.pub == s0.pub, t.status, t.lastcode, t.lasterr)) = some (true, 2#32, 3#8, 0x10100000#32) := by
  decide +kernel

theorem test_sbyp : after (exec (.sbyp .hc false) s0) (fun t => (t.pbyp, t.abyp)) =
    some (⟨true, true, false⟩, ⟨true, true, true⟩) := by decide

theorem test_wpar : after (exec (.wpar .rt .lcs 7#32) s0) (fun t => (t.param.lcs, t.param.hcs, t.chg)) =
    some (7#32, 0#32, true) := by decide

theorem test_srate : after (exec (.srate .pr 0x80000000#32) s0) (fun t => (t.fs, t.chg)) = some (0x80000000#32, true) := by
  decide

theorem test_ntfy : after (exec (.ntfy .rt) s0) (fun t => (t.chg, t.fs)) = some (true, 0#32) := by decide

/-- R162: the refused refresh clears `CHG`. -/
theorem test_rfsh_refused : after (exec .rfsh { s0 with chg := true })
    (fun t => (t.chg, t.status, t.lastcode, t.lasterr)) = some (false, 1#32, 2#8, 0x15000000#32) := by decide

/-- R88: the word of a refresh that rejected the peak and the high-cut set, and the bank it leaves. -/
theorem test_rfsh_rejected : after (.next (publish ⟨⟨1, [cA]⟩, ⟨1, [cNaN]⟩, ⟨1, [cNaN]⟩⟩ s0))
    (fun t => ((lastResponse .pr t).map Response.data, t.pub.lc, t.pub.pk == s0.pub.pk, t.status, t.lastcode)) =
      some (some [0xD#32], ⟨1, [cA]⟩, true, 2#32, 3#8) := by decide +kernel

/-- M2, and a low cut at 0 Hz (R181). -/
theorem test_magr : after (exec (.magr [0x447A0000#32]) { s0 with fs := 0x473B8000#32 })
    (fun t => (lastResponse .pr t).map Response.data) = some (some [0x3F800000#32]) := by decide +kernel

theorem test_magr_zero : after (exec (.magr [0#32])
    { s0 with
      fs := 0x473B8000#32
      pbyp := ⟨false, true, true⟩
      pub := s0.pub.set .lc ⟨1, [⟨0x3F800000#32, 0xC0000000#32, 0x3F800000#32, 0#32, 0#32⟩]⟩ })
    (fun t => (lastResponse .pr t).map Response.data) = some (some [0#32]) := by decide +kernel

theorem test_wview : after (exec (.wview .vw 0xBF800000#32) s0) (fun t => (t.view.vw, t.chg)) =
    some (0xBF800000#32, false) := by decide +kernel

theorem test_wview_refused : after (exec (.wview .vw 0x7F800000#32) s0) (fun t => (t.view.vw, t.status, t.lasterr)) =
    some (0x3F800000#32, 1#32, 0x17000001#32) := by decide +kernel

/-- R200: the third push overwrites slot 0. -/
theorem test_push : after (exec (.push [0x40A00000#32, 0x40C00000#32])
    { s0 with slot := [(0, [0x3F800000#32, 0x40000000#32]), (1, [0x40400000#32, 0x40800000#32])], w := 2 })
    (fun t => (t.slot, t.w)) = some (ringState.slot, 3) := by decide

/-- A block of zeros is not listed: the slot then reads as it does after reset. -/
theorem test_push_zeros : after (exec (.push [0#32, 0#32]) { ringState with w := 4 }) (fun t => (t.slot, t.w)) =
    some ([(1, [0x40400000#32, 0x40800000#32])], 5) := by decide

/-- R200: the first take skips the lost block. -/
theorem test_pop : after (exec .pop ringState) (fun t => (t.r, lastResponse .pr t)) =
    some (2, some ⟨0x00020000#32, [0x40400000#32, 0x40800000#32]⟩) := by decide

theorem test_pop_empty : after (exec .pop s0) (fun t => (t.r, lastResponse .pr t, t.status)) =
    some (0, some ⟨1#32, []⟩, 0#32) := by decide

theorem test_avail : after (exec .avail ringState) (fun t => (t.r, lastResponse .pr t)) =
    some (0, some ⟨0x00010000#32, [2#32]⟩) := by decide

/-- V50 (b): with `L = 2`, `N = 4` the first block only fills half the buffer. -/
theorem test_anlz_filling : after (exec .anlz ringState) (fun t => (t.acc, t.accfill, t.mq, t.r)) =
    some ([0#32, 0#32, 0x40400000#32, 0x40800000#32], 2, [], 2) := by decide

/-- R219 S2: a full buffer of zeros gives the floor. -/
theorem test_anlz_silence : after (exec .anlz { s0 with w := 1, accfill := 2 }) (fun t => (t.mq, t.accfill)) =
    some ([[0xC2400000#32, 0xC2400000#32]], 4) := by decide +kernel

/-- R211 for `L` above `N`: the last `N` samples of the block. -/
theorem test_shift_append : shiftAppend 2 3 [1#32, 2#32] [3#32, 4#32, 5#32] = [4#32, 5#32] := by decide

theorem test_genp : after (exec .genp queuedState) (fun t => (t.mq.length, t.havepath, t.latest.length,
    (lastResponse .pr t).map Response.data)) = some (0, true, 2, some [1#32]) := by decide +kernel

/-- R223: the rate is tested only with a path to make. -/
theorem test_genp_refused : after (exec .genp { queuedState with fs := 0#32 }) (fun t => (t.mq.length, t.status, t.lasterr)) =
    some (1, 1#32, 0x23000000#32) := by decide +kernel

theorem test_rdpath : after (exec .rdpath { s0 with havepath := true, latest := [⟨1#32, 2#32⟩, ⟨3#32, 4#32⟩] })
    (fun t => lastResponse .pr t) = some (some ⟨0x00040000#32, [1#32, 2#32, 3#32, 4#32]⟩) := by decide

theorem test_rdpath_empty : after (exec .rdpath s0) (fun t => lastResponse .pr t) = some (some ⟨1#32, []⟩) := by decide

theorem test_nop : exec (.nop .rt) s0 = .next { s0 with out := ⟨[⟨0#32, []⟩], []⟩ } := rfl

theorem test_rstat : after (exec (.rstat .rt) { s0 with status := 0x2#32, lastcode := 3#8, lasterr := 0x10400000#32 })
    (fun t => (lastResponse .rt t, t.status)) =
      some (some ⟨0x00030000#32, [2#32, 3#32, 0x10400000#32]⟩, 2#32) := by decide

theorem test_clrst : after (exec .clrst { s0 with status := 0x2#32, lastcode := 3#8, lasterr := 0x10400000#32, chg := true })
    (fun t => (t.status, t.lastcode, t.lasterr, t.chg)) = some (0#32, 0#8, 0#32, true) := by decide

/-- R280: a reset event between two commands. -/
theorem test_reset_event : after (step { ratedState with sched := [.reset, .port .rt], w := 3 })
    (fun t => (t.fs, t.chg, t.w, t.sched)) = some (0#32, false, 0, [.port .rt]) := by decide

/-- R71: a port with nothing to say does not hold up the other. -/
theorem test_idle_port : nextEvent { s0 with sched := [.port .rt], inq := ⟨[], [⟨0#32, []⟩]⟩ } = .command .pr ⟨0#32, []⟩ := by
  decide

/-! ### Witnesses for the statements' hypotheses -/

/-- A packet presented in the small reset state is the next event. -/
theorem test_witness_next_event : nextEvent (presentNext .pr ⟨0x31000000#32, []⟩ s0) = .command .pr ⟨0x31000000#32, []⟩ := by
  decide

theorem test_witness_DecodeOfEncode : (Instr.upds .hc [cA, cA, cA, cA]).WF 2 ∧ (Instr.push [1#32, 2#32]).WF 2 ∧
    (Instr.wpar .rt .aen 1#32).WF 2 ∧ (Instr.magr []).WF 2 := by decide

theorem test_witness_EncodeOfDecode :
    decode 2 .rt ⟨0x03000000#32, [1#32, 2#32]⟩ = .ok (.push [1#32, 2#32]) := rfl

theorem test_witness_AtMostOneRowMatches :
    0x10B00000#32 &&& opMask .upds = opMatch .upds ∧ 0x1600FFFF#32 &&& opMask .magr = opMatch .magr := by decide

theorem test_witness_ReservedOpcodesAreIllegal :
    opcode 0x04000000#32 = 0x04 ∧ opcode 0x0F000000#32 = 0x0F ∧ opcode 0x18000000#32 = 0x18 ∧ opcode 0x1F000000#32 = 0x1F ∧
    opcode 0x25000000#32 = 0x25 ∧ opcode 0x2F000000#32 = 0x2F ∧ opcode 0x32000000#32 = 0x32 ∧
    opcode 0xFFFFFFFF#32 = 0xFF ∧
    nextEvent (presentNext .rt ⟨0xFFFFFFFF#32, [7#32]⟩ s0) = .command .rt ⟨0xFFFFFFFF#32, [7#32]⟩ := by decide

theorem test_witness_ReservedOpcodesAreIllegal_noop (s : State) :
    exec (.nop .pr) s = .next (answered (Instr.nop .pr).port 0x00000000#32 [] s) := rfl

theorem test_witness_WrongPortIsRefused : opcode 0x03000000#32 ∈ rtOnlyOpcodes ∧ opcode 0x31000000#32 ∈ prOnlyOpcodes ∧
    nextEvent (presentNext .pr ⟨0x03000000#32, []⟩ s0) = .command .pr ⟨0x03000000#32, []⟩ := by decide

theorem test_witness_UnusedFieldsMustBeZero :
    (Issuable (opcode 0x10080000#32) .pr ∧ UnusedFieldSet 0x10080000#32) ∧
    (Issuable (opcode 0x11300001#32) .pr ∧ UnusedFieldSet 0x11300001#32) ∧
    (Issuable (opcode 0x12800000#32) .rt ∧ UnusedFieldSet 0x12800000#32) ∧
    (Issuable (opcode 0x31000001#32) .pr ∧ UnusedFieldSet 0x31000001#32) :=
  ⟨⟨.inr (.inr (by decide)), .inl (by decide)⟩, ⟨.inr (.inr (by decide)), .inr (.inl (by decide))⟩,
   ⟨.inl (by decide), .inr (.inr (.inl (by decide)))⟩, ⟨.inr (.inr (by decide)), .inr (.inr (.inr (by decide)))⟩⟩

theorem test_witness_ReservedOperandsAreIllegal :
    (Issuable 0x10 .pr ∧ ReservedOperand ⟨0x10C00000#32, []⟩) ∧ ReservedOperand ⟨0x10500000#32, []⟩ ∧
    (Issuable 0x11 .pr ∧ ReservedOperand ⟨0x11C80000#32, []⟩) ∧
    (Issuable 0x12 .rt ∧ ReservedOperand ⟨0x1200000B#32, [0#32]⟩) ∧
    (Issuable 0x17 .pr ∧ ReservedOperand ⟨0x17000007#32, [0#32]⟩) := by
  refine ⟨⟨?_, .inl ?_⟩, .inl ?_, ⟨?_, .inr (.inl ?_)⟩, ⟨?_, .inr (.inr (.inl ?_))⟩, ⟨?_, .inr (.inr (.inr (.inl ?_)))⟩⟩ <;>
    first | decide | (unfold Issuable; decide)

theorem test_witness_ReservedOperandsAreIllegal_payload :
    ReservedOperand ⟨0x12000007#32, [2#32]⟩ ∧ ReservedOperand ⟨0x1200000A#32, [0xFFFFFFFF#32]⟩ :=
  ⟨.inr (.inr (.inr (.inr ⟨by decide, by decide, by decide, 2#32, rfl, by decide⟩))),
   .inr (.inr (.inr (.inr ⟨by decide, by decide, by decide, 0xFFFFFFFF#32, rfl, by decide⟩)))⟩

theorem test_witness_ReservedOperandsAreIllegal_slopes : 3 < (4#32).toNat ∧
    nextEvent (presentNext .rt ⟨0x12000005#32, [4#32]⟩ s0) = .command .rt ⟨0x12000005#32, [4#32]⟩ ∧
    nextEvent (presentNext .rt ⟨0x12000006#32, [4#32]⟩ s0) = .command .rt ⟨0x12000006#32, [4#32]⟩ ∧
    (let s := { ratedState with param := { s0.param with hcs := 4#32 } }; s.chg = true ∧ 3 < s.param.hcs.toNat) ∧
    (let s := { ratedState with param := { s0.param with lcs := 4#32 } }; s.chg = true ∧ 3 < s.param.lcs.toNat) := by
  decide

theorem test_witness_WrongPayloadLengthIsIllegal :
    Issuable (opcode 0x16000002#32) .pr ∧ impliedLength 2 0x16000002#32 = 2 ∧ impliedLength 2 0x10B00000#32 = 20 ∧
    impliedLength 2 0x03000000#32 = 2 ∧ impliedLength 2 0x17000000#32 = 1 ∧ impliedLength 2 0x11000000#32 = 0 := by
  unfold Issuable; decide

theorem test_witness_StepRunsTheDecodedCommand :
    nextEvent (presentNext .rt ⟨0x01000000#32, []⟩ s0) = .command .rt ⟨0x01000000#32, []⟩ ∧
    decode s0.cfg.l .rt ⟨0x01000000#32, []⟩ = .ok .sync := ⟨by decide, rfl⟩

theorem test_witness_StepRunsTheDecodedCommand_table : decodeTableWord 32 0x01000000 = some .sync := by decide

theorem test_witness_ScheduleChoosesThePort :
    (let s := { s0 with sched := [.port .rt], inq := ⟨[⟨0#32, []⟩], []⟩ };
      s.sched = .port .rt :: [] ∧ s.inq.get .rt = [⟨0#32, []⟩]) ∧
    (let s := { s0 with sched := [.port .rt], inq := ⟨[], [⟨0#32, []⟩]⟩ };
      s.inq.get .rt = [] ∧ s.inq.get (Port.other .rt) = [⟨0#32, []⟩]) ∧
    (let s := { s0 with inq := ⟨[], [⟨0#32, []⟩]⟩ }; s.sched = [] ∧ s.inq ≠ ⟨[], []⟩) ∧ s0.inq = ⟨[], []⟩ := by decide

theorem test_witness_ScheduleChoosesThePort_idle (ag : List Agent) :
    ({ s0 with sched := [.port .rt] } : State).sched ≠ .reset :: ag := by simp

theorem test_witness_RunsEndWithStreamsExhausted :
    let s := { s0 with sched := [.reset], inq := ⟨[⟨0#32, []⟩], [⟨0x30000000#32, []⟩]⟩ };
    s.sched.length + s.inq.rt.length + s.inq.pr.length ≤ 3 := by decide

/-- An endless stream of `SYNC` on the RT port beside a `POP` and a `NOP` on the PR port. -/
def endlessStreams : PerPort CommandStream :=
  ⟨fun _ => some ⟨0x01000000#32, []⟩, fun k => if k = 0 then some ⟨0x20000000#32, []⟩ else if k = 1 then some ⟨0#32, []⟩ else none⟩

/-- The two ports in turn. -/
def alternating (n : Nat) : Agent := if n % 2 = 0 then .port .rt else .port .pr

theorem test_witness_RunsEndWithStreamsExhausted_fair : FairOrder alternating ∧ (∀ n, alternating n ≠ .reset) := by
  refine ⟨fun p n => ?_, fun n => by unfold alternating; split <;> simp⟩
  cases p
  · exact ⟨2 * n, by omega, by simp [alternating]⟩
  · exact ⟨2 * n + 1, by omega, by simp [alternating]⟩

theorem test_witness_RunsEndWithStreamsExhausted_streams :
    (∀ j, j ≤ 1000 → (endlessStreams.get .rt j).isSome = true) ∧ (∀ j, j ≤ 1 → (endlessStreams.get .pr j).isSome = true) ∧
    endlessStreams.pr.EndsAt 2 ∧ CommandStream.EndsAt (fun _ => none) 0 := by
  refine ⟨fun _ _ => rfl, fun j h => ?_, ⟨fun j h => ?_, rfl⟩, fun j h => by omega, rfl⟩ <;>
    (have : j = 0 ∨ j = 1 := by omega) <;> rcases this with rfl | rfl <;> rfl

/-- R297: the run goes on with the endless stream when the other is exhausted. -/
theorem test_run_goes_on : (match runTo endlessStreams alternating s0 7 with
    | .next x => some (x.pos, x.state.out.pr.map Response.header, x.state.out.rt.length)
    | .fault _ => none
    | .refused _ => none) = some (⟨4, 2⟩, [1#32, 0#32], 4) := by decide +kernel

theorem test_witness_SystemCommands :
    nextEvent (presentNext .rt ⟨0x00000001#32, []⟩ s0) = .command .rt ⟨0x00000001#32, []⟩ ∧ opcode 0x00000001#32 = 0x00 ∧
    isNaN cNaN.b0 = true ∧
    nextEvent (presentNext .rt ⟨0x31000000#32, []⟩ s0) = .command .rt ⟨0x31000000#32, []⟩ := by decide

theorem test_witness_WparWritesOneRegister :
    (7 ≤ paramId .pkf → (9#32 : Word) = 0x0#32 ∨ (9#32 : Word) = 0x1#32) ∧
    (7 ≤ paramId .lcb → (1#32 : Word) = 0x0#32 ∨ (1#32 : Word) = 0x1#32) ∧
    opcode 0x1200000B#32 = 0x12 ∧ 10 < (0x1200000B#32).toNat % 2 ^ 16 ∧
    opcode 0x12000007#32 = 0x12 ∧ 7 ≤ (0x12000007#32).toNat % 2 ^ 16 ∧
    nextEvent (presentNext .rt ⟨0x12000007#32, [2#32]⟩ s0) = .command .rt ⟨0x12000007#32, [2#32]⟩ := by decide

theorem test_witness_RefreshWithoutEditDoesNothing : s0.chg = false := rfl

theorem test_witness_RefreshRefusesBadConfiguration :
    ({ s0 with chg := true } : State).chg = true ∧ ¬RateValid ({ s0 with chg := true } : State).fs := by
  unfold RateValid; decide

/-- Whatever the factory gives for this state, a `rej` with the hypothesis's property exists; here is the rest of it. -/
theorem test_witness_RefreshPublishesStageByStage : ratedState.chg = true ∧ RateValid ratedState.fs ∧
    ratedState.param.lcs.toNat ≤ 3 ∧ ratedState.param.hcs.toNat ≤ 3 := by
  unfold RateValid; decide +kernel

theorem test_witness_RefreshPublishesStageByStage_rej (sets : PerStage StageSet) :
    ∃ rej : PerStage Bool, ∀ st, rej.get st = true ↔ HasNonFinite (sets.get st) := by
  classical
  exact ⟨⟨decide (HasNonFinite sets.lc), decide (HasNonFinite sets.pk), decide (HasNonFinite sets.hc)⟩,
    fun st => by cases st <;> simp [PerStage.get]⟩

theorem test_witness_ParametersInBounds : ParametersInBounds s0.param 0x473B8000#32 := by
  unfold ParametersInBounds ValueWithin; decide +kernel

theorem test_witness_ParametersInBounds_edges :
    ParametersInBounds { s0.param with pkg := 0xC1C00000#32, pkq := 0x3DCCCCCD#32, lcs := 3#32, hcs := 3#32 } 0x471C4001#32 := by
  unfold ParametersInBounds ValueWithin; decide +kernel

theorem test_witness_EditsCoalesce : [Instr.ntfy .rt, .wpar .pr .lcs 1#32, .srate .rt 0#32] ≠ [] ∧
    ∀ i ∈ [Instr.ntfy .rt, .wpar .pr .lcs 1#32, .srate .rt 0#32], isEdit i = true := by decide

theorem test_witness_MagrNeedsAValidRate : ¬RateValid s0.fs ∧ ¬RateValid 0x7F800000#32 ∧ ¬RateValid 0xBF800000#32 := by
  unfold RateValid; decide +kernel

theorem test_witness_MagrEvaluatesThePublishedBank : RateValid ratedState.fs ∧ RateValid 0x00000001#32 := by
  unfold RateValid; decide +kernel

/-- A low-cut stage with the double zero `1 - 2z + z^2`. -/
def lowCutState : State :=
  { ratedState with
    pbyp := ⟨false, true, true⟩
    pub := s0.pub.set .lc ⟨1, [⟨0x3F800000#32, 0xC0000000#32, 0x3F800000#32, 0#32, 0#32⟩]⟩ }

theorem test_witness_MagrOfLowCutAtZeroIsZero : RateValid lowCutState.fs ∧ lowCutState.pbyp.lc = false ∧
    (∃ c ∈ lowCutState.pub.lc.c.take lowCutState.pub.lc.nsec, fInt c.b0 + fInt c.b1 + fInt c.b2 = 0) ∧
    (∀ st, lowCutState.pbyp.get st = false → ∀ c ∈ (lowCutState.pub.get st).c.take (lowCutState.pub.get st).nsec,
      2 ^ 149 + fInt c.a1 + fInt c.a2 ≠ 0) := by
  refine ⟨by unfold RateValid; decide +kernel, rfl, by decide +kernel, fun st => ?_⟩
  cases st <;> decide +kernel

/-- The scenario of R182 before its refresh. -/
def scenarioEdited : State :=
  { ratedState with
    param := { s0.param with pkf := 0x447A0000#32, pkg := 0x40C00000#32, pkb := false } }

/-- The section of V30. -/
def cV30 : Coefs := ⟨0x3F85A041#32, 0xBFF299DF#32, 0x3F5E230C#32, 0xBFF299DF#32, 0x3F69638F#32⟩

/-- The scenario of R182 with the section of V30 published. -/
def scenarioState : State :=
  { ratedState with
    pbyp := ⟨true, false, true⟩
    pub := s0.pub.set .pk ⟨1, [cV30]⟩ }

/-- Some tolerance holds for any section: the hypothesis `FactoryAccurateAt` can be met whatever the free functions are. -/
theorem coefsNear_exists (c : Coefs) (r : RealCoefs) : ∃ t, 0 ≤ t ∧ ∀ u, t ≤ u → CoefsNear u c r := by
  refine ⟨|toReal c.b0 - r.b0| + |toReal c.b1 - r.b1| + |toReal c.b2 - r.b2| + |toReal c.a1 - r.a1| + |toReal c.a2 - r.a2|,
    by positivity, fun u hu => ?_⟩
  have h0 := abs_nonneg (toReal c.b0 - r.b0)
  have h1 := abs_nonneg (toReal c.b1 - r.b1)
  have h2 := abs_nonneg (toReal c.b2 - r.b2)
  have h3 := abs_nonneg (toReal c.a1 - r.a1)
  have h4 := abs_nonneg (toReal c.a2 - r.a2)
  refine ⟨?_, ?_, ?_, ?_, ?_⟩ <;> linarith

theorem test_witness_MagrMeetsTheScenario_refresh :
    scenarioEdited.chg = true ∧ scenarioEdited.fs = 0x473B8000#32 ∧ scenarioEdited.param.pkf = 0x447A0000#32 ∧
    scenarioEdited.param.pkg = 0x40C00000#32 ∧ scenarioEdited.param.pkq = 0x3F800000#32 ∧
    scenarioEdited.param.lcb = true ∧ scenarioEdited.param.pkb = false ∧ scenarioEdited.param.hcb = true ∧
    ParametersInBounds scenarioEdited.param scenarioEdited.fs ∧
    ∃ coefTol, FactoryAccurateAt coefTol scenarioEdited.param scenarioEdited.fs := by
  refine ⟨rfl, rfl, rfl, rfl, rfl, rfl, rfl, rfl, by unfold ParametersInBounds ValueWithin; decide +kernel, ?_⟩
  unfold FactoryAccurateAt
  obtain ⟨t1, h1, g1⟩ := coefsNear_exists (factorySection scenarioEdited.param scenarioEdited.fs
    (Config.peakSection scenarioEdited.param scenarioEdited.fs)) _
  obtain ⟨t2, h2, g2⟩ := coefsNear_exists (factorySection scenarioEdited.param scenarioEdited.fs
    (Config.lowCutSection scenarioEdited.param scenarioEdited.fs)) _
  obtain ⟨t3, h3, g3⟩ := coefsNear_exists (factorySection scenarioEdited.param scenarioEdited.fs
    (Config.highCutSection scenarioEdited.param scenarioEdited.fs)) _
  exact ⟨t1 + t2 + t3, g1 _ (by linarith), g2 _ (by linarith), g3 _ (by linarith)⟩

/-- R181: the answer in the scenario is finite and above zero, whatever the free function gives. -/
theorem test_magr_scenario_positive : ∀ f ∈ [0x447A0000#32, 0x41A00000#32, 0x469C4000#32],
    isFinite (magResp scenarioState.pub scenarioState.pbyp scenarioState.fs f) = true ∧
    0 < toReal (magResp scenarioState.pub scenarioState.pbyp scenarioState.fs f) := by
  have h1 : referenceIsPositive [cV30] 0x447A0000#32 0x473B8000#32 = true := by decide +kernel
  have h2 : referenceIsPositive [cV30] 0x41A00000#32 0x473B8000#32 = true := by decide +kernel
  have h3 : referenceIsPositive [cV30] 0x469C4000#32 0x473B8000#32 = true := by decide +kernel
  intro f hf
  refine Laws.magResp_pos (?_ : referenceIsPositive [cV30] f 0x473B8000#32 = true)
  simp only [List.mem_cons, List.not_mem_nil, or_false] at hf
  rcases hf with rfl | rfl | rfl <;> assumption

theorem test_witness_MagrMeetsTheScenario : scenarioState.fs = 0x473B8000#32 ∧ scenarioState.pbyp = ⟨true, false, true⟩ ∧
    scenarioState.pub.pk.c.take scenarioState.pub.pk.nsec = [cV30] ∧ CoefsNear (1 / 10 ^ 7) cV30 (peakRef 1000 6 1 48000) ∧
    ∃ magrTol, ∀ f ∈ [0x447A0000#32, 0x41A00000#32, 0x469C4000#32],
      MagRespAccurateAt magrTol scenarioState.pub scenarioState.pbyp scenarioState.fs f := by
  refine ⟨rfl, rfl, rfl, Laws.scenario_section_near, ?_⟩
  let d := fun f => |decibels (toReal (magResp scenarioState.pub scenarioState.pbyp scenarioState.fs f)) -
    decibels (magRespRef scenarioState.pub scenarioState.pbyp scenarioState.fs f)|
  refine ⟨([0x447A0000#32, 0x41A00000#32, 0x469C4000#32].map d).sum, fun f hf _ => ?_⟩
  obtain ⟨h1, h2⟩ := test_magr_scenario_positive f hf
  refine ⟨h1, h2, List.single_le_sum (fun x hx => ?_) _ (List.mem_map_of_mem (f := d) hf)⟩
  obtain ⟨g, -, rfl⟩ := List.mem_map.1 hx
  exact abs_nonneg _

theorem test_witness_SbypWritesOneFlag :
    nextEvent (presentNext .rt ⟨0x11000000#32, []⟩ s0) = .command .rt ⟨0x11000000#32, []⟩ ∧ opcode 0x11000000#32 = 0x11 ∧
    opcode 0x11C00000#32 = 0x11 ∧ (0x11C00000#32).toNat / 2 ^ 22 % 4 = 3 ∧
    (0x11100000#32).toNat / 2 ^ 20 % 4 ≠ 0 ∧ (0x11040000#32).toNat % 2 ^ 19 ≠ 0 := by decide

theorem test_witness_UpdsReplacesTheStageSet : 1 ≤ [cA, cB].length ∧ [cA, cB].length ≤ slots .lc ∧ [cA].length ≤ slots .pk ∧
    (∀ c ∈ [cA, cB], isFinite c.b0 = true ∧ isFinite c.b1 = true ∧ isFinite c.b2 = true ∧ isFinite c.a1 = true ∧
      isFinite c.a2 = true) := by decide +kernel

theorem test_witness_UpdsRejectsNonFiniteSets :
    decode s0.cfg.l .pr ⟨0x10400000#32, [0x7FC00000#32, 0#32, 0#32, 0#32, 0#32]⟩ = .ok (.upds .pk [cNaN]) ∧
    (∃ w ∈ [0x7FC00000#32, 0#32, 0#32, 0#32, 0#32], isNaN w = true ∨ isInf w = true) ∧
    (∃ w ∈ [0#32, 0#32, 0#32, 0#32, 0xFF800000#32], isNaN w = true ∨ isInf w = true) :=
  ⟨rfl, ⟨0x7FC00000#32, by simp, .inl (by decide)⟩, ⟨0xFF800000#32, by simp, .inr (by decide)⟩⟩

theorem test_witness_SyncAdoptsThePublishedBank : s0.pub = s0.act ∧ s0.pbyp = s0.abyp ∧
    s0.mem.lc[3]? = some SecMem.zero ∧ (3 < s0.act.lc.nsec ↔ 3 < s0.pub.lc.nsec) ∧
    (let s := { s0 with pub := s0.pub.set .lc (stageSetOf .lc [cA, cA, cA, cA]) };
      ¬(3 < s.act.lc.nsec ↔ 3 < s.pub.lc.nsec)) := by decide

theorem test_witness_ProcRunsTheSections :
    (∀ st, SetShape st ((peakState cA SecMem.zero).act.get st)) ∧
    (∀ st, ((peakState cA SecMem.zero).mem.get st).length = slots st) := by
  refine ⟨fun st => ?_, fun st => ?_⟩ <;> cases st <;> first | decide | (unfold SetShape; decide)

theorem test_witness_NaNSpreadsThroughTheFilter :
    let s := peakState cA ⟨0x7FC00000#32, 0#32⟩
    isNaN 0x7F800001#32 = true ∧ s.abyp.get .pk = false ∧ 0 < (s.act.get .pk).nsec ∧
    (s.mem.get .pk)[0]? = some ⟨0x7FC00000#32, 0#32⟩ ∧ isNaN 0x7FC00000#32 = true := by decide +kernel

theorem test_witness_BypassedStageIsAbsent : s0.abyp.get .lc = true ∧ (s0.pub.get .lc).nsec = (s0.act.get .lc).nsec ∧
    s0.abyp = ⟨true, true, true⟩ := by decide

/-- The cut stages bypassed beside an active peak stage; the shapes are those of `test_witness_ProcRunsTheSections`. -/
theorem test_witness_BypassedStageIsAbsent_one : (peakState cA SecMem.zero).abyp.lc = true ∧
    (peakState cA SecMem.zero).abyp.hc = true ∧ ({ s0 with abyp := ⟨false, true, false⟩ } : State).abyp.pk = true ∧
    (peakState cA SecMem.zero).abyp.pk = false := by decide

theorem test_witness_ProcIndependentOfPr :
    ∀ i ∈ [Instr.proc 1#32, .upds .pk [cA], .rfsh, .proc 2#32], (∃ x, i = .proc x) ∨ i.port = .pr := by
  simp [Instr.port]

theorem test_witness_ActiveBankChangesOnlyAtSyncOrReset :
    after (present .rt ⟨0x01000000#32, []⟩ { s0 with pbyp := ⟨false, true, true⟩ }) (fun t => decide (t.abyp ≠ s0.abyp)) =
      some true := by decide

theorem test_witness_AddRoundsToNearestEven : isFinite 0x7F7FFFFF#32 = true ∧ isFinite 0x72FFFFFF#32 = true ∧
    |fInt 0x7F7FFFFF#32 + fInt 0x72FFFFFF#32| < (2 ^ 25 - 1) * 2 ^ 252 := by decide +kernel

theorem test_witness_MulRoundsToNearestEven : isFinite 0x7F7FFFFF#32 = true ∧ isFinite 0x3F800000#32 = true ∧
    |fInt 0x7F7FFFFF#32 * fInt 0x3F800000#32| < (2 ^ 25 - 1) * 2 ^ 401 := by decide +kernel

theorem test_witness_ArithmeticSpecialCases :
    (2 ^ 25 - 1) * 2 ^ 252 ≤ |fInt 0x7F7FFFFF#32 + fInt 0x73000000#32| ∧
    (2 ^ 25 - 1) * 2 ^ 401 ≤ |fInt 0x7F7FFFFF#32 * fInt 0x3F800001#32| ∧
    isInf 0xFF800000#32 = true ∧ isFinite 0x7F7FFFFF#32 = true ∧ isZero 0x00000001#32 = false ∧
    fInt 0x80000000#32 + fInt 0x80000000#32 = 0 ∧ fInt 0x3F800000#32 + fInt 0xBF800000#32 = 0 := by decide +kernel

theorem test_witness_PushStoresTheBlock : slotsWf s0.cfg.l s0.cfg.cap s0.slot = true ∧ 1 ≤ s0.cfg.cap ∧
    slotsWf ringState.cfg.l ringState.cfg.cap ringState.slot = true ∧ [1#32, 2#32].length = s0.cfg.l := by decide

theorem test_witness_PopReturnsTheOldestBlock : s0.w = s0.r ∧
    slotsWf ringState.cfg.l ringState.cfg.cap ringState.slot = true ∧ ringState.cfg.l ≤ 65535 ∧
    ringState.cfg.cap < ringState.w - ringState.r ∧
    (let s := { ringState with r := 1 }; s.r < s.w ∧ s.w - s.r ≤ s.cfg.cap) := by decide

theorem test_witness_AvailCountsTheTakes : ringState.cfg.cap < 2 ^ 32 ∧ ringState.r ≤ ringState.w ∧ 1 ≤ ringState.cfg.cap := by
  decide

theorem test_witness_RingKeepsTheNewestInOrder : slotsWf s0.cfg.l s0.cfg.cap s0.slot = true ∧ 1 ≤ s0.cfg.cap ∧
    s0.cfg.l ≤ 65535 ∧ s0.w = s0.r ∧ (∀ b ∈ [[1#32, 2#32], [3#32, 4#32], [5#32, 6#32]], b.length = s0.cfg.l) := by decide

theorem test_witness_WviewWritesOneFiniteRegister : isFinite 0x7F7FFFFF#32 = true ∧ isNaN 0x7F800001#32 = true ∧
    isInf 0xFF800000#32 = true := by decide +kernel

theorem test_witness_AnlzWithNothingToTake : ({ s0 with laen := false } : State).laen = false ∧ s0.laen = true ∧ s0.w = s0.r := by
  decide

/-- The invariant holds in the state the ring's witnesses use. -/
theorem test_ringState_inv : Inv ringState where
  cfg := by decide
  act := fun st => by cases st <;> (unfold SetOk; decide +kernel)
  pub := fun st => by cases st <;> (unfold SetOk; decide +kernel)
  mem := fun st => by cases st <;> decide
  status := by decide
  lastcode := .inl rfl
  ring := by decide
  slot := by decide
  acc := by decide
  accfill := by decide
  mq := by decide
  mqEntries := fun m h => by cases h
  latest := by decide
  latestFinite := by decide +kernel
  view := by unfold ViewOk; decide +kernel
  out := fun p r h => by cases p <;> cases h

theorem test_witness_AnlzSlidesAndQueues : Inv ringState ∧ ringState.laen = true ∧ ringState.r < ringState.w ∧
    ringState.accfill + ringState.cfg.l < ringState.cfg.n :=
  ⟨test_ringState_inv, rfl, by decide, by decide⟩

/-- The same with the buffer one block from full. -/
theorem test_witness_AnlzSlidesAndQueues_full :
    let s := { ringState with accfill := 2 }
    Inv s ∧ s.laen = true ∧ s.r < s.w ∧ s.cfg.n ≤ s.accfill + s.cfg.l :=
  ⟨{ test_ringState_inv with accfill := by decide }, rfl, by decide, by decide⟩

theorem test_witness_SpectrumProperties : isFinite 0xC2400000#32 = true ∧
    (∀ x ∈ [0x00000000#32, 0x80000000#32], x = 0x00000000#32 ∨ x = 0x80000000#32) ∧
    (∃ x ∈ [0x00000000#32, 0x7FC00000#32], isNaN x = true ∨ isInf x = true) :=
  ⟨by decide, by simp, ⟨0x7FC00000#32, by simp, .inl (by decide)⟩⟩

theorem test_witness_GenpKeepsTheNewestPath : ViewOk queuedState.view ∧ queuedState.laen = true ∧
    queuedState.mq = [] ++ [[0xC2400000#32, 0xC2400000#32]] ∧ RateValid queuedState.fs ∧
    fInt queuedState.view.dbmin < fInt queuedState.view.dbmax := by
  unfold ViewOk RateValid; decide +kernel

theorem test_witness_GenpIdleOrRefused :
    (({ queuedState with laen := false } : State).laen = false ∧ s0.mq = []) ∧
    (ViewOk queuedState.view ∧ queuedState.laen = true ∧ queuedState.mq ≠ [] ∧
      ¬RateValid ({ queuedState with fs := 0#32 } : State).fs) ∧
    (let v := { queuedState.view with dbmax := 0xC1C00000#32 }; ViewOk v ∧ ¬fInt v.dbmin < fInt v.dbmax) := by
  unfold ViewOk RateValid; decide +kernel

theorem test_witness_RdpathReturnsThePath : s0.havepath = false ∧
    (let s := { s0 with havepath := true };
      s.havepath = true ∧ s.latest.length = s.cfg.nb ∧ 2 * s.cfg.nb ≤ 65535 ∧ s.latest[1]? = some ⟨0#32, 0#32⟩) ∧
    Instr.rdpath ≠ .genp ∧ after (exec .rdpath s0) (fun t => t.w) = some 0 := by decide

theorem test_witness_ResetRestoresEverything :
    ({ ratedState with sched := [.reset] } : State).sched = .reset :: [] := rfl

theorem test_witness_InvHoldsAtReset : small.Legal := by decide

theorem test_witness_StepKeepsInv :
    let s := presentNext .pr ⟨0x20000000#32, []⟩ ringState
    Inv s ∧ step s = exec .pop { ringState with turn := 1 } :=
  ⟨{ test_ringState_inv with }, rfl⟩

theorem test_witness_StepKeepsRtClean :
    RtClean { s0 with inq := ⟨[⟨0x01000000#32, []⟩], [⟨0xFF000000#32, []⟩]⟩, out := ⟨[⟨0x00010000#32, [1#32]⟩], []⟩ } := by
  constructor
  · intro pk h
    cases h with
    | head => exact ⟨.sync, rfl, by decide, by decide⟩
    | tail _ h => cases h
  · intro r h
    cases h with
    | head => decide
    | tail _ h => cases h

theorem test_witness_EachAgentWritesWhatItOwns :
    after (present .pr ⟨0x15000000#32, []⟩ s0) (fun t => t.w) = some 0 ∧
    nextEvent (presentNext .pr ⟨0x15000000#32, []⟩ s0) = .command .pr ⟨0x15000000#32, []⟩ := by decide

theorem test_witness_FlagsAreSticky :
    let s := presentNext .rt ⟨0x31000000#32, []⟩ { s0 with status := 0x4#32 }
    after (step s) (fun t => t.status) = some 0xC#32 ∧ nextEvent s ≠ .reset ∧
    nextEvent s ≠ .command .pr ⟨0x31000000#32, []⟩ := by decide

theorem test_witness_PeakMagnitudeAtCenterIsTheGain : (0 : ℝ) < 1000 ∧ 2 * (1000 : ℝ) < 48000 ∧ (0 : ℝ) < 1 := by norm_num

theorem test_witness_CutMagnitudeAtCutoff : (0 : ℝ) < 20 ∧ 2 * (20 : ℝ) < 48000 := by norm_num

end Sys2Proof.Tests
end

section
/-!
SUPPORT. Binary32 patterns and rounding (R12): a pattern from its sign and magnitude, the exact value a magnitude pattern stands
for, and the single rounding of the arithmetic, which gives the nearest pattern, the even one of two.
-/

namespace Sys2Proof.Machine

/-! ### A pattern and its parts -/

theorem packF_toNat (neg : Bool) {mag : Nat} (h : mag < 2 ^ 31) :
    (packF neg mag).toNat = if neg then 2 ^ 31 + mag else mag := by
  cases neg <;> simp only [packF, BitVec.toNat_ofNat, if_true, Bool.false_eq_true, if_false] <;> omega

theorem fMag_packF (neg : Bool) {mag : Nat} (h : mag < 2 ^ 31) : fMag (packF neg mag) = mag := by
  rw [fMag, packF_toNat neg h]
  split <;> omega

theorem fSign_packF (neg : Bool) {mag : Nat} (h : mag < 2 ^ 31) : fSign (packF neg mag) = neg := by
  rw [fSign, BitVec.msb_eq_decide, packF_toNat neg h]
  cases neg <;> simp
  omega

theorem packF_toNat_mod_two (neg : Bool) {mag : Nat} (h : mag < 2 ^ 31) : (packF neg mag).toNat % 2 = mag % 2 := by
  rw [packF_toNat neg h]
  split <;> omega

theorem fMag_lt (a : F) : fMag a < 2 ^ 31 := Nat.mod_lt _ (by decide)

/-- A pattern is its sign and its magnitude. -/
theorem packF_fSign_fMag (a : F) : packF (fSign a) (fMag a) = a := by
  apply BitVec.eq_of_toNat_eq
  rw [packF_toNat _ (fMag_lt a), fSign, BitVec.msb_eq_decide, fMag]
  have := a.isLt
  simp only [decide_eq_true_eq]
  split <;> omega

theorem isFinite_packF (neg : Bool) {mag : Nat} (h : mag < infMag) : isFinite (packF neg mag) = true := by
  rw [isFinite, fMag_packF neg (h.trans (by decide))]
  exact decide_eq_true h

/-! ### The value of a magnitude pattern -/

/-- `fUnits` as a function of the magnitude pattern. -/
def magUnits (p : Nat) : Nat :=
  if p / 2 ^ 23 = 0 then p % 2 ^ 23 else (2 ^ 23 + p % 2 ^ 23) * 2 ^ (p / 2 ^ 23 - 1)

theorem fUnits_eq_magUnits (a : F) : fUnits a = magUnits (fMag a) := rfl

@[simp] theorem magUnits_zero : magUnits 0 = 0 := rfl

/-- Within one binade, the end of the binade included, a pattern counts multiples of one power of two. -/
theorem magUnits_binade {t q : Nat} (hq : q ≤ 2 ^ 24) (ht : t = 0 ∨ 2 ^ 23 ≤ q) :
    magUnits (t * 2 ^ 23 + q) = q * 2 ^ t := by
  unfold magUnits
  by_cases hsub : q < 2 ^ 23
  · obtain rfl : t = 0 := by omega
    rw [if_pos (by omega)]
    omega
  · by_cases hend : q = 2 ^ 24
    · have hdiv : (t * 2 ^ 23 + q) / 2 ^ 23 = t + 2 := by omega
      have hmod : (t * 2 ^ 23 + q) % 2 ^ 23 = 0 := by omega
      rw [hdiv, hmod, if_neg (by omega), hend, show t + 2 - 1 = t + 1 by omega, pow_succ]
      ring
    · have hdiv : (t * 2 ^ 23 + q) / 2 ^ 23 = t + 1 := by omega
      have hmod : (t * 2 ^ 23 + q) % 2 ^ 23 = q - 2 ^ 23 := by omega
      rw [hdiv, hmod, if_neg (by omega), show 2 ^ 23 + (q - 2 ^ 23) = q by omega, Nat.add_sub_cancel]

/-- Patterns are in the order of their values. -/
theorem magUnits_strictMono : StrictMono magUnits := by
  refine strictMono_nat_of_lt_succ fun p => ?_
  obtain ⟨t, q, rfl, hq, ht⟩ : ∃ t q, p = t * 2 ^ 23 + q ∧ q < 2 ^ 24 ∧ (t = 0 ∨ 2 ^ 23 ≤ q) :=
    ⟨p / 2 ^ 23 - 1, p - (p / 2 ^ 23 - 1) * 2 ^ 23, by omega, by omega, by omega⟩
  rw [magUnits_binade hq.le ht, add_assoc, magUnits_binade (by omega) (by omega)]
  exact Nat.mul_lt_mul_of_pos_right (Nat.lt_succ_self q) (by positivity)

theorem magUnits_eq_zero_iff (p : Nat) : magUnits p = 0 ↔ p = 0 :=
  magUnits_strictMono.injective.eq_iff' magUnits_zero

/-! ### One rounding -/

/-- Rounding to a multiple of `2^d` goes down, up to and including half way to an even quotient, or up. -/
theorem roundHalfEven_cases (m d : Nat) :
    (roundHalfEven m d = m / 2 ^ d ∧ 2 * (m % 2 ^ d) ≤ 2 ^ d ∧ (2 * (m % 2 ^ d) = 2 ^ d → m / 2 ^ d % 2 = 0)) ∨
    (roundHalfEven m d = m / 2 ^ d + 1 ∧ 2 ^ d ≤ 2 * (m % 2 ^ d) ∧ (2 * (m % 2 ^ d) = 2 ^ d → m / 2 ^ d % 2 = 1)) := by
  simp only [roundHalfEven, Nat.shiftRight_eq_div_pow]
  split <;> omega

/-- The pattern of `m * 2^-(149+k)` rounded once, before the overflow to infinity. -/
def roundPattern (m k : Nat) : Nat :=
  (Nat.log2 m - 23 - k) * 2 ^ 23 + roundHalfEven m (k + (Nat.log2 m - 23 - k))

theorem roundUnits_eq_min (m k : Nat) : roundUnits m k = min (roundPattern m k) infMag := rfl

/-- The rounded number lies between two neighbouring patterns and goes to the nearer one, half way to the even one. -/
theorem roundPattern_cases (m k : Nat) : ∃ p, magUnits p * 2 ^ k ≤ m ∧ m < magUnits (p + 1) * 2 ^ k ∧
    ((roundPattern m k = p ∧ 2 * m ≤ magUnits p * 2 ^ k + magUnits (p + 1) * 2 ^ k ∧
        (2 * m = magUnits p * 2 ^ k + magUnits (p + 1) * 2 ^ k → roundPattern m k % 2 = 0)) ∨
      (roundPattern m k = p + 1 ∧ magUnits p * 2 ^ k + magUnits (p + 1) * 2 ^ k ≤ 2 * m ∧
        (2 * m = magUnits p * 2 ^ k + magUnits (p + 1) * 2 ^ k → roundPattern m k % 2 = 0))) := by
  unfold roundPattern
  generalize ht : Nat.log2 m - 23 - k = t
  have hlt : m / 2 ^ (k + t) < 2 ^ 24 := by
    rw [Nat.div_lt_iff_lt_mul (by positivity), ← pow_add]
    exact Nat.lt_log2_self.trans_le (Nat.pow_le_pow_right (by decide) (by omega))
  have hnormal : t = 0 ∨ 2 ^ 23 ≤ m / 2 ^ (k + t) := by
    refine or_iff_not_imp_left.2 fun h0 => ?_
    have hm : m ≠ 0 := by
      rintro rfl
      simp at ht
      omega
    rw [Nat.le_div_iff_mul_le (by positivity), ← pow_add]
    exact (Nat.pow_le_pow_right (by decide) (by omega)).trans (Nat.log2_self_le hm)
  have hlo : magUnits (t * 2 ^ 23 + m / 2 ^ (k + t)) * 2 ^ k = m / 2 ^ (k + t) * 2 ^ (k + t) := by
    rw [magUnits_binade hlt.le hnormal]
    ring
  have hhi : magUnits (t * 2 ^ 23 + m / 2 ^ (k + t) + 1) * 2 ^ k = m / 2 ^ (k + t) * 2 ^ (k + t) + 2 ^ (k + t) := by
    rw [add_assoc, magUnits_binade (by omega) (by omega)]
    ring
  have hdiv : m / 2 ^ (k + t) * 2 ^ (k + t) + m % 2 ^ (k + t) = m := Nat.div_add_mod' _ _
  have hmod : m % 2 ^ (k + t) < 2 ^ (k + t) := Nat.mod_lt _ (by positivity)
  refine ⟨t * 2 ^ 23 + m / 2 ^ (k + t), ?_⟩
  rw [hlo, hhi]
  rcases roundHalfEven_cases m (k + t) with ⟨hr, hle, htie⟩ | ⟨hr, hle, htie⟩ <;> rw [hr] <;> omega

/-- The nearer end of an interval is nearer to a number inside than anything outside the interval, but for the other end when
the number is half way; `P` then is what the choice of the end ensures. -/
theorem nearer_end {lo hi m y r : Int} {P : Prop} (hlo : lo ≤ m) (hhi : m < hi) (hy : y ≤ lo ∨ hi ≤ y)
    (hr : (r = lo ∧ 2 * m ≤ lo + hi ∧ (2 * m = lo + hi → P)) ∨ (r = hi ∧ lo + hi ≤ 2 * m ∧ (2 * m = lo + hi → P))) :
    |r - m| ≤ |y - m| ∧ (y ≠ r → |y - m| = |r - m| → P) := by
  rcases hr with ⟨rfl, hle, htie⟩ | ⟨rfl, hle, htie⟩
  · rw [abs_of_nonpos (show r - m ≤ 0 by omega)]
    rcases hy with hy | hy
    · rw [abs_of_nonpos (show y - m ≤ 0 by omega)]
      exact ⟨by omega, fun hne heq => absurd heq (by omega)⟩
    · rw [abs_of_pos (show 0 < y - m by omega)]
      exact ⟨by omega, fun _ heq => htie (by omega)⟩
  · rw [abs_of_pos (show 0 < r - m by omega)]
    rcases hy with hy | hy
    · rw [abs_of_nonpos (show y - m ≤ 0 by omega)]
      exact ⟨by omega, fun _ heq => htie (by omega)⟩
    · rw [abs_of_pos (show 0 < y - m by omega)]
      exact ⟨by omega, fun hne heq => absurd heq (by omega)⟩

/-- No pattern is nearer to the rounded number than the one it is rounded to, and where another is equally near that one is
even. -/
theorem roundPattern_nearest (m k x : Nat) :
    |(magUnits (roundPattern m k) : Int) * 2 ^ k - m| ≤ |(magUnits x : Int) * 2 ^ k - m| ∧
    (magUnits x ≠ magUnits (roundPattern m k) →
      |(magUnits x : Int) * 2 ^ k - m| = |(magUnits (roundPattern m k) : Int) * 2 ^ k - m| →
      roundPattern m k % 2 = 0) := by
  obtain ⟨p, hlo, hhi, hr⟩ := roundPattern_cases m k
  have hmono : ∀ {p q : Nat}, p ≤ q → (magUnits p : Int) * 2 ^ k ≤ magUnits q * 2 ^ k := fun h => by
    exact_mod_cast Nat.mul_le_mul_right _ (magUnits_strictMono.monotone h)
  have hx := (Nat.lt_or_ge p x).symm.imp hmono hmono
  zify at hlo hhi hr
  have hnear := nearer_end (r := magUnits (roundPattern m k) * 2 ^ k) hlo hhi hx
    (hr.imp (And.imp_left fun h => by rw [Int.ofNat_inj.1 h]) (And.imp_left fun h => by rw [Int.ofNat_inj.1 h]))
  refine ⟨hnear.1, fun hne heq => ?_⟩
  have := hnear.2 (fun he => hne ?_) heq
  · exact_mod_cast this
  · exact_mod_cast mul_right_cancel₀ (by positivity) he

/-- Rounding overflows exactly from half way between the largest finite value and the next power of two on; half way itself
overflows because the largest finite pattern is odd. -/
theorem roundPattern_lt_infMag_iff (m k : Nat) : roundPattern m k < infMag ↔ m < (2 ^ 25 - 1) * 2 ^ 252 * 2 ^ k := by
  have hmax : magUnits (infMag - 1) = (2 ^ 24 - 1) * 2 * 2 ^ 252 := by decide
  have hinf : magUnits infMag = 2 ^ 24 * 2 * 2 ^ 252 := by decide
  have hhalf : magUnits (infMag - 1) * 2 ^ k + magUnits infMag * 2 ^ k = 2 * ((2 ^ 25 - 1) * 2 ^ 252 * 2 ^ k) := by
    rw [hmax, hinf]
    ring
  have hmono : ∀ {p q : Nat}, p ≤ q → magUnits p * 2 ^ k ≤ magUnits q * 2 ^ k := fun h =>
    Nat.mul_le_mul_right _ (magUnits_strictMono.monotone h)
  have hstrict : magUnits (infMag - 1) * 2 ^ k < magUnits infMag * 2 ^ k :=
    Nat.mul_lt_mul_of_pos_right (magUnits_strictMono (by decide)) (by positivity)
  generalize (2 ^ 25 - 1) * 2 ^ 252 * 2 ^ k = half at hhalf ⊢
  obtain ⟨p, hlo, hhi, hr⟩ := roundPattern_cases m k
  constructor
  · intro hlt
    by_cases hp : p + 1 < infMag
    · have := hmono (Nat.le_sub_one_of_lt hp)
      omega
    · rcases hr with ⟨hr, hle, htie⟩ | ⟨hr, -, -⟩
      · obtain rfl : p = infMag - 1 := by omega
        have hodd : (infMag - 1) % 2 = 1 := by decide
        rw [show infMag - 1 + 1 = infMag by decide] at hle htie
        omega
      · omega
  · intro hm
    by_contra hge
    rcases hr with ⟨hr, -, -⟩ | ⟨hr, hle, -⟩
    · have := hmono (show infMag ≤ p by omega)
      omega
    · have h1 := hmono (show infMag - 1 ≤ p by omega)
      have h2 := hmono (show infMag ≤ p + 1 by omega)
      omega

/-! ### The sign -/

/-- A sign and a magnitude as a number. -/
def signed (neg : Bool) (u : Nat) : Int := if neg then -(u : Int) else u

theorem fInt_eq_signed (a : F) : fInt a = signed (fSign a) (fUnits a) := rfl

theorem signed_natAbs (e : Int) : signed (decide (e < 0)) e.natAbs = e := by
  simp only [signed, decide_eq_true_eq]
  split <;> omega

theorem signed_mul_signed (n n' : Bool) (u u' : Nat) : signed n u * signed n' u' = signed (n != n') (u * u') := by
  cases n <;> cases n' <;> simp [signed]

theorem natAbs_signed (n : Bool) (u : Nat) : (signed n u).natAbs = u := by
  cases n <;> simp [signed]

theorem fInt_packF (neg : Bool) {mag : Nat} (h : mag < 2 ^ 31) : fInt (packF neg mag) = signed neg (magUnits mag) := by
  rw [fInt_eq_signed, fSign_packF neg h, fUnits_eq_magUnits, fMag_packF neg h]

/-- Numbers of one sign are as far apart as their magnitudes. -/
theorem abs_signed_sub_same (n : Bool) (u m k : Nat) :
    |signed n u * 2 ^ k - signed n m| = |(u : Int) * 2 ^ k - m| := by
  cases n
  · rfl
  · rw [← abs_neg]
    congr 1
    simp only [signed, if_true]
    ring

/-- Numbers of opposite signs are as far apart as the sum of their magnitudes. -/
theorem abs_signed_sub_opposite {n n' : Bool} (h : n ≠ n') (u m k : Nat) :
    |signed n u * 2 ^ k - signed n' m| = (u : Int) * 2 ^ k + m := by
  have hpos : (0 : Int) ≤ u * 2 ^ k + m := by positivity
  cases n <;> cases n' <;> simp only [signed, if_true, Bool.false_eq_true, if_false, ne_eq, not_true_eq_false] at h ⊢
  · rw [sub_neg_eq_add, abs_of_nonneg hpos]
  · rw [← abs_of_nonneg hpos, ← abs_neg]
    congr 1
    ring

/-! ### Rounding to nearest, ties to even -/

/-- `r` is finite, no finite value is nearer to `e * 2^-(149+k)`, and where another value is equally near the pattern of `r` is
even. -/
def RoundsTo (k : Nat) (e : Int) (r : F) : Prop :=
  isFinite r = true ∧ ∀ x : F, isFinite x = true →
    |fInt r * 2 ^ k - e| ≤ |fInt x * 2 ^ k - e| ∧
    (fInt x ≠ fInt r → |fInt x * 2 ^ k - e| = |fInt r * 2 ^ k - e| → r.toNat % 2 = 0)

theorem roundUnits_of_lt {m k : Nat} (h : m < (2 ^ 25 - 1) * 2 ^ 252 * 2 ^ k) : roundUnits m k = roundPattern m k := by
  rw [roundUnits_eq_min, min_eq_left ((roundPattern_lt_infMag_iff m k).2 h).le]

theorem roundUnits_of_ge {m k : Nat} (h : (2 ^ 25 - 1) * 2 ^ 252 * 2 ^ k ≤ m) : roundUnits m k = infMag := by
  rw [roundUnits_eq_min, min_eq_right (Nat.le_of_not_lt fun hlt => h.not_gt ((roundPattern_lt_infMag_iff m k).1 hlt))]

theorem roundUnits_le_infMag (m k : Nat) : roundUnits m k ≤ infMag := by
  rw [roundUnits_eq_min]
  exact min_le_right _ _

@[simp] theorem roundUnits_zero (k : Nat) : roundUnits 0 k = 0 := by
  simp [roundUnits, roundHalfEven]

/-- One rounding of a number that does not overflow, with the number's sign. A value of the other sign is no nearer than the
value of the same magnitude with the same sign. -/
theorem roundsTo_packF (neg : Bool) {m k : Nat} (h : m < (2 ^ 25 - 1) * 2 ^ 252 * 2 ^ k) :
    RoundsTo k (signed neg m) (packF neg (roundUnits m k)) := by
  have hlt : roundPattern m k < infMag := (roundPattern_lt_infMag_iff m k).2 h
  have h31 : roundPattern m k < 2 ^ 31 := hlt.trans (by decide)
  rw [roundUnits_of_lt h]
  refine ⟨isFinite_packF neg hlt, fun x _ => ?_⟩
  rw [packF_toNat_mod_two neg h31, fInt_packF neg h31, abs_signed_sub_same, fInt_eq_signed, fUnits_eq_magUnits]
  obtain ⟨hnear, htie⟩ := roundPattern_nearest m k (fMag x)
  by_cases hsign : fSign x = neg
  · rw [hsign, abs_signed_sub_same]
    exact ⟨hnear, fun hne => htie fun he => hne (by rw [he])⟩
  · rw [abs_signed_sub_opposite hsign]
    have hzero := (roundPattern_nearest m k 0).1
    have hu : (0 : Int) ≤ magUnits (fMag x) * 2 ^ k := by positivity
    have hm : |(0 : Int) - m| = m := by simp
    simp only [magUnits_zero, Nat.cast_zero, zero_mul, hm] at hzero
    refine ⟨hnear.trans (abs_le.2 ⟨by omega, by omega⟩), fun hne heq => ?_⟩
    have hx : magUnits (fMag x) = 0 := by
      have : (magUnits (fMag x) : Int) * 2 ^ k = 0 := by omega
      simpa using this
    rw [hx] at hne heq htie
    refine htie (fun he => hne ?_) ?_
    · rw [← he]
      cases fSign x <;> cases neg <;> rfl
    · simpa using heq

end Sys2Proof.Machine
end

section
/-!
SUPPORT. The operations of R12 by cases of their operands, and the statements about them: O39, O40, O41.
-/

namespace Sys2Proof.Machine

/-! ### The classes of values -/

theorem isInf_iff (a : F) : isInf a = true ↔ fMag a = infMag := beq_iff_eq

theorem isNaN_eq_false_iff (a : F) : isNaN a = false ↔ fMag a ≤ infMag := by
  rw [isNaN, decide_eq_false_iff_not, not_lt]

theorem isNaN_of_isFinite {a : F} (h : isFinite a = true) : isNaN a = false :=
  (isNaN_eq_false_iff a).2 ((isFinite_iff a).1 h).le

theorem isInf_of_isFinite {a : F} (h : isFinite a = true) : isInf a = false :=
  Bool.eq_false_iff.2 fun hi => ((isFinite_iff a).1 h).ne ((isInf_iff a).1 hi)

theorem isNaN_of_isInf {a : F} (h : isInf a = true) : isNaN a = false :=
  (isNaN_eq_false_iff a).2 ((isInf_iff a).1 h).le

theorem isZero_of_isInf {a : F} (h : isInf a = true) : isZero a = false := by
  rw [isZero, (isInf_iff a).1 h]
  rfl

/-- The infinity of a sign. -/
theorem packF_infMag (neg : Bool) : packF neg infMag = if neg then 0xFF800000#32 else 0x7F800000#32 := by
  cases neg <;> rfl

theorem packF_zero (neg : Bool) : packF neg 0 = if neg then 0x80000000#32 else 0x00000000#32 := by
  cases neg <;> rfl

/-- An infinity is the infinity of its sign. -/
theorem eq_packF_of_isInf {a : F} (h : isInf a = true) : a = packF (fSign a) infMag := by
  rw [← (isInf_iff a).1 h, packF_fSign_fMag]

theorem isNaN_packF (neg : Bool) {mag : Nat} (h : mag ≤ infMag) : isNaN (packF neg mag) = false := by
  rw [isNaN_eq_false_iff, fMag_packF neg (h.trans_lt (by decide))]
  exact h

theorem isNaN_quietNaN (k : Nat) : isNaN (quietNaN k) = true := by
  have h := quietNaN_isQuietNaN k
  rw [isQuietNaN, Bool.and_eq_true] at h
  exact h.1

/-- A value is a NaN, an infinity or finite. -/
theorem isFinite_of_not_isNaN_of_not_isInf {a : F} (hn : isNaN a = false) (hi : isInf a = false) : isFinite a = true := by
  have hle := (isNaN_eq_false_iff a).1 hn
  have hne : fMag a ≠ infMag := fun h => Bool.eq_false_iff.1 hi ((isInf_iff a).2 h)
  exact (isFinite_iff a).2 (lt_of_le_of_ne hle hne)

/-! ### Addition -/

/-- The operands whose sum is a NaN. -/
theorem fadd_invalid {k : Nat} {a b : F}
    (h : isNaN a = true ∨ isNaN b = true ∨ (isInf a = true ∧ isInf b = true ∧ a ≠ b)) : fadd k a b = quietNaN k := by
  unfold fadd
  rw [if_pos]
  rcases h with ha | hb | ⟨ha, hb, hne⟩
  · simp [ha]
  · simp [hb]
  · have hsign : fSign a ≠ fSign b := fun h => hne (by rw [eq_packF_of_isInf ha, eq_packF_of_isInf hb, h])
    simp [ha, hb, hsign]

/-- An infinity added to itself or to a finite value. -/
theorem fadd_inf_left {k : Nat} {a b : F} (ha : isInf a = true) (hb : isFinite b = true ∨ b = a) : fadd k a b = a := by
  have hbn : isNaN b = false := by
    rcases hb with hb | rfl
    · exact isNaN_of_isFinite hb
    · exact isNaN_of_isInf ha
  have hbi : isInf b = false ∨ b = a := hb.imp_left isInf_of_isFinite
  unfold fadd
  rw [if_neg, if_pos ha]
  rcases hbi with hbi | rfl
  · simp [isNaN_of_isInf ha, hbn, hbi]
  · simp [hbn]

theorem fadd_inf_right {k : Nat} {a b : F} (ha : isFinite a = true) (hb : isInf b = true) : fadd k a b = b := by
  simp [fadd, isNaN_of_isFinite ha, isInf_of_isFinite ha, isNaN_of_isInf hb, hb]

/-- Finite operands: the exact sum is rounded once; an exact zero has the sign both operands share, else `+`. -/
theorem fadd_finite {k : Nat} {a b : F} (ha : isFinite a = true) (hb : isFinite b = true) :
    fadd k a b = if fInt a + fInt b = 0 then packF (fSign a && fSign b) 0
      else packF (decide (fInt a + fInt b < 0)) (roundUnits (fInt a + fInt b).natAbs 0) := by
  simp [fadd, isNaN_of_isFinite ha, isInf_of_isFinite ha, isNaN_of_isFinite hb, isInf_of_isFinite hb]

/-- A finite sum is its sign and the rounded magnitude of the exact sum, a zero included. -/
theorem fadd_finite_eq_packF (k : Nat) {a b : F} (ha : isFinite a = true) (hb : isFinite b = true) :
    ∃ neg, fInt a + fInt b = signed neg (fInt a + fInt b).natAbs ∧
      fadd k a b = packF neg (roundUnits (fInt a + fInt b).natAbs 0) := by
  rw [fadd_finite ha hb]
  by_cases h0 : fInt a + fInt b = 0
  · rw [if_pos h0, h0]
    refine ⟨fSign a && fSign b, ?_, by simp⟩
    cases fSign a && fSign b <;> rfl
  · rw [if_neg h0]
    exact ⟨_, (signed_natAbs _).symm, rfl⟩

theorem fadd_roundsTo {k : Nat} {a b : F} (ha : isFinite a = true) (hb : isFinite b = true)
    (h : |fInt a + fInt b| < (2 ^ 25 - 1) * 2 ^ 252) : RoundsTo 0 (fInt a + fInt b) (fadd k a b) := by
  obtain ⟨neg, hsum, hadd⟩ := fadd_finite_eq_packF k ha hb
  rw [Int.abs_eq_natAbs] at h
  rw [hadd]
  generalize fInt a + fInt b = e at *
  rw [hsum, natAbs_signed]
  exact roundsTo_packF neg (by omega)

theorem isNaN_fadd_iff (k : Nat) (a b : F) : isNaN (fadd k a b) = true ↔
    isNaN a = true ∨ isNaN b = true ∨ (isInf a = true ∧ isInf b = true ∧ a ≠ b) := by
  refine ⟨fun h => ?_, fun h => by rw [fadd_invalid h, isNaN_quietNaN]⟩
  by_contra hno
  push Not at hno
  obtain ⟨hna, hnb, hinf⟩ := hno
  rw [ne_eq, Bool.not_eq_true] at hna hnb
  cases hia : isInf a <;> cases hib : isInf b
  · have ha := isFinite_of_not_isNaN_of_not_isInf hna hia
    have hb := isFinite_of_not_isNaN_of_not_isInf hnb hib
    obtain ⟨neg, -, hadd⟩ := fadd_finite_eq_packF k ha hb
    rw [hadd, isNaN_packF neg (roundUnits_le_infMag _ _)] at h
    cases h
  · rw [fadd_inf_right (isFinite_of_not_isNaN_of_not_isInf hna hia) hib, hnb] at h
    cases h
  · rw [fadd_inf_left hia (.inl (isFinite_of_not_isNaN_of_not_isInf hnb hib)), hna] at h
    cases h
  · rw [fadd_inf_left hia (.inr (hinf hia hib).symm), hna] at h
    cases h

theorem fadd_overflow {k : Nat} {a b : F} (ha : isFinite a = true) (hb : isFinite b = true)
    (h : (2 ^ 25 - 1) * 2 ^ 252 ≤ |fInt a + fInt b|) :
    fadd k a b = if 0 < fInt a + fInt b then 0x7F800000#32 else 0xFF800000#32 := by
  rw [Int.abs_eq_natAbs] at h
  rw [fadd_finite ha hb]
  generalize fInt a + fInt b = e at *
  rw [if_neg (by omega), roundUnits_of_ge (by omega), packF_infMag]
  rcases lt_or_gt_of_ne (show e ≠ 0 by omega) with hneg | hpos
  · rw [if_pos (decide_eq_true hneg), if_neg (by omega)]
  · rw [if_neg (by simpa using hpos.le), if_pos hpos]

theorem fUnits_eq_zero_iff (a : F) : fUnits a = 0 ↔ fMag a = 0 := by
  rw [fUnits_eq_magUnits, magUnits_eq_zero_iff]

theorem eq_negZero_iff (a : F) : a = 0x80000000#32 ↔ fSign a = true ∧ fMag a = 0 := by
  constructor
  · rintro rfl
    exact ⟨rfl, rfl⟩
  · rintro ⟨hs, hm⟩
    rw [← packF_fSign_fMag a, hs, hm]
    rfl

/-- Two negative values with the sum 0 are zeros. -/
theorem fadd_zero_sum {k : Nat} {a b : F} (ha : isFinite a = true) (hb : isFinite b = true) (h : fInt a + fInt b = 0) :
    fadd k a b = if a = 0x80000000#32 ∧ b = 0x80000000#32 then 0x80000000#32 else 0x00000000#32 := by
  rw [fadd_finite ha hb, if_pos h, packF_zero]
  refine if_congr ?_ rfl rfl
  rw [Bool.and_eq_true, eq_negZero_iff, eq_negZero_iff, ← fUnits_eq_zero_iff, ← fUnits_eq_zero_iff]
  constructor
  · rintro ⟨hsa, hsb⟩
    simp only [fInt_eq_signed, signed, hsa, hsb, if_true] at h
    exact ⟨⟨hsa, by omega⟩, hsb, by omega⟩
  · rintro ⟨⟨hsa, -⟩, hsb, -⟩
    exact ⟨hsa, hsb⟩

/-! ### Multiplication -/

/-- The operands whose product is a NaN. -/
theorem fmul_invalid {k : Nat} {a b : F}
    (h : isNaN a = true ∨ isNaN b = true ∨ (isInf a = true ∧ isZero b = true) ∨ (isZero a = true ∧ isInf b = true)) :
    fmul k a b = quietNaN k := by
  unfold fmul
  rw [if_pos]
  simpa [or_assoc] using h

/-- Any other product is its sign, the exclusive or, and a magnitude: that of an infinity where an operand is one, else the
rounded exact product. -/
theorem fmul_valid {k : Nat} {a b : F}
    (h : ¬(isNaN a = true ∨ isNaN b = true ∨ (isInf a = true ∧ isZero b = true) ∨ (isZero a = true ∧ isInf b = true))) :
    fmul k a b = packF (fSign a != fSign b)
      (if isInf a || isInf b then infMag else roundUnits (fUnits a * fUnits b) 149) := by
  unfold fmul
  rw [if_neg (by simpa [or_assoc] using h)]
  split <;> rfl

theorem fmul_finite {k : Nat} {a b : F} (ha : isFinite a = true) (hb : isFinite b = true) :
    fmul k a b = packF (fSign a != fSign b) (roundUnits (fUnits a * fUnits b) 149) := by
  rw [fmul_valid] <;> simp [isNaN_of_isFinite ha, isInf_of_isFinite ha, isNaN_of_isFinite hb, isInf_of_isFinite hb]

theorem fInt_mul_fInt (a b : F) : fInt a * fInt b = signed (fSign a != fSign b) (fUnits a * fUnits b) := by
  rw [fInt_eq_signed, fInt_eq_signed, signed_mul_signed]

theorem abs_signed (n : Bool) (u : Nat) : |signed n u| = u := by
  cases n <;> simp [signed]

theorem fmul_roundsTo {k : Nat} {a b : F} (ha : isFinite a = true) (hb : isFinite b = true)
    (h : |fInt a * fInt b| < (2 ^ 25 - 1) * 2 ^ 401) : RoundsTo 149 (fInt a * fInt b) (fmul k a b) := by
  rw [fInt_mul_fInt, abs_signed] at h
  rw [fInt_mul_fInt, fmul_finite ha hb]
  exact roundsTo_packF _ (by omega)

theorem isNaN_fmul_iff (k : Nat) (a b : F) : isNaN (fmul k a b) = true ↔
    isNaN a = true ∨ isNaN b = true ∨ (isInf a = true ∧ isZero b = true) ∨ (isZero a = true ∧ isInf b = true) := by
  refine ⟨fun h => ?_, fun h => by rw [fmul_invalid h, isNaN_quietNaN]⟩
  by_contra hno
  rw [fmul_valid hno, isNaN_packF] at h
  · cases h
  · split
    · exact le_rfl
    · exact roundUnits_le_infMag _ _

theorem fmul_overflow {k : Nat} {a b : F} (ha : isFinite a = true) (hb : isFinite b = true)
    (h : (2 ^ 25 - 1) * 2 ^ 401 ≤ |fInt a * fInt b|) :
    fmul k a b = if 0 < fInt a * fInt b then 0x7F800000#32 else 0xFF800000#32 := by
  rw [fInt_mul_fInt, abs_signed] at h
  rw [fmul_finite ha hb, fInt_mul_fInt, roundUnits_of_ge (by omega), packF_infMag]
  generalize fUnits a * fUnits b = u at h
  cases fSign a != fSign b
  · rw [if_neg Bool.false_ne_true, if_pos (show (0 : Int) < signed false u by simp [signed]; omega)]
  · rw [if_pos rfl, if_neg (show ¬(0 : Int) < signed true u by simp [signed])]

theorem fmul_inf_left {k : Nat} {a b : F} (ha : isInf a = true) (hbn : isNaN b = false) (hbz : isZero b = false) :
    fmul k a b = packF (fSign a != fSign b) infMag := by
  rw [fmul_valid] <;> simp [ha, isNaN_of_isInf ha, isZero_of_isInf ha, hbn, hbz]

theorem fmul_inf_right {k : Nat} {a b : F} (ha : isInf a = true) (hbn : isNaN b = false) (hbz : isZero b = false) :
    fmul k b a = packF (fSign a != fSign b) infMag := by
  rw [fmul_valid, bne_comm] <;> simp [ha, isNaN_of_isInf ha, isZero_of_isInf ha, hbn, hbz]

/-! ### The statements -/

theorem RoundsTo.of_zero {e : Int} {r : F} (h : RoundsTo 0 e r) : isFinite r = true ∧ ∀ x : F, isFinite x = true →
    |fInt r - e| ≤ |fInt x - e| ∧ (fInt x ≠ fInt r → |fInt x - e| = |fInt r - e| → r.toNat % 2 = 0) := by
  simpa only [RoundsTo, pow_zero, mul_one] using h

/-- Settles O39, by the single rounding of the exact sum. -/
theorem addRoundsToNearestEven : Obligations.AddRoundsToNearestEven :=
  fun _ _ _ ha hb h => (fadd_roundsTo ha hb h).of_zero

/-- Settles O40, by the single rounding of the exact product. -/
theorem mulRoundsToNearestEven : Obligations.MulRoundsToNearestEven := by
  intro k a b ha hb h
  obtain ⟨hfin, hnear⟩ := fmul_roundsTo (k := k) ha hb h
  have hmag := (roundUnits_le_infMag (fUnits a * fUnits b) 149).trans_lt (show infMag < 2 ^ 31 by decide)
  have hsign : (fmul k a b).msb = (a.msb != b.msb) := by
    rw [fmul_finite ha hb]
    exact fSign_packF _ hmag
  exact ⟨hfin, hsign, hnear⟩

theorem isQuietNaN_fadd {k : Nat} {a b : F} (h : isNaN (fadd k a b) = true) : isQuietNaN (fadd k a b) = true := by
  rw [fadd_invalid ((isNaN_fadd_iff k a b).1 h), quietNaN_isQuietNaN]

theorem isQuietNaN_fmul {k : Nat} {a b : F} (h : isNaN (fmul k a b) = true) : isQuietNaN (fmul k a b) = true := by
  rw [fmul_invalid ((isNaN_fmul_iff k a b).1 h), quietNaN_isQuietNaN]

/-- Settles O41, clause by clause from the operations' cases. -/
theorem arithmeticSpecialCases : Obligations.ArithmeticSpecialCases := by
  refine ⟨fun _ _ _ ha hb h => fadd_overflow ha hb h, fun _ _ _ ha hb h => fmul_overflow ha hb h,
    fun k a b => ⟨isNaN_fadd_iff k a b, isQuietNaN_fadd⟩, fun k a b => ⟨isNaN_fmul_iff k a b, isQuietNaN_fmul⟩,
    fun _ _ _ ha hb => ⟨fadd_inf_left ha (.inl hb), fadd_inf_right hb ha⟩, fun _ _ ha => fadd_inf_left ha (.inr rfl),
    fun k a b ha hbn hbz => ⟨?_, ?_⟩, fun _ _ _ ha hb h => fadd_zero_sum ha hb h, fun _ _ _ => rfl⟩
  · rw [fmul_inf_left ha hbn hbz, packF_infMag]
    by_cases hsign : a.msb = b.msb <;> simp [fSign, hsign]
  · rw [fmul_inf_right ha hbn hbz, fmul_inf_left ha hbn hbz]

end Sys2Proof.Machine
end

section
/-!
SUPPORT. The reset state (R40) and the reset event (R280): O53, O54.
-/

namespace Sys2Proof.Machine

/-! ### The values of R40 -/

theorem resetValues_resetWith (g : Params) : ResetValues g (State.resetWith g) where
  mem := rfl
  act := rfl
  pub := rfl
  byp := ⟨rfl, rfl⟩
  param := rfl
  rate := rfl
  flags := ⟨rfl, rfl⟩
  record := ⟨rfl, rfl, rfl⟩
  ring := ⟨rfl, rfl, fun _ => rfl⟩
  analyzer := ⟨rfl, rfl, rfl⟩
  path := ⟨rfl, rfl⟩
  view := rfl
  cfg := rfl

/-- What the reset event carries over, the streams and the counters, is no piece of state of R20. -/
theorem resetValues_resetEvent (s : State) : ResetValues s.cfg (resetEvent s) :=
  { resetValues_resetWith s.cfg with }

theorem step_of_reset_scheduled {s : State} {ag : List Agent} (h : s.sched = .reset :: ag) :
    step s = .next (resetEvent s) := by
  simp [step, nextEvent, h]

/-- Settles O53, from the values of the reset state and the step at a scheduled reset. -/
theorem resetRestoresEverything : Obligations.ResetRestoresEverything :=
  ⟨resetValues_resetWith, resetValues_resetWith _, rfl, rfl, rfl,
    fun s _ h => ⟨resetEvent s, step_of_reset_scheduled h, resetValues_resetEvent s⟩⟩

/-! ### The invariant at reset -/

theorem coefsFinite_ident : coefsFinite Coefs.ident = true := by decide

theorem isFinite_zero : isFinite 0#32 = true := by decide

theorem isFinite_oneF : isFinite oneF = true := by decide

theorem one_le_slots (st : Stage) : 1 ≤ slots st := by
  cases st <;> decide

theorem setOk_resetStageSet (st : Stage) : SetOk st (resetStageSet st) := by
  refine ⟨List.length_replicate, le_rfl, one_le_slots st, fun c hc => ?_⟩
  rw [List.eq_of_mem_replicate hc, coefsFinite_ident]

@[simp] theorem perStage_get {α : Type} (f : Stage → α) (st : Stage) : (perStage f).get st = f st := by
  cases st <;> rfl

/-- A pattern is finite when its exponent field is not all ones (R12). -/
theorem isFinite_of_exponent_ne {a : F} (h : a.extractLsb' 23 8 ≠ 255#8) : isFinite a = true := by
  rw [isFinite_iff]
  by_contra hge
  apply h
  apply BitVec.eq_of_toNat_eq
  have := a.isLt
  simp only [fMag] at hge
  simp only [BitVec.extractLsb'_toNat, Nat.shiftRight_eq_div_pow, BitVec.toNat_ofNat]
  omega

theorem viewOk_resetWith {g : Params} (h : g.Legal) : ViewOk (State.resetWith g).view := by
  obtain ⟨-, -, -, -, -, -, -, -, -, hfloor, hdbmin, hdbmax⟩ := h
  exact ⟨isFinite_zero, isFinite_oneF, isFinite_zero, isFinite_oneF, isFinite_of_exponent_ne hdbmin,
    isFinite_of_exponent_ne hdbmax, isFinite_of_exponent_ne hfloor⟩

theorem inv_resetWith {g : Params} (h : g.Legal) : Inv (State.resetWith g) where
  cfg := h
  act st := by
    simpa [State.resetWith] using setOk_resetStageSet st
  pub st := by
    simpa [State.resetWith] using setOk_resetStageSet st
  mem st := by simp [State.resetWith]
  status := show (0#32).toNat < 16 by decide
  lastcode := .inl rfl
  ring := le_rfl
  slot := slotsWf_reset g
  acc := List.length_replicate
  accfill := Nat.zero_le _
  mq := Nat.zero_le _
  mqEntries _ hm := nomatch hm
  latest := List.length_replicate
  latestFinite q hq := by
    rw [List.eq_of_mem_replicate hq]
    exact ⟨isFinite_zero, isFinite_zero⟩
  view := viewOk_resetWith h
  out p _ hr := by cases p <;> cases hr

/-- The free capacity of R8 is in the range of R8 and R79. -/
theorem legal_default : Params.default.Legal := by
  have hcap : Params.default.cap = Config.capDraw % (2 ^ 32 - 1) + 1 := rfl
  have hlt := Nat.mod_lt Config.capDraw (show 2 ^ 32 - 1 > 0 by decide)
  have hsize : 2 ≤ Params.default.n ∧ 2 ^ Nat.log2 Params.default.n = Params.default.n ∧
      2 * Params.default.nb ≤ 65535 ∧ 1 ≤ Params.default.l ∧ Params.default.l ≤ 65535 := by decide
  obtain ⟨hn, hpow, hnb, hl, hl'⟩ := hsize
  exact ⟨hn, hpow, hnb, hl, hl', by omega, by omega, by decide, by decide, by decide, by decide, by decide⟩

theorem rtClean_resetWith (g : Params) : RtClean (State.resetWith g) :=
  ⟨fun _ h => (nomatch h), fun _ h => (nomatch h)⟩

/-- Settles O54, field by field of the reset state. -/
theorem invHoldsAtReset : Obligations.InvHoldsAtReset :=
  ⟨fun _ h => inv_resetWith h, inv_resetWith legal_default, rtClean_resetWith⟩

end Sys2Proof.Machine
end

section
/-!
SUPPORT. The invariant of the block's state is inductive (O55): the shared operations keep it, then each command does, then a
step.
-/

namespace Sys2Proof

theorem PerStage.forall_get {α : Type} {P : Stage → α → Prop} {x : PerStage α} (hlc : P .lc x.lc) (hpk : P .pk x.pk)
    (hhc : P .hc x.hc) : ∀ st, P st (x.get st)
  | .lc => hlc
  | .pk => hpk
  | .hc => hhc

end Sys2Proof

namespace Sys2Proof.Machine

/-! ### The shared operations -/

/-- A response with data, which only a success has. -/
theorem Inv.respond {s : State} (h : Inv s) (p : Port) {c : Code} {ws : List Word} (hlen : ws.length ≤ 65535)
    (hdata : 2 ≤ (codeByte c).toNat → ws = []) : Inv (respond p c ws s) :=
  { h with
    out := fun q r hr => by
      rw [respond_out, PerPort.get_set] at hr
      split at hr
      · rcases List.mem_append.1 hr with hr | hr
        · exact h.out p r hr
        · rw [List.mem_singleton.1 hr]
          exact ⟨c, rfl, hlen, hdata⟩
      · exact h.out q r hr }

theorem Inv.respond_ok {s : State} (h : Inv s) (p : Port) {ws : List Word} (hlen : ws.length ≤ 65535) :
    Inv (Machine.respond p .ok ws s) :=
  h.respond p hlen fun hc => absurd hc (by decide)

theorem Inv.respond_nil {s : State} (h : Inv s) (p : Port) (c : Code) : Inv (Machine.respond p c [] s) :=
  h.respond p (Nat.zero_le _) fun _ => rfl

theorem codeByte_le (c : Code) : (codeByte c).toNat ≤ 5 := by
  cases c <;> decide

/-- A code of a refusal, which R254 records (R250). -/
theorem Inv.recordRefusal {s : State} (h : Inv s) {c : Code} (hc : 2 ≤ (codeByte c).toNat) (hdr : Word) :
    Inv (recordRefusal c hdr s) :=
  { h with
    status := by
      have hflag : (codeFlag c).toNat < 2 ^ 4 := by cases c <;> decide
      rw [recordRefusal_status, BitVec.toNat_or]
      exact Nat.or_lt_two_pow (n := 4) h.status hflag
    lastcode := .inr ⟨hc, codeByte_le c⟩ }

theorem Inv.refuse {s : State} (h : Inv s) (p : Port) {c : Code} (hc : 2 ≤ (codeByte c).toNat) (hdr : Word) :
    Inv (refuse p c hdr s) :=
  (h.recordRefusal hc hdr).respond_nil p c

theorem two_le_decodeErrorCode (e : DecodeError) : 2 ≤ (codeByte (decodeErrorCode e)).toNat := by
  cases e <;> decide

theorem Inv.accept {s : State} (h : Inv s) (p : Port) : Inv (accept p s) := { h with }

theorem Inv.endTurn {s : State} (h : Inv s) : Inv (endTurn s) := { h with }

/-- The reset event keeps the parameters and the responses and puts the rest at its reset values. -/
theorem Inv.resetEvent {s : State} (h : Inv s) : Inv (resetEvent s) := { inv_resetWith h.cfg with out := h.out }

/-! ### The stage sets -/

/-- A legal number of finite sections makes a legal stage set (R132, R170). -/
theorem setOk_stageSetOf {st : Stage} {secs : List Coefs} (h1 : 1 ≤ secs.length) (h2 : secs.length ≤ slots st)
    (hfin : ∀ c ∈ secs, coefsFinite c = true) : SetOk st (stageSetOf st secs) := by
  refine ⟨?_, h1, h2, fun c hc => ?_⟩
  · simp only [stageSetOf, List.length_append, List.length_replicate]
    omega
  · rcases List.mem_append.1 hc with hc | hc
    · exact hfin c hc
    · rw [List.eq_of_mem_replicate hc, coefsFinite_ident]

theorem enabledSections_stageSetOf (st : Stage) (secs : List Coefs) : enabledSections (stageSetOf st secs) = secs :=
  List.take_left

theorem setOk_stageSetOf_of_setFinite {st : Stage} {secs : List Coefs} (h1 : 1 ≤ secs.length)
    (h2 : secs.length ≤ slots st) (hfin : setFinite (stageSetOf st secs) = true) : SetOk st (stageSetOf st secs) := by
  rw [setFinite, enabledSections_stageSetOf, List.all_eq_true] at hfin
  exact setOk_stageSetOf h1 h2 hfin

theorem setOk_cutSet {st : Stage} {k : Word} {c : Coefs} (hst : slots st = 4) (hk : slopeOutOfRange k = false)
    (hfin : setFinite (cutSet st k c) = true) : SetOk st (cutSet st k c) := by
  rw [slopeOutOfRange, decide_eq_false_iff_not] at hk
  refine setOk_stageSetOf_of_setFinite ?_ ?_ hfin <;> rw [List.length_replicate] <;> omega

/-! ### The ring and the analyzer -/

/-- A take gives a whole block and leaves the invariant. -/
theorem Inv.ringTake {s t : State} {blk : List F} (h : Inv s) (ht : ringTake s = some (blk, t)) :
    Inv t ∧ blk.length = t.cfg.l := by
  obtain ⟨hne, rfl, rfl⟩ := ringTake_some ht
  obtain ⟨-, -, -, -, -, hcap, -⟩ := h.cfg
  exact ⟨{ h with ring := takeIndex_lt h.ring hne hcap }, slotGet_length h.slot _⟩

theorem shiftAppend_length {n l : Nat} {acc blk : List F} (hacc : acc.length = n) (hblk : blk.length = l) :
    (shiftAppend n l acc blk).length = n := by
  unfold shiftAppend
  split <;> simp only [List.length_drop, List.length_append] <;> omega

theorem enqueue_length_le {mqcap : Nat} {mq : List (List F)} (hcap : 1 ≤ mqcap) (hmq : mq.length ≤ mqcap) (m : List F) :
    (enqueue mqcap mq m).length ≤ mqcap := by
  unfold enqueue
  split <;> simp only [List.length_append, List.length_tail, List.length_singleton] <;> omega

theorem mem_enqueue {mqcap : Nat} {mq : List (List F)} {m x : List F} (h : x ∈ enqueue mqcap mq m) : x ∈ mq ∨ x = m := by
  unfold enqueue at h
  rw [List.mem_append, List.mem_singleton] at h
  refine h.imp_left fun h => ?_
  split at h
  · exact List.mem_of_mem_tail h
  · exact h

theorem floored_isFinite {floor : F} (h : isFinite floor = true) (d : F) : isFinite (floored floor d) = true := by
  unfold floored
  split
  · exact h
  · next hnan =>
    split
    · exact h
    · split
      · decide
      · next hinf =>
        rw [isNaN_iff] at hnan
        have hne : fMag d ≠ 0x7F800000 := fun he => hinf (beq_iff_eq.2 he)
        exact (isFinite_iff d).2 (by omega)

theorem spectrumValue_isFinite {floor : F} (h : isFinite floor = true) (n : Nat) (acc : List F) (k : Nat) :
    isFinite (spectrumValue n acc floor k) = true := by
  unfold spectrumValue
  split
  · exact h
  · split
    · exact floored_isFinite h _
    · exact h

@[simp] theorem spectrum_length (n nb : Nat) (acc : List F) (floor : F) : (spectrum n nb acc floor).length = nb := by
  simp [spectrum]

theorem isFinite_of_mem_spectrum {floor : F} (h : isFinite floor = true) {n nb : Nat} {acc : List F} {x : F}
    (hx : x ∈ spectrum n nb acc floor) : isFinite x = true := by
  obtain ⟨k, -, rfl⟩ := List.mem_map.1 hx
  exact spectrumValue_isFinite h n acc k

theorem Inv.analyze {s : State} (h : Inv s) {blk : List F} (hblk : blk.length = s.cfg.l) : Inv (analyze blk s) := by
  have hslide : Inv { s with
      acc := shiftAppend s.cfg.n s.cfg.l s.acc blk
      accfill := min s.cfg.n (s.accfill + s.cfg.l) } :=
    { h with
      acc := shiftAppend_length h.acc hblk
      accfill := min_le_left _ _ }
  unfold Machine.analyze
  simp only
  split
  · exact hslide.respond_ok .pr (by simp)
  · obtain ⟨-, -, -, -, -, -, -, hmqcap, -⟩ := h.cfg
    obtain ⟨-, -, -, -, -, -, hfloor⟩ := h.view
    refine Inv.respond_ok ?_ .pr (by simp)
    exact
      { hslide with
        mq := enqueue_length_le hmqcap h.mq _
        mqEntries := fun m hm => by
          rcases mem_enqueue hm with hm | rfl
          · exact h.mqEntries m hm
          · exact ⟨spectrum_length _ _ _ _, fun x hx => isFinite_of_mem_spectrum hfloor hx⟩ }

/-! ### The path and the view registers -/

theorem pathOf_length (n : Nat) (fs : F) (v : ViewRegs) (m : List F) : (pathOf n fs v m).length = m.length := by
  simp [pathOf]

theorem isFinite_of_mem_pathOf {v : ViewRegs} (h : ViewOk v) {n : Nat} {fs : F} {m : List F} {q : Point}
    (hq : q ∈ pathOf n fs v m) : isFinite q.x = true ∧ isFinite q.y = true := by
  obtain ⟨hvx0, -⟩ := h
  obtain ⟨i, hi, rfl⟩ := List.mem_mapIdx.1 hq
  refine ⟨?_, finitize_isFinite _⟩
  unfold pathPoint
  simp only
  split
  · exact hvx0
  · exact finitize_isFinite _

/-- The path left is that of the last queue entry (R222). -/
theorem latestPath_cases (s : State) :
    latestPath s = s.latest ∨ ∃ m ∈ s.mq, latestPath s = pathOf s.cfg.n s.fs s.view m := by
  unfold latestPath
  rcases List.eq_nil_or_concat s.mq with hmq | ⟨front, m, hmq⟩
  · left
    rw [hmq, List.foldl_nil]
  · right
    refine ⟨m, ?_, ?_⟩
    · simp [hmq]
    · rw [hmq, List.concat_eq_append, List.foldl_concat]

theorem viewOk_writeView {v : ViewRegs} (h : ViewOk v) {x : F} (hx : isFinite x = true) (vid : View) :
    ViewOk (writeView vid x v) := by
  obtain ⟨hvx0, hvw, hvyb, hvyt, hdbmin, hdbmax, hfloor⟩ := h
  cases vid <;> simp only [ViewOk, writeView, hvx0, hvw, hvyb, hvyt, hdbmin, hdbmax, hfloor, hx, and_self]

theorem pathWords_length (ps : List Point) : (pathWords ps).length = 2 * ps.length := by
  simp [pathWords, List.length_flatMap, Nat.mul_comm]

/-! ### The commands -/

/-- Whatever state the outcome gives meets the invariant. -/
def InvAfter (r : Result) : Prop := ∀ t, r = .next t → Inv t

theorem invAfter_next {t : State} (h : Inv t) : InvAfter (.next t) := by
  rintro _ ⟨⟩
  exact h

/-- The section memories stay in their shape when each stage keeps its number of them. -/
theorem Inv.mem_of_length_eq {s : State} (h : Inv s) {mem : PerStage (List SecMem)}
    (hlc : mem.lc.length = s.mem.lc.length) (hpk : mem.pk.length = s.mem.pk.length)
    (hhc : mem.hc.length = s.mem.hc.length) : ∀ st, (mem.get st).length = slots st :=
  PerStage.forall_get (P := fun st (ms : List SecMem) => ms.length = slots st) (hlc.trans (h.mem .lc)) (hpk.trans (h.mem .pk))
    (hhc.trans (h.mem .hc))

theorem Inv.execSync {s : State} (h : Inv s) : InvAfter (execSync s) := by
  refine invAfter_next (Inv.respond_nil ?_ .rt .ok)
  exact
    { h with
      act := h.pub
      mem := h.mem_of_length_eq (adoptMem_length _ _ _) (adoptMem_length _ _ _) (adoptMem_length _ _ _) }

theorem Inv.execProc {s : State} (h : Inv s) (x : F) : InvAfter (execProc x s) := by
  refine invAfter_next (Inv.respond_ok ?_ .rt (by simp))
  exact
    { h with
      mem := h.mem_of_length_eq (stageStep_length _ _ _ _ _) (stageStep_length _ _ _ _ _) (stageStep_length _ _ _ _ _) }

theorem Inv.execPush {s : State} (h : Inv s) {blk : List F} (hblk : blk.length = s.cfg.l) :
    InvAfter (execPush blk s) := by
  obtain ⟨-, -, -, -, -, hcap, -⟩ := h.cfg
  refine invAfter_next (Inv.respond_nil ?_ .rt .ok)
  exact
    { h with
      slot := slotsWf_slotSet h.slot (Nat.mod_lt _ hcap) hblk
      ring := h.ring.trans (Nat.le_succ _) }

theorem Inv.execUpds {s : State} (h : Inv s) {stg : Stage} {secs : List Coefs} (h1 : 1 ≤ secs.length)
    (h2 : secs.length ≤ slots stg) : InvAfter (execUpds stg secs s) := by
  unfold Machine.execUpds
  split
  · next hfin =>
    have hpub : ∀ st, SetOk st ((s.pub.set stg (stageSetOf stg secs)).get st) := fun st => by
      rw [PerStage.get_set]
      split
      · next heq =>
        subst heq
        exact setOk_stageSetOf h1 h2 (List.all_eq_true.1 hfin)
      · exact h.pub st
    refine invAfter_next (Inv.respond_nil ?_ .pr .ok)
    exact { h with pub := hpub }
  · exact invAfter_next (h.refuse .pr (by decide) _)

/-- What a refresh publishes: the new set of each stage where it is finite, else the old one (R167). -/
theorem Inv.publish {s : State} (h : Inv s) {sets : PerStage StageSet}
    (hsets : ∀ st, setFinite (sets.get st) = true → SetOk st (sets.get st)) : Inv (publish sets s) := by
  have hpub : Inv { s with
      pub := publishSets s.pub sets (rejectedStages sets)
      pbyp := ⟨s.param.lcb, s.param.pkb, s.param.hcb⟩
      laen := s.param.aen } := by
    have hset : ∀ st, SetOk st (if !setFinite (sets.get st) then s.pub.get st else sets.get st) := fun st => by
      cases hfin : setFinite (sets.get st)
      · exact h.pub st
      · exact hsets st hfin
    exact { h with pub := PerStage.forall_get (hset .lc) (hset .pk) (hset .hc) }
  unfold Machine.publish
  simp only
  split
  · exact (hpub.recordRefusal (by decide) _).respond_ok .pr (by simp)
  · exact hpub.respond_ok .pr (by simp)

/-- Within the slopes of R162 each of the factory's sets is legal where it is finite. -/
theorem setOk_factorySets {p : Snapshot} {fs : F} (hlc : slopeOutOfRange p.lcs = false)
    (hhc : slopeOutOfRange p.hcs = false) (st : Stage) (hfin : setFinite ((factorySets p fs).get st) = true) :
    SetOk st ((factorySets p fs).get st) := by
  cases st with
  | lc => exact setOk_cutSet rfl hlc hfin
  | pk => exact setOk_stageSetOf_of_setFinite (Nat.le_refl 1) (Nat.le_refl 1) hfin
  | hc => exact setOk_cutSet rfl hhc hfin

theorem Inv.execRfsh {s : State} (h : Inv s) : InvAfter (execRfsh s) := by
  have hchg : Inv { s with chg := false } := { h with }
  unfold Machine.execRfsh
  split
  · split
    · next hconf =>
      simp only [refreshConfigured, Bool.and_eq_true, Bool.not_eq_true'] at hconf
      obtain ⟨⟨-, hlc⟩, hhc⟩ := hconf
      exact invAfter_next (hchg.publish (setOk_factorySets hlc hhc))
    · exact invAfter_next (hchg.refuse .pr (by decide) _)
  · exact invAfter_next (h.respond_ok .pr (by simp))

theorem Inv.execMagr {s : State} (h : Inv s) {freqs : List F} (hlen : freqs.length ≤ 65535) :
    InvAfter (execMagr freqs s) := by
  unfold Machine.execMagr
  split
  · exact invAfter_next (h.respond_ok .pr (by rwa [List.length_map]))
  · exact invAfter_next (h.refuse .pr (by decide) _)

theorem Inv.execWview {s : State} (h : Inv s) (vid : View) (x : F) : InvAfter (execWview vid x s) := by
  unfold Machine.execWview
  split
  · next hx =>
    refine invAfter_next (Inv.respond_nil ?_ .pr .ok)
    exact { h with view := viewOk_writeView h.view hx vid }
  · exact invAfter_next (h.refuse .pr (by decide) _)

theorem Inv.execPop {s : State} (h : Inv s) : InvAfter (execPop s) := by
  unfold Machine.execPop
  split
  · exact invAfter_next (h.respond_nil .pr .empty)
  · next blk t ht =>
    obtain ⟨hinv, hlen⟩ := h.ringTake ht
    obtain ⟨-, -, -, -, hl, -⟩ := hinv.cfg
    exact invAfter_next (hinv.respond_ok .pr (hlen.trans_le hl))

theorem Inv.execAnlz {s : State} (h : Inv s) : InvAfter (execAnlz s) := by
  unfold Machine.execAnlz
  split
  · split
    · exact invAfter_next (h.respond_nil .pr .empty)
    · next blk t ht =>
      obtain ⟨hinv, hlen⟩ := h.ringTake ht
      exact invAfter_next (hinv.analyze hlen)
  · exact invAfter_next (h.respond_ok .pr (by simp))

theorem Inv.execGenp {s : State} (h : Inv s) : InvAfter (execGenp s) := by
  have hpath : (latestPath s).length = s.cfg.nb ∧ ∀ q ∈ latestPath s, isFinite q.x = true ∧ isFinite q.y = true := by
    rcases latestPath_cases s with heq | ⟨m, hm, heq⟩ <;> rw [heq]
    · exact ⟨h.latest, h.latestFinite⟩
    · exact ⟨(pathOf_length _ _ _ _).trans (h.mqEntries m hm).1, fun q hq => isFinite_of_mem_pathOf h.view hq⟩
  obtain ⟨hlen, hfin⟩ := hpath
  unfold Machine.execGenp
  split
  · split
    · refine invAfter_next (Inv.respond_ok ?_ .pr (by simp))
      exact
        { h with
          latest := hlen
          latestFinite := hfin
          mq := Nat.zero_le _
          mqEntries := fun _ hm => absurd hm List.not_mem_nil }
    · exact invAfter_next (h.refuse .pr (by decide) _)
  · exact invAfter_next (h.respond_ok .pr (by simp))

theorem Inv.execRdpath {s : State} (h : Inv s) : InvAfter (execRdpath s) := by
  obtain ⟨-, -, hnb, -⟩ := h.cfg
  unfold Machine.execRdpath
  split
  · exact invAfter_next (h.respond_ok .pr (by rwa [pathWords_length, h.latest]))
  · exact invAfter_next (h.respond_nil .pr .empty)

theorem Inv.execClrst {s : State} (h : Inv s) : InvAfter (execClrst s) := by
  refine invAfter_next (Inv.respond_nil ?_ .pr .ok)
  exact
    { h with
      status := show (0#32).toNat < 16 by decide
      lastcode := .inl rfl }

/-- Every well-formed command keeps the invariant. -/
theorem Inv.exec {s : State} (h : Inv s) (i : Instr) (hwf : i.WF s.cfg.l) : InvAfter (exec i s) := by
  cases i with
  | nop p => exact invAfter_next (h.respond_nil p .ok)
  | sync => exact h.execSync
  | proc x => exact h.execProc x
  | push blk => exact h.execPush (beq_iff_eq.1 hwf)
  | upds stg secs =>
    simp only [Instr.WF, Instr.wellFormed, Bool.and_eq_true, decide_eq_true_eq] at hwf
    obtain ⟨h1, h2⟩ := hwf
    exact h.execUpds h1 h2
  | sbyp | wpar | srate | ntfy =>
    refine invAfter_next (Inv.respond_nil ?_ _ .ok)
    exact { h with }
  | rfsh => exact h.execRfsh
  | magr freqs => exact h.execMagr (of_decide_eq_true hwf)
  | wview vid w => exact h.execWview vid w
  | pop => exact h.execPop
  | avail => exact invAfter_next (h.respond_ok .pr (by simp))
  | anlz => exact h.execAnlz
  | genp => exact h.execGenp
  | rdpath => exact h.execRdpath
  | rstat p => exact invAfter_next (h.respond_ok p (by simp))
  | clrst => exact h.execClrst

/-- Settles O55, by the four things a step can do. -/
theorem stepKeepsInv : Obligations.StepKeepsInv := by
  intro s t h hstep
  rcases step_cases hstep with ⟨-, rfl⟩ | ⟨-, rfl⟩ | ⟨p, pk, i, -, hdec, hexec⟩ | ⟨p, pk, e, -, -, rfl⟩
  · exact h.endTurn
  · exact h.resetEvent
  · exact (h.accept p).exec i (decode_wellFormed hdec) t hexec
  · exact (h.accept p).refuse p (two_le_decodeErrorCode e) _

end Sys2Proof.Machine
end

section
/-!
SUPPORT. What a step does to each agent's state, to the streams and to the responses: O12, O14, O38, O57, O58. Every command is
answered by one response, and before it answers it writes within one frame (R39); a step of a command is read off that frame.
-/

namespace Sys2Proof

/-! ### The packet behind a decoded command -/

/-- What the operands of a row give is a command of that row with that payload (R84). -/
theorem decodeOperands_ok {l : Nat} {o : Op} {p : Port} {h : Word} {pl : List Word} {i : Instr}
    (hd : decodeOperands l o p h pl = .ok i) : opOf i = o ∧ payloadOf i = pl := by
  cases o <;> simp only [decodeOperands] at hd
  case proc | srate =>
    obtain ⟨w, rfl, hw⟩ := takeOne_ok hd
    cases hw
    exact ⟨rfl, rfl⟩
  case push | magr =>
    obtain ⟨-, rfl⟩ := takeWords_ok hd
    exact ⟨rfl, rfl⟩
  case upds =>
    obtain ⟨st, -, -, hlen, rfl⟩ := decodeUpds_ok hd
    exact ⟨rfl, sectionsWords_sectionsOf _ _ hlen⟩
  case sbyp =>
    obtain ⟨st, -, rfl, rfl⟩ := decodeSbyp_ok hd
    exact ⟨rfl, rfl⟩
  case wpar =>
    obtain ⟨pid, w, -, rfl, -, rfl⟩ := decodeWpar_ok hd
    exact ⟨rfl, rfl⟩
  case wview =>
    obtain ⟨vid, w, -, rfl, rfl⟩ := decodeWview_ok hd
    exact ⟨rfl, rfl⟩
  all_goals
    obtain ⟨rfl, rfl⟩ := takeNone_ok hd
    exact ⟨rfl, rfl⟩

/-- A command whose row has no operand field in the header (R90: the mask is all ones) comes from one header. -/
theorem packet_eq_of_decode {l : Nat} {p : Port} {pk : Packet} {i : Instr} (h : decode l p pk = .ok i)
    (hmask : opMask (opOf i) = 0xFFFFFFFF#32) : pk = ⟨opMatch (opOf i), payloadOf i⟩ := by
  obtain ⟨o, -, -, hm, hd⟩ := decode_ok h
  obtain ⟨rfl, hpl⟩ := decodeOperands_ok hd
  have hheader : pk.header = opMatch (opOf i) := by
    rw [headerMatches, hmask, beq_iff_eq] at hm
    rw [← hm]
    exact BitVec.and_allOnes.symm
  rw [← hheader, hpl]

end Sys2Proof

namespace Sys2Proof.Machine

/-! ### Which state each agent owns (R39) -/

/-- The state that the RT agent owns is the same in both. -/
def RtStateKept (s t : State) : Prop :=
  t.mem = s.mem ∧ t.act = s.act ∧ t.abyp = s.abyp ∧ t.w = s.w ∧ t.slot = s.slot

/-- The state that the PR agent owns is the same in both. -/
def PrStateKept (s t : State) : Prop :=
  t.pub = s.pub ∧ t.pbyp = s.pbyp ∧ t.laen = s.laen ∧ t.r = s.r ∧ t.acc = s.acc ∧ t.accfill = s.accfill ∧
  t.mq = s.mq ∧ t.latest = s.latest ∧ t.havepath = s.havepath ∧ t.view = s.view

/-- The packets waiting and the responses produced are the same in both. -/
def StreamsKept (s t : State) : Prop := t.inq = s.inq ∧ t.out = s.out

/-- What the command `i` may write before it answers, from `s` to `u`: nothing of the streams, the active bank only in a `SYNC`,
less of `STATUS` only in a `CLRST`, and on either port nothing that the other port's agent owns, whose `CHG` the RT agent may
only set. -/
def CommandFrame (i : Instr) (s u : State) : Prop :=
  StreamsKept s u ∧
  (i ≠ .sync → u.act = s.act ∧ u.abyp = s.abyp) ∧
  (i ≠ .clrst → s.status &&& u.status = s.status) ∧
  (i.port = .pr → RtStateKept s u) ∧
  (i.port = .rt → PrStateKept s u ∧ (s.chg = true → u.chg = true))

theorem CommandFrame.refl (i : Instr) (s : State) : CommandFrame i s s :=
  ⟨⟨rfl, rfl⟩, fun _ => ⟨rfl, rfl⟩, fun _ => BitVec.and_self, fun _ => ⟨rfl, rfl, rfl, rfl, rfl⟩,
    fun _ => ⟨⟨rfl, rfl, rfl, rfl, rfl, rfl, rfl, rfl, rfl, rfl⟩, id⟩⟩

/-- A command of the PR port that leaves `STATUS` and the RT agent's state alone. -/
theorem CommandFrame.of_pr {i : Instr} {s u : State} (hi : i.port = .pr) (hstreams : StreamsKept s u)
    (hstatus : u.status = s.status) (hrt : RtStateKept s u) : CommandFrame i s u := by
  obtain ⟨-, hact, habyp, -⟩ := id hrt
  exact ⟨hstreams, fun _ => ⟨hact, habyp⟩, fun _ => by rw [hstatus, BitVec.and_self], fun _ => hrt,
    fun hp => (nomatch hi.symm.trans hp)⟩

/-- A command of the RT port that leaves `STATUS`, `CHG` and the PR agent's state alone. -/
theorem CommandFrame.of_rt {i : Instr} {s u : State} (hi : i.port = .rt) (hstreams : StreamsKept s u)
    (hactive : i ≠ .sync → u.act = s.act ∧ u.abyp = s.abyp) (hstatus : u.status = s.status) (hchg : u.chg = s.chg)
    (hpr : PrStateKept s u) : CommandFrame i s u :=
  ⟨hstreams, hactive, fun _ => by rw [hstatus, BitVec.and_self], fun hp => (nomatch hi.symm.trans hp),
    fun _ => ⟨hpr, hchg.trans⟩⟩

/-- An edit writes the parameters and the rate, which no agent owns alone, and sets `CHG` (R150). -/
theorem CommandFrame.edit (i : Instr) (s : State) (prm : Snapshot) (rate : F) :
    CommandFrame i s { s with param := prm, fs := rate, chg := true } :=
  ⟨⟨rfl, rfl⟩, fun _ => ⟨rfl, rfl⟩, fun _ => BitVec.and_self, fun _ => ⟨rfl, rfl, rfl, rfl, rfl⟩,
    fun _ => ⟨⟨rfl, rfl, rfl, rfl, rfl, rfl, rfl, rfl, rfl, rfl⟩, fun _ => rfl⟩⟩

/-- Bits that are still set stay so when more are set. -/
theorem and_or_eq_of_and_eq {a b : Word} (h : a &&& b = a) (c : Word) : a &&& (b ||| c) = a := by
  calc a &&& (b ||| c) = (a &&& b) ||| (a &&& c) := BitVec.and_or_distrib_left
    _ = a ||| (a &&& c) := by rw [h]
    _ = a := by
      ext k hk
      simp +contextual

/-- Recording a refusal only adds a status bit (R254). -/
theorem CommandFrame.recordRefusal {i : Instr} {s u : State} {c : Code} {hdr : Word} (h : CommandFrame i s u) :
    CommandFrame i s (recordRefusal c hdr u) := by
  obtain ⟨hstreams, hactive, hstatus, hrt, hpr⟩ := h
  exact ⟨hstreams, hactive, fun hi => and_or_eq_of_and_eq (hstatus hi) (codeFlag c), hrt, hpr⟩

/-- The outcome `r` of the command `i` in `s`: it writes within its frame and answers once, on its own port. -/
def AnswersOnce (i : Instr) (s : State) (r : Result) : Prop :=
  ∃ c ws u, CommandFrame i s u ∧ r = .next (respond i.port c ws u)

theorem CommandFrame.answers {i : Instr} {s u : State} {c : Code} {ws : List Word} (h : CommandFrame i s u) :
    AnswersOnce i s (.next (respond i.port c ws u)) := ⟨c, ws, u, h, rfl⟩

theorem CommandFrame.refuses {i : Instr} {s u : State} {c : Code} {hdr : Word} (h : CommandFrame i s u) :
    AnswersOnce i s (.next (refuse i.port c hdr u)) := h.recordRefusal.answers

/-- A command that only answers. -/
theorem answersOnce_respond (i : Instr) (s : State) {c : Code} {ws : List Word} :
    AnswersOnce i s (.next (respond i.port c ws s)) := (CommandFrame.refl i s).answers

/-- A command that only records its refusal. -/
theorem answersOnce_refuse (i : Instr) (s : State) {c : Code} {hdr : Word} :
    AnswersOnce i s (.next (refuse i.port c hdr s)) := (CommandFrame.refl i s).refuses

/-! ### The commands -/

theorem answersOnce_sync (s : State) : AnswersOnce .sync s (execSync s) :=
  CommandFrame.answers (.of_rt rfl ⟨rfl, rfl⟩ (fun h => absurd rfl h) rfl rfl
    ⟨rfl, rfl, rfl, rfl, rfl, rfl, rfl, rfl, rfl, rfl⟩)

theorem answersOnce_proc (x : F) (s : State) : AnswersOnce (.proc x) s (execProc x s) :=
  CommandFrame.answers (.of_rt rfl ⟨rfl, rfl⟩ (fun _ => ⟨rfl, rfl⟩) rfl rfl
    ⟨rfl, rfl, rfl, rfl, rfl, rfl, rfl, rfl, rfl, rfl⟩)

theorem answersOnce_push (blk : List F) (s : State) : AnswersOnce (.push blk) s (execPush blk s) :=
  CommandFrame.answers (.of_rt rfl ⟨rfl, rfl⟩ (fun _ => ⟨rfl, rfl⟩) rfl rfl
    ⟨rfl, rfl, rfl, rfl, rfl, rfl, rfl, rfl, rfl, rfl⟩)

theorem answersOnce_upds (stg : Stage) (secs : List Coefs) (s : State) :
    AnswersOnce (.upds stg secs) s (execUpds stg secs s) := by
  unfold execUpds
  split
  · exact CommandFrame.answers (.of_pr rfl ⟨rfl, rfl⟩ rfl ⟨rfl, rfl, rfl, rfl, rfl⟩)
  · exact answersOnce_refuse (.upds stg secs) s

theorem answersOnce_sbyp (stg : Stage) (v : Bool) (s : State) : AnswersOnce (.sbyp stg v) s (execSbyp stg v s) :=
  CommandFrame.answers (.of_pr rfl ⟨rfl, rfl⟩ rfl ⟨rfl, rfl, rfl, rfl, rfl⟩)

/-- A publication after `CHG` is cleared writes the PR agent's state and at most records a rejection (R167). -/
theorem answersOnce_publish (sets : PerStage StageSet) (s : State) :
    AnswersOnce .rfsh s (.next (publish sets { s with chg := false })) := by
  unfold publish
  refine CommandFrame.answers ?_
  split
  · exact CommandFrame.recordRefusal (.of_pr rfl ⟨rfl, rfl⟩ rfl ⟨rfl, rfl, rfl, rfl, rfl⟩)
  · exact .of_pr rfl ⟨rfl, rfl⟩ rfl ⟨rfl, rfl, rfl, rfl, rfl⟩

theorem answersOnce_rfsh (s : State) : AnswersOnce .rfsh s (execRfsh s) := by
  unfold execRfsh
  split
  · split
    · exact answersOnce_publish _ s
    · exact CommandFrame.refuses (.of_pr rfl ⟨rfl, rfl⟩ rfl ⟨rfl, rfl, rfl, rfl, rfl⟩)
  · exact answersOnce_respond .rfsh s

theorem answersOnce_magr (freqs : List F) (s : State) : AnswersOnce (.magr freqs) s (execMagr freqs s) := by
  unfold execMagr
  split
  · exact answersOnce_respond (.magr freqs) s
  · exact answersOnce_refuse (.magr freqs) s

theorem answersOnce_wview (vid : View) (x : F) (s : State) : AnswersOnce (.wview vid x) s (execWview vid x s) := by
  unfold execWview
  split
  · exact CommandFrame.answers (.of_pr rfl ⟨rfl, rfl⟩ rfl ⟨rfl, rfl, rfl, rfl, rfl⟩)
  · exact answersOnce_refuse (.wview vid x) s

theorem answersOnce_pop (s : State) : AnswersOnce .pop s (execPop s) := by
  unfold execPop
  split
  · exact answersOnce_respond .pop s
  · next blk t ht =>
    obtain ⟨-, -, rfl⟩ := ringTake_some ht
    exact CommandFrame.answers (.of_pr rfl ⟨rfl, rfl⟩ rfl ⟨rfl, rfl, rfl, rfl, rfl⟩)

/-- The work of `ANLZ` after a take, which has moved the read index (R198), is on the PR agent's state. -/
theorem answersOnce_analyze (blk : List F) (r : Nat) (s : State) :
    AnswersOnce .anlz s (.next (analyze blk { s with r := r })) := by
  unfold analyze
  simp only
  split
  · exact CommandFrame.answers (.of_pr rfl ⟨rfl, rfl⟩ rfl ⟨rfl, rfl, rfl, rfl, rfl⟩)
  · exact CommandFrame.answers (.of_pr rfl ⟨rfl, rfl⟩ rfl ⟨rfl, rfl, rfl, rfl, rfl⟩)

theorem answersOnce_anlz (s : State) : AnswersOnce .anlz s (execAnlz s) := by
  unfold execAnlz
  split
  · split
    · exact answersOnce_respond .anlz s
    · next blk t ht =>
      obtain ⟨-, -, rfl⟩ := ringTake_some ht
      exact answersOnce_analyze blk _ s
  · exact answersOnce_respond .anlz s

theorem answersOnce_genp (s : State) : AnswersOnce .genp s (execGenp s) := by
  unfold execGenp
  split
  · split
    · exact CommandFrame.answers (.of_pr rfl ⟨rfl, rfl⟩ rfl ⟨rfl, rfl, rfl, rfl, rfl⟩)
    · exact answersOnce_refuse .genp s
  · exact answersOnce_respond .genp s

theorem answersOnce_rdpath (s : State) : AnswersOnce .rdpath s (execRdpath s) := by
  unfold execRdpath
  split
  · exact answersOnce_respond .rdpath s
  · exact answersOnce_respond .rdpath s

theorem answersOnce_clrst (s : State) : AnswersOnce .clrst s (execClrst s) :=
  CommandFrame.answers ⟨⟨rfl, rfl⟩, fun _ => ⟨rfl, rfl⟩, fun h => absurd rfl h, fun _ => ⟨rfl, rfl, rfl, rfl, rfl⟩, nofun⟩

/-- Every command, in every state, writes within its frame and answers once, on its own port. -/
theorem exec_answersOnce (i : Instr) (s : State) : AnswersOnce i s (exec i s) := by
  cases i with
  | nop p => exact answersOnce_respond (.nop p) s
  | sync => exact answersOnce_sync s
  | proc x => exact answersOnce_proc x s
  | push blk => exact answersOnce_push blk s
  | upds stg secs => exact answersOnce_upds stg secs s
  | sbyp stg v => exact answersOnce_sbyp stg v s
  | wpar p pid w => exact (CommandFrame.edit (.wpar p pid w) s _ _).answers
  | srate p fs => exact (CommandFrame.edit (.srate p fs) s _ _).answers
  | ntfy p => exact (CommandFrame.edit (.ntfy p) s _ _).answers
  | rfsh => exact answersOnce_rfsh s
  | magr freqs => exact answersOnce_magr freqs s
  | wview vid w => exact answersOnce_wview vid w s
  | pop => exact answersOnce_pop s
  | avail => exact answersOnce_respond .avail s
  | anlz => exact answersOnce_anlz s
  | genp => exact answersOnce_genp s
  | rdpath => exact answersOnce_rdpath s
  | rstat p => exact answersOnce_respond (.rstat p) s
  | clrst => exact answersOnce_clrst s

/-! ### The step of a command -/

theorem step_of_idle {s : State} (h : nextEvent s = .idle) : step s = .next (endTurn s) := by
  simp only [step, h]

theorem step_of_reset {s : State} (h : nextEvent s = .reset) : step s = .next (resetEvent s) := by
  simp only [step, h]

theorem step_of_decode_ok {s : State} {p : Port} {pk : Packet} {i : Instr} (h : nextEvent s = .command p pk)
    (hd : decode s.cfg.l p pk = .ok i) : step s = exec i (accept p s) := by
  simp only [step, h, hd]

theorem step_of_decode_error {s : State} {p : Port} {pk : Packet} {e : DecodeError} (h : nextEvent s = .command p pk)
    (hd : decode s.cfg.l p pk = .error e) : step s = .next (refuse p (decodeErrorCode e) pk.header (accept p s)) := by
  simp only [step, h, hd]

/-- What a step does with the packet `pk` on port `p`: a packet that decodes to a command writes within that command's frame, a
packet refused while decoding within that of a `NOP` (R94); either way there is one response, on `p`. -/
theorem step_command {s : State} {p : Port} {pk : Packet} (h : nextEvent s = .command p pk) :
    ∃ i c ws u, i.port = p ∧ (decode s.cfg.l p pk = .ok i ∨ i = .nop p) ∧ CommandFrame i (accept p s) u ∧
      step s = .next (respond p c ws u) := by
  cases hd : decode s.cfg.l p pk with
  | ok i =>
    obtain ⟨c, ws, u, hu, hr⟩ := exec_answersOnce i (accept p s)
    have hp := decode_port hd
    exact ⟨i, c, ws, u, hp, .inl rfl, hu, by rw [step_of_decode_ok h hd, hr, hp]⟩
  | error e =>
    exact ⟨.nop p, decodeErrorCode e, [], _, rfl, .inr rfl,
      (CommandFrame.refl (.nop p) (accept p s)).recordRefusal, step_of_decode_error h hd⟩

/-- Settles O57, from the frame of the command that the packet decodes to. -/
theorem eachAgentWritesWhatItOwns : Obligations.EachAgentWritesWhatItOwns := by
  intro s t p pk h hstep
  obtain ⟨i, c, ws, u, hip, -, ⟨-, -, hstatus, hrt, hpr⟩, hr⟩ := step_command h
  cases hr.symm.trans hstep
  constructor
  · rintro rfl
    exact hrt hip
  · rintro rfl
    have hclrst : i ≠ .clrst := by
      rintro rfl
      cases hip
    obtain ⟨⟨hpub, hpbyp, hlaen, hreadIndex, hacc, haccfill, hmq, hlatest, hhavepath, hview⟩, hchg⟩ := hpr hip
    exact ⟨hpub, hpbyp, hlaen, hreadIndex, hacc, haccfill, hmq, hlatest, hhavepath, hview, hchg, hstatus hclrst⟩

/-- Settles O38: the step is no command, or its command is `SYNC`, which has one packet and one port. -/
theorem activeBankChangesOnlyAtSyncOrReset : Obligations.ActiveBankChangesOnlyAtSyncOrReset := by
  intro s t hstep hne
  cases h : nextEvent s with
  | reset => exact .inl rfl
  | idle =>
    cases (step_of_idle h).symm.trans hstep
    exact absurd hne (by simp)
  | command p pk =>
    obtain ⟨i, c, ws, u, rfl, hdec, ⟨-, hactive, -⟩, hr⟩ := step_command h
    cases hr.symm.trans hstep
    by_cases hi : i = .sync
    · subst hi
      rw [packet_eq_of_decode (hdec.resolve_right nofun) rfl]
      exact .inr rfl
    · obtain ⟨hact, habyp⟩ := hactive hi
      exact absurd hne (by simp [hact, habyp])

/-- Settles O58: the step is no command, or its command is not `CLRST`. -/
theorem flagsAreSticky : Obligations.FlagsAreSticky := by
  intro s t hstep hreset hclrst
  cases h : nextEvent s with
  | reset => exact absurd h hreset
  | idle =>
    cases (step_of_idle h).symm.trans hstep
    exact BitVec.and_self
  | command p pk =>
    obtain ⟨i, c, ws, u, rfl, hdec, ⟨-, -, hstatus, -⟩, hr⟩ := step_command h
    cases hr.symm.trans hstep
    refine hstatus ?_
    rintro rfl
    rw [packet_eq_of_decode (hdec.resolve_right nofun) rfl] at h
    exact hclrst h

/-! ### Commands taken and responses given -/

/-- From `s` to `t` each port's stream lost its first packets, at most `k` of them, and one response was given for each (R70, R86). -/
def TakenAndAnswered (k : Nat) (s t : State) : Prop :=
  ∀ p : Port, ∃ (n : Nat) (new : List Response), n ≤ k ∧ n ≤ (s.inq.get p).length ∧
    t.inq.get p = (s.inq.get p).drop n ∧ t.out.get p = s.out.get p ++ new ∧ new.length = n

theorem TakenAndAnswered.of_unchanged {s t : State} (k : Nat) (hinq : t.inq = s.inq) (hout : t.out = s.out) :
    TakenAndAnswered k s t :=
  fun _ => ⟨0, [], Nat.zero_le _, Nat.zero_le _, by rw [hinq, List.drop_zero], by rw [hout, List.append_nil], rfl⟩

theorem TakenAndAnswered.trans {j k : Nat} {s t u : State} (hst : TakenAndAnswered j s t) (htu : TakenAndAnswered k t u) :
    TakenAndAnswered (j + k) s u := by
  intro p
  obtain ⟨n, new, hn, hlen, hinq, hout, hnew⟩ := hst p
  obtain ⟨n', new', hn', hlen', hinq', hout', hnew'⟩ := htu p
  rw [hinq, List.length_drop] at hlen'
  refine ⟨n + n', new ++ new', by omega, by omega, ?_, ?_, ?_⟩
  · rw [hinq', hinq, List.drop_drop]
  · rw [hout', hout, List.append_assoc]
  · rw [List.length_append, hnew, hnew']

/-- One command taken and answered on port `q`, whatever happens to the rest of the state. -/
theorem TakenAndAnswered.of_command {s t : State} {q : Port} {pk : Packet} {r : Response} (h : nextEvent s = .command q pk)
    (hinq : t.inq = s.inq.set q (s.inq.get q).tail) (hout : t.out = s.out.set q (s.out.get q ++ [r])) :
    TakenAndAnswered 1 s t := by
  intro p
  rw [hinq, hout, PerPort.get_set, PerPort.get_set]
  by_cases hp : p = q
  · subst hp
    obtain ⟨rest, hrest⟩ := nextEvent_command h
    exact ⟨1, [r], le_rfl, by simp [hrest], by simp, by simp, rfl⟩
  · exact ⟨0, [], Nat.zero_le _, Nat.zero_le _, by simp [hp], by simp [hp], rfl⟩

/-- Every state has a next one (R257), with a response for the command taken, if one was. -/
theorem step_takenAndAnswered (s : State) : ∃ t, step s = .next t ∧ TakenAndAnswered 1 s t := by
  cases h : nextEvent s with
  | idle => exact ⟨_, step_of_idle h, .of_unchanged 1 rfl rfl⟩
  | reset => exact ⟨_, step_of_reset h, .of_unchanged 1 rfl rfl⟩
  | command p pk =>
    obtain ⟨i, c, ws, u, -, -, ⟨⟨hinq, hout⟩, -⟩, hr⟩ := step_command h
    exact ⟨_, hr, .of_command h hinq (by rw [respond_out, hout, accept_out])⟩

theorem run_succ_of_step {s t : State} (h : step s = .next t) (k : Nat) :
    Host.Core.run core (k + 1) s = Host.Core.run core k t := by
  have hcore : core.step s = .next t := h
  simp only [Host.Core.run, hcore]

/-- Settles O14, by induction on the number of steps. -/
theorem everyCommandIsAnswered : Obligations.EveryCommandIsAnswered := by
  intro k
  induction k with
  | zero => exact fun s => ⟨s, rfl, TakenAndAnswered.of_unchanged 0 rfl rfl⟩
  | succ k ih =>
    intro s
    obtain ⟨t, hstep, hst⟩ := step_takenAndAnswered s
    obtain ⟨u, hrun, htu⟩ := ih t
    refine ⟨u, (run_succ_of_step hstep k).trans hrun, ?_⟩
    rw [Nat.add_comm k 1]
    exact hst.trans htu

/-! ### A packet placed as the next command -/

/-- The head of the stream is what a turn takes off it. -/
theorem inq_eq_cons_of_nextEvent {s : State} {p : Port} {pk : Packet} (h : nextEvent s = .command p pk) :
    s.inq.get p = pk :: (accept p s).inq.get p := by
  obtain ⟨rest, hrest⟩ := nextEvent_command h
  simp [hrest]

/-- Taking the packet just placed leaves the state as it was, one turn later. -/
theorem accept_presentNext (p : Port) (pk : Packet) (s : State) :
    accept p (presentNext p pk s) = { s with turn := s.turn + 1 } := by
  cases p <;> rfl

/-- A step of a placed packet is its command's meaning in the state it was placed in, one turn later. -/
theorem step_presentNext {s : State} {p : Port} {pk : Packet} {i : Instr} (h : decode s.cfg.l p pk = .ok i) :
    step (presentNext p pk s) = exec i { s with turn := s.turn + 1 } := by
  rw [step_of_decode_ok (nextEvent_presentNext p pk s) h, accept_presentNext]

/-- The decoder's reading of a table word is that of the packet placed for it. -/
theorem decode_of_decodeTableWord {nbits w : Nat} {i : Instr} (h : decodeTableWord nbits w = some i) :
    decode Params.default.l (tablePort (tablePacket Params.default.l nbits w).header) (tablePacket Params.default.l nbits w) =
      .ok i := by
  unfold decodeTableWord at h
  simp only at h
  split at h
  · next j hj =>
    cases h
    exact hj
  · cases h

/-- Settles O12, from the step of a decoded packet and the packet that stands for a table word. -/
theorem stepRunsTheDecodedCommand : Obligations.StepRunsTheDecodedCommand :=
  ⟨fun _ p _ _ h hd =>
      ⟨step_of_decode_ok h hd, inq_eq_cons_of_nextEvent h, PerPort.get_set_other _ p _, rfl⟩,
    fun s p pk => nextEvent_presentNext p pk s,
    fun _ _ _ h => step_presentNext (s := State.reset) (decode_of_decodeTableWord h)⟩

end Sys2Proof.Machine
end

section
/-!
SUPPORT. The byte-serial transport, the schedule, and runs of the block: O5, O13, O15. Which agent presents its next command, how
far the streams have come after any number of turns, and when a run ends.
-/

namespace Sys2Proof

/-! ### The byte-serial transport (R62) -/

theorem wordBytes_toNat (w : Word) : (wordBytes w).map BitVec.toNat =
    [w.toNat % 256, w.toNat / 2 ^ 8 % 256, w.toNat / 2 ^ 16 % 256, w.toNat / 2 ^ 24] := by
  have htop : w.toNat / 2 ^ 24 < 2 ^ 8 := by omega
  simpa [wordBytes, BitVec.extractLsb'_toNat, Nat.shiftRight_eq_div_pow] using htop

theorem append_bytes_eq (w : Word) :
    w.extractLsb' 24 8 ++ w.extractLsb' 16 8 ++ w.extractLsb' 8 8 ++ w.extractLsb' 0 8 = w := by
  ext i hi
  simp only [BitVec.getElem_append, BitVec.getElem_extractLsb']
  split_ifs <;> simp only [← BitVec.getLsbD_eq_getElem] <;> congr 1 <;> omega

/-- A word's bytes at the front are read back as that word. -/
theorem bytesWords_wordBytes_append (w : Word) (bs : List Byte) :
    bytesWords (wordBytes w ++ bs) = (bytesWords bs).map (w :: ·) := by
  simp only [wordBytes, List.cons_append, List.nil_append, bytesWords, append_bytes_eq]

theorem bytesWords_flatMap_wordBytes (ws : List Word) : bytesWords (ws.flatMap wordBytes) = some ws := by
  induction ws with
  | nil => rfl
  | cons w ws ih => rw [List.flatMap_cons, bytesWords_wordBytes_append, ih, Option.map_some]

theorem packetOfBytes_packetBytes (pk : Packet) : packetOfBytes (packetBytes pk) = some pk := by
  rw [packetOfBytes, packetBytes, bytesWords_flatMap_wordBytes]

/-- Settles O5, from the value of each byte and the words read back one at a time. -/
theorem wordsTravelLeastByteFirst : Obligations.WordsTravelLeastByteFirst :=
  ⟨wordBytes_toNat, packetOfBytes_packetBytes⟩

end Sys2Proof

namespace Sys2Proof.Machine

/-! ### Which port is served next -/

theorem nextEvent_of_port_scheduled {s : State} {p : Port} {ag : List Agent} (h : s.sched = .port p :: ag) :
    nextEvent s = nextCommand p s := by
  simp only [nextEvent, h]

/-- A port with nothing waiting gives its turn to the other (R71). -/
theorem nextCommand_other {s : State} {p : Port} {pk : Packet} {rest : List Packet} (hp : s.inq.get p = [])
    (ho : s.inq.get p.other = pk :: rest) : nextCommand p s = .command p.other pk := by
  simp only [nextCommand, hp, ho]

theorem nextEvent_ne_reset {s : State} (h : ∀ ag, s.sched ≠ .reset :: ag) : nextEvent s ≠ .reset := fun he => by
  obtain ⟨ag, hag⟩ := nextEvent_reset he
  exact h ag hag

/-- While a command waits, a turn that is no reset serves one (R71). -/
theorem exists_command_of_waiting {s : State} (hsched : ∀ ag, s.sched ≠ .reset :: ag) (hinq : s.inq ≠ ⟨[], []⟩) :
    ∃ p pk rest, s.inq.get p = pk :: rest ∧ nextEvent s = .command p pk := by
  cases h : nextEvent s with
  | idle => exact absurd (nextEvent_idle h) hinq
  | reset => exact absurd h (nextEvent_ne_reset hsched)
  | command p pk =>
    obtain ⟨rest, hrest⟩ := nextEvent_command h
    exact ⟨p, pk, rest, hrest, rfl⟩

theorem nextEvent_of_exhausted {s : State} (hinq : s.inq = ⟨[], []⟩) (hsched : ∀ ag, s.sched ≠ .reset :: ag) :
    nextEvent s = .idle := by
  cases h : nextEvent s with
  | idle => rfl
  | reset => exact absurd h (nextEvent_ne_reset hsched)
  | command p pk =>
    obtain ⟨rest, hrest⟩ := nextEvent_command h
    rw [hinq] at hrest
    cases p <;> cases hrest

/-- Settles O13, by what the event of a turn can be. -/
theorem scheduleChoosesThePort : Obligations.ScheduleChoosesThePort :=
  ⟨fun _ _ _ _ _ hsched hp => (nextEvent_of_port_scheduled hsched).trans (nextCommand_head hp),
    fun _ _ _ _ _ hsched hp ho => (nextEvent_of_port_scheduled hsched).trans (nextCommand_other hp ho),
    fun _ hsched hinq => exists_command_of_waiting (fun _ h => nomatch hsched.symm.trans h) hinq,
    fun _ hinq hsched => step_of_idle (nextEvent_of_exhausted hinq hsched)⟩

/-! ### The schedule and the NaN draws -/

/-- From `s` to `t` the command `i` left the schedule, and the NaN draws unless it is `PROC` (log entries 2 and 3). -/
def ScheduleAndDrawsKept (i : Instr) (s t : State) : Prop :=
  t.sched = s.sched ∧ ((∀ x, i ≠ .proc x) → t.draws = s.draws)

theorem publish_sched_draws (sets : PerStage StageSet) (s : State) :
    (publish sets s).sched = s.sched ∧ (publish sets s).draws = s.draws := by
  unfold publish
  simp only
  split <;> exact ⟨rfl, rfl⟩

theorem analyze_sched_draws (blk : List F) (s : State) :
    (analyze blk s).sched = s.sched ∧ (analyze blk s).draws = s.draws := by
  unfold analyze
  simp only
  split <;> exact ⟨rfl, rfl⟩

theorem exec_scheduleAndDrawsKept {i : Instr} {s t : State} (h : exec i s = .next t) : ScheduleAndDrawsKept i s t := by
  cases i with
  | proc x =>
    cases h
    exact ⟨rfl, fun hne => absurd rfl (hne x)⟩
  | upds | magr | wview | genp | rdpath =>
    simp only [exec, execUpds, execMagr, execWview, execGenp, execRdpath] at h
    split_ifs at h <;> cases h <;> exact ⟨rfl, fun _ => rfl⟩
  | rfsh =>
    simp only [exec, execRfsh] at h
    split_ifs at h <;> cases h
    · obtain ⟨hsched, hdraws⟩ := publish_sched_draws (factorySets s.param s.fs) { s with chg := false }
      exact ⟨hsched, fun _ => hdraws⟩
    · exact ⟨rfl, fun _ => rfl⟩
    · exact ⟨rfl, fun _ => rfl⟩
  | pop =>
    simp only [exec, execPop] at h
    split at h <;> cases h
    · exact ⟨rfl, fun _ => rfl⟩
    · next ht =>
      obtain ⟨-, -, rfl⟩ := ringTake_some ht
      exact ⟨rfl, fun _ => rfl⟩
  | anlz =>
    simp only [exec, execAnlz] at h
    split at h
    · split at h <;> cases h
      · exact ⟨rfl, fun _ => rfl⟩
      · next blk t ht =>
        obtain ⟨-, -, rfl⟩ := ringTake_some ht
        obtain ⟨hsched, hdraws⟩ := analyze_sched_draws blk { s with r := takeIndex s + 1 }
        exact ⟨hsched, fun _ => hdraws⟩
    · cases h
      exact ⟨rfl, fun _ => rfl⟩
  | nop | sync | push | sbyp | wpar | srate | ntfy | avail | rstat | clrst =>
    cases h
    exact ⟨rfl, fun _ => rfl⟩

/-- Every step uses up one schedule entry, whatever it does. -/
theorem step_sched {s t : State} (h : step s = .next t) : t.sched = s.sched.tail := by
  rcases step_cases h with ⟨-, rfl⟩ | ⟨-, rfl⟩ | ⟨p, pk, i, -, -, hexec⟩ | ⟨p, pk, e, -, -, rfl⟩
  · rfl
  · rfl
  · obtain ⟨hsched, -⟩ := exec_scheduleAndDrawsKept hexec
    exact hsched
  · rfl

/-! ### Finite streams -/

/-- The turns and commands left (R297). -/
def remaining (s : State) : Nat := s.sched.length + s.inq.rt.length + s.inq.pr.length

/-- With nothing left a step changes nothing. -/
theorem step_of_exhausted {s : State} (hinq : s.inq = ⟨[], []⟩) (hsched : s.sched = []) : step s = .next s := by
  rw [step_of_idle (nextEvent_of_exhausted hinq fun _ h => nomatch hsched.symm.trans h), endTurn, hsched, List.tail_nil,
    ← hsched]

theorem exhausted_of_remaining {s : State} (h : remaining s = 0) : s.inq = ⟨[], []⟩ ∧ s.sched = [] := by
  unfold remaining at h
  have hrt : s.inq.rt = [] := List.length_eq_zero_iff.1 (by omega)
  have hpr : s.inq.pr = [] := List.length_eq_zero_iff.1 (by omega)
  exact ⟨congrArg₂ PerPort.mk hrt hpr, List.length_eq_zero_iff.1 (by omega)⟩

/-- Every step takes a turn or a command off what is left, until nothing is. -/
theorem step_remaining {s t : State} (h : step s = .next t) : remaining t ≤ remaining s - 1 := by
  have hsched : t.sched.length = s.sched.length - 1 := by rw [step_sched h, List.length_tail]
  cases he : nextEvent s with
  | idle =>
    cases (step_of_idle he).symm.trans h
    have hinq := nextEvent_idle he
    simp only [remaining, hsched, endTurn_inq, hinq, List.length_nil]
    omega
  | reset =>
    obtain ⟨ag, hag⟩ := nextEvent_reset he
    cases (step_of_reset he).symm.trans h
    have hinq : (resetEvent s).inq = s.inq := rfl
    simp only [remaining, hsched, hinq, hag, List.length_cons]
    omega
  | command p pk =>
    obtain ⟨i, c, ws, u, -, -, ⟨⟨hinq, -⟩, -⟩, hr⟩ := step_command he
    obtain ⟨rest, hrest⟩ := nextEvent_command he
    cases hr.symm.trans h
    have htake : (respond p c ws u).inq = s.inq.set p rest := by rw [respond_inq, hinq, accept_inq, hrest, List.tail_cons]
    have hlen : (s.inq.get p).length = rest.length + 1 := by rw [hrest, List.length_cons]
    simp only [remaining, hsched, htake]
    cases p <;> simp only [PerPort.set, PerPort.get] at hlen ⊢ <;> omega

/-- Finite streams have only finite runs. -/
theorem run_exhausts (k : Nat) : ∀ s : State, remaining s ≤ k →
    ∃ t : State, Host.Core.run core k s = .next t ∧ t.inq = ⟨[], []⟩ ∧ t.sched = [] ∧ step t = .next t := by
  induction k with
  | zero =>
    intro s hk
    obtain ⟨hinq, hsched⟩ := exhausted_of_remaining (Nat.le_zero.1 hk)
    exact ⟨s, rfl, hinq, hsched, step_of_exhausted hinq hsched⟩
  | succ k ih =>
    intro s hk
    obtain ⟨t, hstep, -⟩ := step_takenAndAnswered s
    have hless := step_remaining hstep
    rw [run_succ_of_step hstep k]
    exact ih t (by omega)

/-! ### Streams of any length (log entry 17) -/

/-- How many commands each stream has presented after one more turn, of the agent `a`. -/
def nextPos (streams : PerPort CommandStream) (a : Agent) (pos : PerPort Nat) : PerPort Nat :=
  match a with
  | .reset => pos
  | .port p => if (streams.get p (pos.get p)).isSome then pos.set p (pos.get p + 1) else pos

/-- How many commands each stream has presented after `n` turns: the streams and the order alone say it (`runTo_runOk`). -/
def posAt (streams : PerPort CommandStream) (order : Nat → Agent) : Nat → PerPort Nat
  | 0 => ⟨0, 0⟩
  | n + 1 => nextPos streams (order n) (posAt streams order n)

/-- What every point of a run meets: no command waits and no turn is scheduled, so that the next command presented is the next one
executed, and each command presented has been answered. -/
def RunOk (streams : PerPort CommandStream) (x : RunPoint) : Prop :=
  x.state.inq = ⟨[], []⟩ ∧ x.state.sched = [] ∧
  ∀ p, (x.state.out.get p).length = x.pos.get p ∧ ∀ k, k < x.pos.get p → (streams.get p k).isSome = true

/-- A command presented is taken by the next step and answered on its port. -/
theorem step_presentNext_answers (p : Port) (pk : Packet) (s : State) : ∃ t r, step (presentNext p pk s) = .next t ∧
    t.inq = s.inq ∧ t.sched = s.sched ∧ t.out = s.out.set p (s.out.get p ++ [r]) := by
  obtain ⟨i, c, ws, u, -, -, ⟨⟨hinq, hout⟩, -⟩, hstep⟩ := step_command (nextEvent_presentNext p pk s)
  rw [accept_presentNext] at hinq hout
  exact ⟨respond p c ws u, mkResponse c ws, hstep, hinq, step_sched hstep, by rw [respond_out, hout]⟩

/-- A reset event as a turn of a run (R280). -/
theorem runTurn_reset (streams : PerPort CommandStream) (x : RunPoint) :
    runTurn streams .reset x = .next ⟨x.pos, resetEvent { x.state with sched := .reset :: x.state.sched }⟩ := by
  rw [runTurn, step_of_reset_scheduled rfl]
  rfl

/-- A turn has an outcome, at the position that the streams say, and keeps what every point of a run meets. -/
theorem runTurn_runOk {streams : PerPort CommandStream} {x : RunPoint} (h : RunOk streams x) (a : Agent) :
    ∃ t, runTurn streams a x = .next ⟨nextPos streams a x.pos, t⟩ ∧ RunOk streams ⟨nextPos streams a x.pos, t⟩ := by
  cases a with
  | reset => exact ⟨_, runTurn_reset streams x, h⟩
  | port p =>
    cases hs : streams.get p (x.pos.get p) with
    | none =>
      have hpos : nextPos streams (.port p) x.pos = x.pos := by simp [nextPos, hs]
      rw [hpos]
      exact ⟨x.state, by simp only [runTurn, hs], h⟩
    | some pk =>
      have hpos : nextPos streams (.port p) x.pos = x.pos.set p (x.pos.get p + 1) := by simp [nextPos, hs]
      obtain ⟨hinq, hsched, hports⟩ := h
      obtain ⟨t, r, hstep, hinq', hsched', hout⟩ := step_presentNext_answers p pk x.state
      rw [hpos]
      refine ⟨t, by simp only [runTurn, hs, hstep, continueAt], hinq'.trans hinq, hsched'.trans hsched, fun q => ?_⟩
      obtain ⟨hanswered, hpresented⟩ := hports q
      rw [hout, PerPort.get_set, PerPort.get_set]
      split
      · next hq =>
        subst hq
        refine ⟨by rw [List.length_append, hanswered, List.length_singleton], fun k hk => ?_⟩
        rcases Nat.lt_succ_iff_lt_or_eq.1 hk with hlt | rfl
        · exact hpresented k hlt
        · rw [hs, Option.isSome_some]
      · exact ⟨hanswered, hpresented⟩

theorem runTo_succ {streams : PerPort CommandStream} {order : Nat → Agent} {s : State} {n : Nat} {x : RunPoint}
    (h : runTo streams order s n = .next x) : runTo streams order s (n + 1) = runTurn streams (order n) x := by
  simp only [runTo, h]

/-- A run from reset never stops. -/
theorem runTo_runOk (g : Params) (streams : PerPort CommandStream) (order : Nat → Agent) (n : Nat) :
    ∃ t, runTo streams order (State.resetWith g) n = .next ⟨posAt streams order n, t⟩ ∧
      RunOk streams ⟨posAt streams order n, t⟩ := by
  induction n with
  | zero =>
    refine ⟨State.resetWith g, rfl, rfl, rfl, fun p => ?_⟩
    cases p <;> exact ⟨rfl, fun _ hk => absurd hk (Nat.not_lt_zero _)⟩
  | succ n ih =>
    obtain ⟨s, hrun, hok⟩ := ih
    rw [runTo_succ hrun]
    exact runTurn_runOk hok (order n)

/-! ### Fair orders -/

theorem nextPos_ge (streams : PerPort CommandStream) (a : Agent) (pos : PerPort Nat) (p : Port) :
    pos.get p ≤ (nextPos streams a pos).get p := by
  cases a with
  | reset => exact le_rfl
  | port q =>
    simp only [nextPos]
    split
    · rw [PerPort.get_set]
      split
      · next hp => exact hp ▸ Nat.le_succ _
      · exact le_rfl
    · exact le_rfl

theorem posAt_mono (streams : PerPort CommandStream) (order : Nat → Agent) (p : Port) :
    Monotone fun n => (posAt streams order n).get p :=
  monotone_nat_of_le_succ fun _ => nextPos_ge _ _ _ _

/-- Where the stream goes on, a turn of its port presents one more command. -/
theorem posAt_succ_of_turn {streams : PerPort CommandStream} {order : Nat → Agent} {p : Port} {n : Nat}
    (hturn : order n = .port p) (hs : (streams.get p ((posAt streams order n).get p)).isSome = true) :
    (posAt streams order (n + 1)).get p = (posAt streams order n).get p + 1 := by
  simp only [posAt, hturn, nextPos, hs, if_true, PerPort.get_set_same]

/-- Under a fair order as many commands are presented as the stream has. -/
theorem posAt_reaches {streams : PerPort CommandStream} {order : Nat → Agent} (hfair : FairOrder order) (p : Port) (k : Nat)
    (hs : ∀ j, j < k → (streams.get p j).isSome = true) : ∃ n, k ≤ (posAt streams order n).get p := by
  induction k with
  | zero => exact ⟨0, Nat.zero_le _⟩
  | succ k ih =>
    obtain ⟨n, hn⟩ := ih fun j hj => hs j (by omega)
    obtain ⟨m, hnm, hturn⟩ := hfair p n
    have hm : k ≤ (posAt streams order m).get p := hn.trans (posAt_mono streams order p hnm)
    rcases hm.lt_or_eq with hlt | heq
    · exact ⟨m, hlt⟩
    · have hsome : (streams.get p ((posAt streams order m).get p)).isSome = true := heq ▸ hs k (Nat.lt_succ_self k)
      exact ⟨m + 1, by rw [posAt_succ_of_turn hturn hsome, ← heq]⟩

/-- Nothing is presented past the end of a stream. -/
theorem RunOk.pos_le {streams : PerPort CommandStream} {x : RunPoint} (h : RunOk streams x) {p : Port} {a : Nat}
    (hend : (streams.get p).EndsAt a) : x.pos.get p ≤ a := by
  obtain ⟨-, hnone⟩ := hend
  obtain ⟨-, -, hports⟩ := h
  obtain ⟨-, hpresented⟩ := hports p
  by_contra hlt
  have hsome := hpresented a (by omega)
  rw [hnone] at hsome
  cases hsome

/-- Under a fair order a finite stream is presented whole, from some turn on. -/
theorem posAt_eq_of_endsAt {streams : PerPort CommandStream} {order : Nat → Agent} (hfair : FairOrder order) {p : Port}
    {a : Nat} (hend : (streams.get p).EndsAt a) : ∃ n, ∀ m, n ≤ m → (posAt streams order m).get p = a := by
  obtain ⟨hsome, -⟩ := id hend
  obtain ⟨n, hn⟩ := posAt_reaches hfair p a hsome
  refine ⟨n, fun m hm => le_antisymm ?_ (hn.trans (posAt_mono streams order p hm))⟩
  obtain ⟨t, -, hok⟩ := runTo_runOk Params.default streams order m
  exact hok.pos_le hend

/-- A turn of a port whose stream is exhausted does nothing. -/
theorem runTurn_of_exhausted {streams : PerPort CommandStream} {a : Agent} {x : RunPoint} (ha : a ≠ .reset)
    (hs : ∀ p, streams.get p (x.pos.get p) = none) : runTurn streams a x = .next x := by
  cases a with
  | reset => exact absurd rfl ha
  | port p => simp only [runTurn, hs p]

/-- Once both streams are exhausted the run stands still. -/
theorem runTo_of_exhausted {streams : PerPort CommandStream} {order : Nat → Agent} {s : State} {n : Nat} {x : RunPoint}
    (hreset : ∀ m, order m ≠ .reset) (hs : ∀ p, streams.get p (x.pos.get p) = none)
    (hrun : runTo streams order s n = .next x) (m : Nat) (hm : n ≤ m) : runTo streams order s m = .next x := by
  induction m, hm using Nat.le_induction with
  | base => exact hrun
  | succ m _ ih => rw [runTo_succ ih, runTurn_of_exhausted (hreset m) hs]

/-- Two finite streams under a fair order without reset events: the run ends. -/
theorem runTo_ends {streams : PerPort CommandStream} {order : Nat → Agent} (g : Params) {a b : Nat} (hfair : FairOrder order)
    (hreset : ∀ n, order n ≠ .reset) (ha : streams.rt.EndsAt a) (hb : streams.pr.EndsAt b) :
    ∃ (n : Nat) (t : State), ∀ m, n ≤ m → runTo streams order (State.resetWith g) m = .next ⟨⟨a, b⟩, t⟩ := by
  obtain ⟨n, hn⟩ := posAt_eq_of_endsAt (p := .rt) hfair ha
  obtain ⟨n', hn'⟩ := posAt_eq_of_endsAt (p := .pr) hfair hb
  obtain ⟨t, hrun, -⟩ := runTo_runOk g streams order (max n n')
  have hpos : posAt streams order (max n n') = ⟨a, b⟩ := by
    rw [← hn _ (le_max_left n n'), ← hn' _ (le_max_right n n')]
    rfl
  rw [hpos] at hrun
  obtain ⟨-, hrt⟩ := ha
  obtain ⟨-, hpr⟩ := hb
  exact ⟨max n n', t, runTo_of_exhausted hreset (fun | .rt => hrt | .pr => hpr) hrun⟩

/-- Settles O15: a step takes off what is left of finite streams, and of a run over given streams the positions are known. -/
theorem runsEndWithStreamsExhausted : Obligations.RunsEndWithStreamsExhausted := by
  refine ⟨fun s k hk => run_exhausts k s hk, fun g streams order n => ?_, fun g streams order p k hfair hs => ?_,
    fun g streams order a b => runTo_ends g⟩
  · obtain ⟨t, hrun, hok⟩ := runTo_runOk g streams order n
    exact ⟨_, hrun, hok⟩
  · obtain ⟨n, hn⟩ := posAt_reaches hfair p (k + 1) fun j hj => hs j (Nat.le_of_lt_succ hj)
    obtain ⟨t, hrun, -⟩ := runTo_runOk g streams order n
    exact ⟨n, _, hrun, hn⟩

end Sys2Proof.Machine
end

section
/-!
SUPPORT. Sequences of commands as an agent issues them: edits before a refresh (O22), PR commands among samples (O37), and the takes
that `AVAIL` counts (O44).
-/

namespace Sys2Proof.Machine

theorem execAll_cons_of_exec {i : Instr} {s t : State} (h : exec i s = .next t) (is : List Instr) :
    execAll (i :: is) s = execAll is t := by
  simp only [execAll, h]

/-! ### Edits and refreshes -/

/-- What edits do: they write parameters and the rate, set `CHG` and answer (R150). -/
def EditedFrom (s t : State) : Prop :=
  t.chg = true ∧ t = { s with param := t.param, fs := t.fs, chg := true, out := t.out }

theorem EditedFrom.trans {s t u : State} (hst : EditedFrom s t) (htu : EditedFrom t u) : EditedFrom s u := by
  obtain ⟨-, ht⟩ := hst
  obtain ⟨hchg, hu⟩ := htu
  rw [ht] at hu
  exact ⟨hchg, hu⟩

theorem exec_edit {i : Instr} (h : isEdit i = true) (s : State) : ∃ t, exec i s = .next t ∧ EditedFrom s t := by
  cases i with
  | wpar | srate | ntfy => exact ⟨_, rfl, rfl, rfl⟩
  | _ => cases h

theorem execAll_edits {edits : List Instr} (hne : edits ≠ []) (h : ∀ i ∈ edits, isEdit i = true) (s : State) :
    ∃ t, execAll edits s = .next t ∧ EditedFrom s t := by
  induction edits generalizing s with
  | nil => exact absurd rfl hne
  | cons i is ih =>
    obtain ⟨t, hexec, hst⟩ := exec_edit (h i List.mem_cons_self) s
    rw [execAll_cons_of_exec hexec]
    cases is with
    | nil => exact ⟨t, rfl, hst⟩
    | cons j js =>
      obtain ⟨u, hall, htu⟩ := ih (List.cons_ne_nil j js) (fun k hk => h k (List.mem_cons_of_mem i hk)) t
      exact ⟨u, hall, hst.trans htu⟩

theorem publish_chg (sets : PerStage StageSet) (s : State) : (publish sets s).chg = s.chg := by
  unfold publish
  simp only
  split <;> rfl

/-- A refresh leaves no edit pending, whether it publishes, refuses or does nothing (R160, R162). -/
theorem exec_rfsh_clears_chg (s : State) : ∃ t, exec .rfsh s = .next t ∧ t.chg = false := by
  simp only [exec, execRfsh]
  split_ifs with hchg
  · exact ⟨_, rfl, publish_chg _ _⟩
  · exact ⟨_, rfl, rfl⟩
  · exact ⟨_, rfl, Bool.eq_false_of_not_eq_true hchg⟩

/-- With no edit pending a refresh reports 0 and does nothing (R160). -/
theorem exec_rfsh_of_unchanged {s : State} (h : s.chg = false) :
    exec .rfsh s = .next (answered .pr 0x00010000#32 [0x00000000#32] s) := by
  simp [exec, execRfsh, h, respond_ok_one]

/-- Settles O22, by induction on the edits and the two outcomes of the refreshes after them. -/
theorem editsCoalesce : Obligations.EditsCoalesce := by
  intro edits s hne hedit
  obtain ⟨t, hall, hchg, ht⟩ := execAll_edits hne hedit s
  obtain ⟨u, hrfsh, hclear⟩ := exec_rfsh_clears_chg t
  exact ⟨t, u, hall, hchg, ht, hrfsh, hclear, exec_rfsh_of_unchanged hclear⟩

/-! ### PR commands among samples -/

/-- The two states agree in what `PROC` reads and writes (R111): the section memories, the active bank, the NaN draws and the
responses on the RT port. -/
def DatapathAgrees (s t : State) : Prop :=
  s.mem = t.mem ∧ s.act = t.act ∧ s.abyp = t.abyp ∧ s.draws = t.draws ∧ s.out.rt = t.out.rt

theorem DatapathAgrees.trans {s t u : State} (hst : DatapathAgrees s t) (htu : DatapathAgrees t u) : DatapathAgrees s u := by
  obtain ⟨hmem, hact, habyp, hdraws, hout⟩ := hst
  obtain ⟨hmem', hact', habyp', hdraws', hout'⟩ := htu
  exact ⟨hmem.trans hmem', hact.trans hact', habyp.trans habyp', hdraws.trans hdraws', hout.trans hout'⟩

/-- `PROC` gives agreeing states from agreeing states. -/
theorem exec_proc_agrees {s s' : State} (h : DatapathAgrees s s') (x : F) :
    ∃ t t', exec (.proc x) s = .next t ∧ exec (.proc x) s' = .next t' ∧ DatapathAgrees t t' := by
  obtain ⟨hmem, hact, habyp, hdraws, hout⟩ := h
  have hrun : runChain s.act s.abyp s.mem x s.draws = runChain s'.act s'.abyp s'.mem x s'.draws := by
    rw [hmem, hact, habyp, hdraws]
  have hresp : s.out.rt ++ [mkResponse .ok [(runChain s.act s.abyp s.mem x s.draws).y]] =
      s'.out.rt ++ [mkResponse .ok [(runChain s'.act s'.abyp s'.mem x s'.draws).y]] := by rw [hrun, hout]
  exact ⟨_, _, rfl, rfl, congrArg FilterOut.mem hrun, hact, habyp, congrArg FilterOut.draws hrun, hresp⟩

/-- A command of the PR port leaves what `PROC` reads and writes alone. -/
theorem exec_pr_agrees {i : Instr} (hi : i.port = .pr) (s : State) :
    ∃ t, exec i s = .next t ∧ DatapathAgrees t s := by
  obtain ⟨c, ws, u, ⟨⟨-, hout⟩, -, -, hrt, -⟩, hexec⟩ := exec_answersOnce i s
  obtain ⟨hmem, hact, habyp, -⟩ := hrt hi
  obtain ⟨-, hdraws⟩ := exec_scheduleAndDrawsKept hexec
  have hnotProc : ∀ x, i ≠ .proc x := by
    rintro x rfl
    cases hi
  have hrtOut : (respond i.port c ws u).out.rt = s.out.rt := by rw [respond_out, hi, hout]; rfl
  exact ⟨_, hexec, hmem, hact, habyp, hdraws hnotProc, hrtOut⟩

/-- From agreeing states, the commands and their `PROC` commands alone run to agreeing states. -/
theorem execAll_agrees_filter {cmds : List Instr} (h : ∀ i ∈ cmds, (∃ x, i = .proc x) ∨ i.port = .pr) {s s' : State}
    (hs : DatapathAgrees s s') : ∃ t u, execAll cmds s = .next t ∧
      execAll (cmds.filter fun i => i.port == .rt) s' = .next u ∧ DatapathAgrees t u := by
  induction cmds generalizing s s' with
  | nil => exact ⟨s, s', rfl, rfl, hs⟩
  | cons i is ih =>
    have ih := @ih fun j hj => h j (List.mem_cons_of_mem i hj)
    rcases h i List.mem_cons_self with ⟨x, rfl⟩ | hi
    · obtain ⟨t, t', hexec, hexec', ht⟩ := exec_proc_agrees hs x
      rw [List.filter_cons_of_pos rfl, execAll_cons_of_exec hexec, execAll_cons_of_exec hexec']
      exact ih ht
    · obtain ⟨t, hexec, ht⟩ := exec_pr_agrees hi s
      rw [List.filter_cons_of_neg (by rw [hi]; decide), execAll_cons_of_exec hexec]
      exact ih (ht.trans hs)

/-- Settles O37, from the run of the samples alone beside the whole run. -/
theorem procIndependentOfPr : Obligations.ProcIndependentOfPr := by
  intro cmds s h
  obtain ⟨t, u, hall, hfilter, hmem, -, -, -, hout⟩ := execAll_agrees_filter h (s := s) (s' := s) ⟨rfl, rfl, rfl, rfl, rfl⟩
  exact ⟨t, u, hall, hfilter, hout, hmem⟩

/-! ### The takes that `AVAIL` counts -/

theorem responseCode_mkResponse (c : Code) (ws : List Word) : responseCode (mkResponse c ws) = codeByte c := by
  apply BitVec.eq_of_getLsbD_eq
  intro i hi
  simp only [responseCode, mkResponse, respHeader, BitVec.getLsbD_extractLsb', BitVec.getLsbD_append]
  simp [hi]

theorem wordOfNat_toNat {n : Nat} (h : n < 2 ^ 32) : (wordOfNat n).toNat = n := by
  rw [wordOfNat, BitVec.toNat_ofNat, Nat.mod_eq_of_lt h]

theorem exec_pop_of_empty {s : State} (h : s.w = s.r) : exec .pop s = .next (answered .pr 0x00000001#32 [] s) := by
  simp only [exec, execPop, ringTake_empty h, respond_empty]

theorem exec_pop_of_nonempty {s : State} (h : s.w ≠ s.r) :
    exec .pop s = .next (respond .pr .ok (slotRead s (takeIndex s % s.cfg.cap)) { s with r := takeIndex s + 1 }) := by
  simp only [exec, execPop, ringTake_nonempty h]

/-- A take from a ring with something unread is one off what is available, overwritten blocks or not (R191, R198). -/
theorem available_after_take {s : State} {k : Nat} (hk : min (s.w - s.r) s.cfg.cap = k + 1) :
    min (s.w - (takeIndex s + 1)) s.cfg.cap = k := by
  unfold takeIndex
  split <;> omega

/-- As many takes as are available answer `OK` and empty the ring. -/
theorem execAll_pops (k : Nat) : ∀ s : State, s.r ≤ s.w → 1 ≤ s.cfg.cap → min (s.w - s.r) s.cfg.cap = k →
    ∃ (t : State) (new : List Response), execAll (List.replicate k .pop) s = .next t ∧ t.out.pr = s.out.pr ++ new ∧
      new.length = k ∧ (∀ e ∈ new, responseCode e = 0x0#8) ∧ t.r = t.w ∧ t.w = s.w := by
  induction k with
  | zero =>
    intro s hring hcap hk
    exact ⟨s, [], rfl, (List.append_nil _).symm, rfl, nofun, by omega, rfl⟩
  | succ k ih =>
    intro s hring hcap hk
    have hne : s.w ≠ s.r := by omega
    obtain ⟨t, new, hall, hout, hlen, hcode, hempty, hw⟩ :=
      ih (respond .pr .ok (slotRead s (takeIndex s % s.cfg.cap)) { s with r := takeIndex s + 1 })
        (takeIndex_lt hring hne hcap) hcap (available_after_take hk)
    refine ⟨t, _ :: new, (execAll_cons_of_exec (exec_pop_of_nonempty hne) _).trans hall,
      hout.trans (List.append_assoc _ [_] new), congrArg (· + 1) hlen, fun e he => ?_, hempty, hw⟩
    rcases List.mem_cons.1 he with rfl | he
    · exact responseCode_mkResponse .ok _
    · exact hcode e he

/-- Settles O44, by induction on the number of blocks available. -/
theorem availCountsTheTakes : Obligations.AvailCountsTheTakes := by
  refine ⟨fun s => ⟨wordOfNat (ringAvail s), congrArg _ (respond_ok_one .pr _ s), fun hcap => ?_⟩, fun s hring hcap => ?_⟩
  · exact wordOfNat_toNat (lt_of_le_of_lt (min_le_right _ _) hcap)
  · obtain ⟨t, new, hall, hout, hlen, hcode, hempty, hw⟩ := execAll_pops _ s hring hcap rfl
    exact ⟨t, new, hall, hout, hlen, hcode, hempty, hw, exec_pop_of_empty hempty.symm⟩

end Sys2Proof.Machine
end

section
/-!
SUPPORT. The header word by its fields, and what `encode` and `decode` say of each other: O1, O2, O3, O4. A header that matches its
row is the row's opcode with the operand fields of its format and zeros elsewhere.
-/

namespace Sys2Proof

/-! ### A word and its fields (R81) -/

/-- `rsv`, bits 18:16 (R81). -/
def rsvField (h : Word) : BitVec 3 := h.extractLsb' 16 3

@[simp] theorem rsvField_packHeader (o : BitVec 8) (s n : BitVec 2) (v : Bool) (m : BitVec 16) :
    rsvField (packHeader o s n v m) = 0#3 := by
  apply BitVec.eq_of_getLsbD_eq
  intro i hi
  simp only [rsvField, BitVec.getLsbD_extractLsb', packHeader_getLsbD]
  interval_cases i <;> simp

/-- The fields make up the word. -/
theorem append_fields_eq (h : Word) :
    opcField h ++ stgField h ++ nsm1Field h ++ BitVec.ofBool (vField h) ++ rsvField h ++ immField h = h := by
  apply BitVec.eq_of_getLsbD_eq
  intro i hi
  simp only [opcField, stgField, nsm1Field, vField, rsvField, immField, BitVec.getLsbD_append, BitVec.getLsbD_extractLsb',
    BitVec.getLsbD_ofBool]
  interval_cases i <;> simp

theorem eq_iff_fields_eq (a b : Word) : a = b ↔
    opcField a = opcField b ∧ stgField a = stgField b ∧ nsm1Field a = nsm1Field b ∧ vField a = vField b ∧
    rsvField a = rsvField b ∧ immField a = immField b := by
  constructor
  · rintro rfl
    exact ⟨rfl, rfl, rfl, rfl, rfl, rfl⟩
  · rintro ⟨hopc, hstg, hnsm1, hv, hrsv, himm⟩
    rw [← append_fields_eq a, ← append_fields_eq b, hopc, hstg, hnsm1, hv, hrsv, himm]

theorem opcField_and (a b : Word) : opcField (a &&& b) = opcField a &&& opcField b := BitVec.extractLsb'_and
theorem stgField_and (a b : Word) : stgField (a &&& b) = stgField a &&& stgField b := BitVec.extractLsb'_and
theorem nsm1Field_and (a b : Word) : nsm1Field (a &&& b) = nsm1Field a &&& nsm1Field b := BitVec.extractLsb'_and
theorem vField_and (a b : Word) : vField (a &&& b) = (vField a && vField b) := BitVec.getLsbD_and
theorem rsvField_and (a b : Word) : rsvField (a &&& b) = rsvField a &&& rsvField b := BitVec.extractLsb'_and
theorem immField_and (a b : Word) : immField (a &&& b) = immField a &&& immField b := BitVec.extractLsb'_and

/-! ### The mask and match columns (R90) by fields -/

/-- The commands of format `S`, which has a stage select (R82). -/
def usesStg (o : Op) : Bool := o == .upds || o == .sbyp

/-- The command of format `S` with a section count (R83). -/
def usesNsm1 (o : Op) : Bool := o == .upds

/-- The command of format `S` with a bypass value (R84). -/
def usesV (o : Op) : Bool := o == .sbyp

/-- The commands of formats `P` and `C`, which have an immediate (R82). -/
def usesImm (o : Op) : Bool := o == .wpar || o == .magr || o == .wview

/-- The header of the row `o` with the operand fields of `h` that its format uses, every other field zero (R89, R91). -/
def rowHeader (o : Op) (h : Word) : Word :=
  packHeader (opByte o) (if usesStg o then stgField h else 0#2) (if usesNsm1 o then nsm1Field h else 0#2) (usesV o && vField h)
    (if usesImm o then immField h else 0#16)

theorem fields_opMask (o : Op) :
    opcField (opMask o) = .allOnes 8 ∧ stgField (opMask o) = (if usesStg o then 0#2 else .allOnes 2) ∧
    nsm1Field (opMask o) = (if usesNsm1 o then 0#2 else .allOnes 2) ∧ vField (opMask o) = !usesV o ∧
    rsvField (opMask o) = .allOnes 3 ∧ immField (opMask o) = (if usesImm o then 0#16 else .allOnes 16) := by
  cases o <;> exact ⟨rfl, rfl, rfl, rfl, rfl, rfl⟩

theorem fields_opMatch (o : Op) :
    opcField (opMatch o) = opByte o ∧ stgField (opMatch o) = 0#2 ∧ nsm1Field (opMatch o) = 0#2 ∧ vField (opMatch o) = false ∧
    rsvField (opMatch o) = 0#3 ∧ immField (opMatch o) = 0#16 := by
  cases o <;> exact ⟨rfl, rfl, rfl, rfl, rfl, rfl⟩

/-- A masked field is zero when the format uses the field or the field is zero. -/
theorem and_mask_eq_zero_iff {n : Nat} (used : Bool) (x : BitVec n) :
    x &&& (if used then 0#n else .allOnes n) = 0#n ↔ (if used then x else 0#n) = x := by
  cases used
  · simpa using eq_comm
  · simp

/-- A header matches its row exactly when the fields its format does not use are zero (R89, R91). -/
theorem headerMatches_iff (o : Op) (h : Word) : headerMatches o h = true ↔ rowHeader o h = h := by
  obtain ⟨kopc, kstg, knsm1, kv, krsv, kimm⟩ := fields_opMask o
  obtain ⟨mopc, mstg, mnsm1, mv, mrsv, mimm⟩ := fields_opMatch o
  have hv : (vField h && !usesV o) = false ↔ (usesV o && vField h) = vField h := by
    cases usesV o <;> cases vField h <;> decide
  rw [headerMatches, beq_iff_eq, eq_iff_fields_eq, eq_iff_fields_eq (rowHeader o h)]
  simp only [opcField_and, stgField_and, nsm1Field_and, vField_and, rsvField_and, immField_and, kopc, kstg, knsm1, kv, krsv, kimm,
    mopc, mstg, mnsm1, mv, mrsv, mimm, and_mask_eq_zero_iff, hv, BitVec.and_allOnes, rowHeader, opcField_packHeader,
    stgField_packHeader, nsm1Field_packHeader, vField_packHeader, rsvField_packHeader, immField_packHeader]
  rw [eq_comm (a := opcField h), eq_comm (a := rsvField h)]

/-- The mask keeps the opcode, so a header that matches a row has the row's opcode. -/
theorem opcField_of_and_opMask {h : Word} {o : Op} (hm : h &&& opMask o = opMatch o) : opcField h = opByte o := by
  obtain ⟨kopc, -⟩ := fields_opMask o
  have hopc := congrArg opcField hm
  rwa [opcField_and, kopc, BitVec.and_allOnes] at hopc

theorem opByte_injective {a b : Op} (h : opByte a = opByte b) : a = b := by
  have hsome := congrArg opOfByte h
  rwa [opOfByte_opByte, opOfByte_opByte, Option.some.injEq] at hsome

/-- Settles O3: the opcode byte, which every mask keeps, tells the rows apart. -/
theorem atMostOneRowMatches : Obligations.AtMostOneRowMatches :=
  fun _ _ _ ha hb => opByte_injective ((opcField_of_and_opMask ha).symm.trans (opcField_of_and_opMask hb))

/-! ### Decoding what was encoded -/

theorem headerRow : ∀ i : Instr, Laws.HeaderRow.Statement i
  | .nop p => Laws.HeaderRow.nop p
  | .sync => Laws.HeaderRow.sync
  | .proc x => Laws.HeaderRow.proc x
  | .push blk => Laws.HeaderRow.push blk
  | .upds stg secs => Laws.HeaderRow.upds stg secs
  | .sbyp stg v => Laws.HeaderRow.sbyp stg v
  | .wpar p pid w => Laws.HeaderRow.wpar p pid w
  | .srate p fs => Laws.HeaderRow.srate p fs
  | .ntfy p => Laws.HeaderRow.ntfy p
  | .rfsh => Laws.HeaderRow.rfsh
  | .magr freqs => Laws.HeaderRow.magr freqs
  | .wview vid w => Laws.HeaderRow.wview vid w
  | .pop => Laws.HeaderRow.pop
  | .avail => Laws.HeaderRow.avail
  | .anlz => Laws.HeaderRow.anlz
  | .genp => Laws.HeaderRow.genp
  | .rdpath => Laws.HeaderRow.rdpath
  | .rstat p => Laws.HeaderRow.rstat p
  | .clrst => Laws.HeaderRow.clrst

/-- A command's port may issue it (R261). -/
theorem portAllowed_port (i : Instr) : portAllowed (opClass (opOf i)) i.port = true := by
  cases i <;> rfl

theorem decodeUpds_encode {stg : Stage} {secs : List Coefs} (hpos : 1 ≤ secs.length) (hslots : secs.length ≤ slots stg) :
    decodeUpds (headerOf (.upds stg secs)) (sectionsWords secs) = .ok (.upds stg secs) := by
  have hle : slots stg ≤ 4 := by cases stg <;> decide
  have hnsec : nsecField (headerOf (.upds stg secs)) = secs.length := by
    rw [headerOf, nsecField_packHeader, BitVec.toNat_ofNat]
    omega
  have hstg : stgField (headerOf (.upds stg secs)) = .ofNat 2 (stageNumber stg) := stgField_packHeader ..
  simp only [decodeUpds, hstg, stageOfField_stageNumber, hnsec, if_neg (Nat.not_lt.2 hslots), takeWords, sectionsWords_length,
    if_true, sectionsOf_sectionsWords]

theorem decodeSbyp_encode (stg : Stage) (v : Bool) : decodeSbyp (headerOf (.sbyp stg v)) [] = .ok (.sbyp stg v) := by
  simp only [decodeSbyp, headerOf, stgField_packHeader, vField_packHeader, stageOfField_stageNumber, takeNone]

theorem decodeWpar_encode (p : Port) {pid : Param} {w : Word} (hbool : pid.isBool = true → w = 0#32 ∨ w = 1#32) :
    decodeWpar p (headerOf (.wpar p pid w)) [w] = .ok (.wpar p pid w) := by
  have himm : (immField (headerOf (.wpar p pid w))).toNat = paramId pid := by
    have := paramId_lt pid
    rw [headerOf, immField_packHeader, BitVec.toNat_ofNat]
    omega
  have hlegal : ¬(pid.isBool && !(w == 0#32 || w == 1#32)) = true := by simpa [or_iff_not_imp_left] using hbool
  simp only [decodeWpar, himm, paramOfId_paramId, takeOne, if_neg hlegal]

theorem decodeWview_encode (vid : View) (w : F) : decodeWview (headerOf (.wview vid w)) [w] = .ok (.wview vid w) := by
  have himm : (immField (headerOf (.wview vid w))).toNat = viewId vid := by
    have := viewId_lt vid
    rw [headerOf, immField_packHeader, BitVec.toNat_ofNat]
    omega
  simp only [decodeWview, himm, viewOfId_viewId, takeOne]

/-- The operands of a well-formed command are read back (R84). -/
theorem decodeOperands_encode {l : Nat} {i : Instr} (h : i.WF l) :
    decodeOperands l (opOf i) i.port (headerOf i) (payloadOf i) = .ok i := by
  cases i
  case push blk =>
    exact if_pos (beq_iff_eq.1 h)
  case upds stg secs =>
    simp only [Instr.WF, Instr.wellFormed, Bool.and_eq_true, decide_eq_true_eq] at h
    exact decodeUpds_encode h.1 h.2
  case sbyp stg v => exact decodeSbyp_encode stg v
  case wpar p pid w =>
    refine decodeWpar_encode p fun hbool => ?_
    simpa [Instr.WF, Instr.wellFormed, hbool] using h
  case magr freqs =>
    have hle : freqs.length ≤ 65535 := of_decide_eq_true h
    have himm : (immField (headerOf (.magr freqs))).toNat = freqs.length := by
      rw [headerOf, immField_packHeader, BitVec.toNat_ofNat]
      omega
    exact if_pos himm.symm
  case wview vid w => exact decodeWview_encode vid w
  all_goals rfl

/-- Settles O1: the header is its row's and selects the command's opcode, its port may issue it, and the operands are read back. -/
theorem decodeOfEncode : Obligations.DecodeOfEncode := by
  intro l i h
  obtain ⟨hmatch, hop, -⟩ := headerRow i l h
  simp only [decode, encode, hop, portAllowed_port, hmatch, if_true, decodeOperands_encode h]

/-! ### Encoding what was decoded -/

theorem ofNat_stageNumber {b : BitVec 2} {st : Stage} (h : stageOfField b = some st) : .ofNat 2 (stageNumber st) = b := by
  unfold stageOfField at h
  split at h <;> cases h <;> exact (BitVec.eq_of_toNat_eq ‹_›).symm

theorem paramId_of_paramOfId {n : Nat} {pid : Param} (h : paramOfId n = some pid) : paramId pid = n := by
  unfold paramOfId at h
  split at h <;> cases h <;> rfl

theorem viewId_of_viewOfId {n : Nat} {vid : View} (h : viewOfId n = some vid) : viewId vid = n := by
  unfold viewOfId at h
  split at h <;> cases h <;> rfl

theorem headerOf_upds_of_decode {h : Word} {pl : List Word} {i : Instr} (hd : decodeUpds h pl = .ok i) :
    headerOf i = rowHeader .upds h := by
  obtain ⟨st, hst, -, hlen, rfl⟩ := decodeUpds_ok hd
  rw [headerOf, ofNat_stageNumber hst, sectionsOf_length _ _ hlen, nsecField, Nat.add_sub_cancel, BitVec.ofNat_toNat,
    BitVec.setWidth_eq]
  rfl

theorem headerOf_sbyp_of_decode {h : Word} {pl : List Word} {i : Instr} (hd : decodeSbyp h pl = .ok i) :
    headerOf i = rowHeader .sbyp h := by
  obtain ⟨st, hst, -, rfl⟩ := decodeSbyp_ok hd
  rw [headerOf, ofNat_stageNumber hst]
  rfl

theorem headerOf_wpar_of_decode {p : Port} {h : Word} {pl : List Word} {i : Instr} (hd : decodeWpar p h pl = .ok i) :
    headerOf i = rowHeader .wpar h := by
  obtain ⟨pid, w, hpid, -, -, rfl⟩ := decodeWpar_ok hd
  rw [headerOf, paramId_of_paramOfId hpid, BitVec.ofNat_toNat, BitVec.setWidth_eq]
  rfl

theorem headerOf_wview_of_decode {h : Word} {pl : List Word} {i : Instr} (hd : decodeWview h pl = .ok i) :
    headerOf i = rowHeader .wview h := by
  obtain ⟨vid, w, hvid, -, rfl⟩ := decodeWview_ok hd
  rw [headerOf, viewId_of_viewOfId hvid, BitVec.ofNat_toNat, BitVec.setWidth_eq]
  rfl

/-- The header of the command that the operands of a row give is the row's, with those operand fields. -/
theorem headerOf_of_decodeOperands {l : Nat} {o : Op} {p : Port} {h : Word} {pl : List Word} {i : Instr}
    (hd : decodeOperands l o p h pl = .ok i) : headerOf i = rowHeader o h := by
  cases o <;> simp only [decodeOperands] at hd
  case proc | srate =>
    obtain ⟨w, -, hw⟩ := takeOne_ok hd
    cases hw
    rfl
  case push =>
    obtain ⟨-, rfl⟩ := takeWords_ok hd
    rfl
  case magr =>
    obtain ⟨hlen, rfl⟩ := takeWords_ok hd
    rw [headerOf, hlen, BitVec.ofNat_toNat, BitVec.setWidth_eq]
    rfl
  case upds => exact headerOf_upds_of_decode hd
  case sbyp => exact headerOf_sbyp_of_decode hd
  case wpar => exact headerOf_wpar_of_decode hd
  case wview => exact headerOf_wview_of_decode hd
  all_goals
    obtain ⟨-, rfl⟩ := takeNone_ok hd
    rfl

theorem encode_of_decode {l : Nat} {p : Port} {pk : Packet} {i : Instr} (h : decode l p pk = .ok i) : encode i = pk := by
  obtain ⟨o, -, -, hmatch, hd⟩ := decode_ok h
  have hheader : headerOf i = pk.header := (headerOf_of_decodeOperands hd).trans ((headerMatches_iff o _).1 hmatch)
  obtain ⟨-, hpayload⟩ := decodeOperands_ok hd
  rw [encode, hheader, hpayload]

/-- Settles O2, from the header and the payload of the decoded command. -/
theorem encodeOfDecode : Obligations.EncodeOfDecode :=
  fun _ _ _ _ h => ⟨encode_of_decode h, decode_port h, decode_wellFormed h⟩

theorem encode_upds_hc_four (c0 c1 c2 c3 : Coefs) :
    encode (.upds .hc [c0, c1, c2, c3]) = ⟨0x10B00000#32, sectionsWords [c0, c1, c2, c3]⟩ := by
  have hheader : packHeader (opByte .upds) (.ofNat 2 2) (.ofNat 2 3) false 0#16 = 0x10B00000#32 := by decide
  exact congrArg (Packet.mk · _) hheader

/-- Settles O4: each packet of R99 is the encoding of its command, which is well formed. -/
theorem specWordsDecode : Obligations.SpecWordsDecode :=
  ⟨decodeOfEncode 4096 (.upds .pk [⟨0x3F000000#32, 0x3E800000#32, 0x3E000000#32, 0xBF000000#32, 0x3E800000#32⟩]) rfl,
    fun c0 c1 c2 c3 => encode_upds_hc_four c0 c1 c2 c3 ▸ decodeOfEncode 4096 (.upds .hc [c0, c1, c2, c3]) rfl,
    decodeOfEncode 4096 (.sbyp .lc true) rfl,
    decodeOfEncode 4096 (.sbyp .pk false) rfl,
    decodeOfEncode 4096 (.sbyp .hc true) rfl,
    decodeOfEncode 4096 (.wpar .pr .pkg 0x40C00000#32) rfl,
    decodeOfEncode 4096 (.wpar .pr .lcs 0x00000002#32) rfl,
    decodeOfEncode 4096 (.proc 0x3F800000#32) rfl,
    decodeOfEncode 4096 (.magr [0x447A0000#32, 0x41A00000#32, 0x469C4000#32]) rfl,
    decodeOfEncode 4096 (.wview .floor 0xC2400000#32) rfl⟩

end Sys2Proof
end

section
/-!
SUPPORT. Packets refused while decoding: O6 to O11. The fields of a header as numbers, what each step of R95 has found when decoding
rejects a packet, and the step that records it.
-/

namespace Sys2Proof.Machine

/-! ### The fields of a header as numbers (R81) -/

theorem opcField_toNat (h : Word) : (opcField h).toNat = opcode h := by
  have := h.isLt
  simp only [opcField, opcode, BitVec.extractLsb'_toNat, Nat.shiftRight_eq_div_pow]
  omega

theorem stgField_toNat (h : Word) : (stgField h).toNat = h.toNat / 2 ^ 22 % 4 := by
  simp only [stgField, BitVec.extractLsb'_toNat, Nat.shiftRight_eq_div_pow]

theorem nsm1Field_toNat (h : Word) : (nsm1Field h).toNat = h.toNat / 2 ^ 20 % 4 := by
  simp only [nsm1Field, BitVec.extractLsb'_toNat, Nat.shiftRight_eq_div_pow]

theorem vField_toNat (h : Word) : (vField h).toNat = h.toNat / 2 ^ 19 % 2 := by
  rw [vField, BitVec.getLsbD, Nat.toNat_testBit]

theorem immField_toNat (h : Word) : (immField h).toNat = h.toNat % 2 ^ 16 := by
  simp only [immField, BitVec.extractLsb'_toNat, Nat.shiftRight_eq_div_pow, pow_zero, Nat.div_one]

theorem toNat_append_eq_add {m n : Nat} (a : BitVec m) (b : BitVec n) : (a ++ b).toNat = a.toNat * 2 ^ n + b.toNat := by
  rw [BitVec.toNat_append, ← Nat.shiftLeft_add_eq_or_of_lt b.isLt, Nat.shiftLeft_eq]

theorem packHeader_toNat (o : BitVec 8) (s n : BitVec 2) (v : Bool) (m : BitVec 16) :
    (packHeader o s n v m).toNat =
      o.toNat * 2 ^ 24 + s.toNat * 2 ^ 22 + n.toNat * 2 ^ 20 + v.toNat * 2 ^ 19 + m.toNat := by
  have h : (packHeader o s n v m).toNat =
      (o ++ s ++ n ++ BitVec.ofBool v ++ (0#3) ++ m : BitVec (8 + 2 + 2 + 1 + 3 + 16)).toNat := rfl
  simp only [h, toNat_append_eq_add, BitVec.toNat_ofBool, BitVec.toNat_ofNat]
  omega

/-! ### Opcodes and their classes -/

theorem opByte_of_opOfByte {b : BitVec 8} {o : Op} (h : opOfByte b = some o) : b = opByte o := by
  unfold opOfByte at h
  split at h <;> cases h <;> exact BitVec.eq_of_toNat_eq ‹_›

theorem opcode_eq_of_opOfByte {h : Word} {o : Op} (ho : opOfByte (opcField h) = some o) : opcode h = (opByte o).toNat := by
  rw [← opcField_toNat, opByte_of_opOfByte ho]

/-- The opcodes that the statements list for a class. -/
def opcodesOf : PortClass → List Nat
  | .any => anyPortOpcodes
  | .rt => rtOnlyOpcodes
  | .pr => prOnlyOpcodes

theorem opClass_of_mem_opcodesOf (c : PortClass) : ∀ n ∈ opcodesOf c, (opOfByte (.ofNat 8 n)).map opClass = some c := by
  cases c <;> decide

theorem opByte_mem_opcodesOf (o : Op) : (opByte o).toNat ∈ opcodesOf (opClass o) := by
  cases o <;> decide

theorem opcode_mem_opcodesOf_iff (h : Word) (c : PortClass) :
    opcode h ∈ opcodesOf c ↔ ∃ o, opOfByte (opcField h) = some o ∧ opClass o = c := by
  constructor
  · intro hmem
    have hclass := opClass_of_mem_opcodesOf c _ hmem
    rwa [← opcField_toNat, BitVec.ofNat_toNat, BitVec.setWidth_eq, Option.map_eq_some_iff] at hclass
  · rintro ⟨o, ho, rfl⟩
    rw [opcode_eq_of_opOfByte ho]
    exact opByte_mem_opcodesOf o

theorem issuable_iff (h : Word) (p : Port) :
    Issuable (opcode h) p ↔ ∃ o, opOfByte (opcField h) = some o ∧ portAllowed (opClass o) p = true := by
  have hany := opcode_mem_opcodesOf_iff h .any
  have hrt := opcode_mem_opcodesOf_iff h .rt
  have hpr := opcode_mem_opcodesOf_iff h .pr
  simp only [opcodesOf] at hany hrt hpr
  rw [Issuable, hany, hrt, hpr]
  constructor
  · rintro (⟨o, ho, hc⟩ | ⟨rfl, o, ho, hc⟩ | ⟨rfl, o, ho, hc⟩) <;> exact ⟨o, ho, by rw [hc]; rfl⟩
  · rintro ⟨o, ho, hp⟩
    cases hc : opClass o <;> cases p <;> rw [hc] at hp
    case rt.rt => exact .inr (.inl ⟨rfl, o, ho, hc⟩)
    case pr.pr => exact .inr (.inr ⟨rfl, o, ho, hc⟩)
    case any.rt | any.pr => exact .inl ⟨o, ho, hc⟩
    all_goals cases hp

/-- An opcode of the other port's class, as the statements write it (R260). -/
def OnWrongPort (n : Nat) (p : Port) : Prop := (p = .pr ∧ n ∈ rtOnlyOpcodes) ∨ (p = .rt ∧ n ∈ prOnlyOpcodes)

theorem onWrongPort_iff (h : Word) (p : Port) :
    OnWrongPort (opcode h) p ↔ ∃ o, opOfByte (opcField h) = some o ∧ portAllowed (opClass o) p = false := by
  have hrt := opcode_mem_opcodesOf_iff h .rt
  have hpr := opcode_mem_opcodesOf_iff h .pr
  simp only [opcodesOf] at hrt hpr
  rw [OnWrongPort, hrt, hpr]
  constructor
  · rintro (⟨rfl, o, ho, hc⟩ | ⟨rfl, o, ho, hc⟩) <;> exact ⟨o, ho, by rw [hc]; rfl⟩
  · rintro ⟨o, ho, hp⟩
    cases hc : opClass o <;> cases p <;> rw [hc] at hp
    case rt.pr => exact .inl ⟨rfl, o, ho, hc⟩
    case pr.rt => exact .inr ⟨rfl, o, ho, hc⟩
    all_goals cases hp

/-! ### Unused fields (R91) -/

theorem rowHeader_toNat (o : Op) (h : Word) : (rowHeader o h).toNat =
    (opByte o).toNat * 2 ^ 24 + (if usesStg o then h.toNat / 2 ^ 22 % 4 else 0) * 2 ^ 22 +
      (if usesNsm1 o then h.toNat / 2 ^ 20 % 4 else 0) * 2 ^ 20 + (if usesV o then h.toNat / 2 ^ 19 % 2 else 0) * 2 ^ 19 +
      (if usesImm o then h.toNat % 2 ^ 16 else 0) := by
  rw [rowHeader, packHeader_toNat, apply_ite BitVec.toNat, apply_ite BitVec.toNat, apply_ite BitVec.toNat, stgField_toNat,
    nsm1Field_toNat, immField_toNat]
  cases usesV o
  · rfl
  · rw [Bool.true_and, vField_toNat]
    rfl

/-- A header with its row's opcode matches the row unless a field that R91 names is set: in each format the header is the sum of
its fields, and R91 names those that the row has no term for. -/
theorem unusedFieldSet_iff {h : Word} {o : Op} (hop : opcode h = (opByte o).toNat) :
    UnusedFieldSet h ↔ ¬headerMatches o h = true := by
  have htop : h.toNat / 2 ^ 24 = (opByte o).toNat := hop
  rw [headerMatches_iff, ← BitVec.toNat_inj, rowHeader_toNat]
  cases o <;>
    simp [UnusedFieldSet, hop, opByte, opMatch, opcField, usesStg, usesNsm1, usesV, usesImm] at htop ⊢ <;>
    omega

/-! ### What the operands and the payload length decide (R95, steps 3 to 5) -/

/-- What decoding answers once the opcode, the port and the unused fields have passed, for a packet with a reserved operand or
none, and a payload of one length where its header implies another. -/
def OperandVerdict (reserved : Prop) (len implied : Nat) : Decoded → Prop
  | .ok _ => ¬reserved ∧ len = implied
  | .error .wrongLength => ¬reserved ∧ len ≠ implied
  | .error .reservedOperand | .error .reservedPayload => reserved
  | .error .unknownOpcode | .error .wrongPort | .error .reservedField => False

theorem OperandVerdict.wrongLength_iff {reserved : Prop} {len implied : Nat} {d : Decoded}
    (h : OperandVerdict reserved len implied d) : d = .error .wrongLength ↔ ¬reserved ∧ len ≠ implied := by
  constructor
  · rintro rfl
    exact h
  · rintro ⟨hres, hlen⟩
    match d, h with
    | .ok _, ⟨_, heq⟩ => exact absurd heq hlen
    | .error .wrongLength, _ => rfl
    | .error .reservedOperand, h | .error .reservedPayload, h => exact absurd h hres

theorem takeNone_verdict (pl : List Word) (i : Instr) : OperandVerdict False pl.length 0 (takeNone pl i) := by
  cases pl with
  | nil => exact ⟨id, rfl⟩
  | cons w ws => exact ⟨id, Nat.succ_ne_zero _⟩

theorem takeOne_verdict (pl : List Word) (f : Word → Instr) :
    OperandVerdict False pl.length 1 (takeOne pl fun w => .ok (f w)) := by
  match pl with
  | [] => exact ⟨id, nofun⟩
  | [w] => exact ⟨id, rfl⟩
  | _ :: _ :: ws => exact ⟨id, by simp⟩

theorem takeWords_verdict (pl : List Word) (k : Nat) (i : Instr) : OperandVerdict False pl.length k (takeWords pl k i) := by
  unfold takeWords
  split
  · next hlen => exact ⟨id, hlen⟩
  · next hlen => exact ⟨id, hlen⟩

theorem stageOfField_eq_none_iff (b : BitVec 2) : stageOfField b = none ↔ b.toNat = 3 := by
  decide +revert

theorem stageNumber_of_stageOfField {b : BitVec 2} {st : Stage} (h : stageOfField b = some st) : b.toNat = stageNumber st := by
  rw [← ofNat_stageNumber h]
  cases st <;> rfl

theorem paramOfId_eq_none_iff (n : Nat) : paramOfId n = none ↔ 10 < n := by
  constructor
  · intro h
    by_contra hle
    interval_cases n <;> cases h
  · intro h
    cases hpid : paramOfId n with
    | none => rfl
    | some pid =>
      have := paramId_lt pid
      rw [paramId_of_paramOfId hpid] at this
      omega

theorem viewOfId_eq_none_iff (n : Nat) : viewOfId n = none ↔ 6 < n := by
  constructor
  · intro h
    by_contra hle
    interval_cases n <;> cases h
  · intro h
    cases hvid : viewOfId n with
    | none => rfl
    | some vid =>
      have := viewId_lt vid
      rw [viewId_of_viewOfId hvid] at this
      omega

/-- The boolean parameters are those of `pid` 7 to 10 (R27). -/
theorem isBool_iff (pid : Param) : pid.isBool = true ↔ 7 ≤ paramId pid ∧ paramId pid ≤ 10 := by
  cases pid <;> decide

/-- Neither 0 nor 1, as `decodeWpar` tests it. -/
theorem not_boolWord_iff (w : Word) : (!(w == 0#32 || w == 1#32)) = true ↔ 1 < w.toNat := by
  have h0 : w = 0#32 ↔ w.toNat = 0 := BitVec.toNat_inj.symm
  have h1 : w = 1#32 ↔ w.toNat = 1 := BitVec.toNat_inj.symm
  simp only [Bool.not_eq_true', Bool.or_eq_false_iff, beq_eq_false_iff_ne, ne_eq, h0, h1]
  omega

theorem decodeUpds_verdict {l : Nat} {h : Word} (hop : opcode h = 0x10) (pl : List Word) :
    OperandVerdict (ReservedOperand ⟨h, pl⟩) pl.length (impliedLength l h) (decodeUpds h pl) := by
  have hres : ReservedOperand ⟨h, pl⟩ ↔ (stgField h).toNat = 3 ∨ ((stgField h).toNat = 1 ∧ (nsm1Field h).toNat ≠ 0) := by
    simp [ReservedOperand, hop, stgField_toNat, nsm1Field_toNat]
  have himp : impliedLength l h = 5 * nsecField h := by
    simp [impliedLength, hop, nsecField, nsm1Field_toNat]
  have hnsec : nsecField h = (nsm1Field h).toNat + 1 := rfl
  have hlt := (nsm1Field h).isLt
  rw [himp]
  unfold decodeUpds
  split
  · next hst => exact hres.2 (.inl ((stageOfField_eq_none_iff _).1 hst))
  · next st hst =>
    have hnum := stageNumber_of_stageOfField hst
    have hslots : ReservedOperand ⟨h, pl⟩ ↔ slots st < nsecField h := by
      rw [hres, hnum]
      cases st <;> simp [stageNumber, slots] <;> omega
    split
    · next hlt => exact hslots.2 hlt
    · next hle =>
      rw [iff_false_intro (fun hr => hle (hslots.1 hr))]
      exact takeWords_verdict _ _ _

theorem decodeSbyp_verdict {l : Nat} {h : Word} (hop : opcode h = 0x11) (pl : List Word) :
    OperandVerdict (ReservedOperand ⟨h, pl⟩) pl.length (impliedLength l h) (decodeSbyp h pl) := by
  have hres : ReservedOperand ⟨h, pl⟩ ↔ stageOfField (stgField h) = none := by
    simp [ReservedOperand, hop, stageOfField_eq_none_iff, stgField_toNat]
  have himp : impliedLength l h = 0 := by simp [impliedLength, hop]
  rw [hres, himp]
  unfold decodeSbyp
  split
  · next hst => exact hst
  · next st hst =>
    rw [hst, iff_false_intro (Option.some_ne_none st)]
    exact takeNone_verdict _ _

theorem decodeWpar_verdict {l : Nat} {h : Word} (hop : opcode h = 0x12) (p : Port) (pl : List Word) :
    OperandVerdict (ReservedOperand ⟨h, pl⟩) pl.length (impliedLength l h) (decodeWpar p h pl) := by
  have hres : ReservedOperand ⟨h, pl⟩ ↔ paramOfId (immField h).toNat = none ∨
      (7 ≤ (immField h).toNat ∧ (immField h).toNat ≤ 10 ∧ ∃ w : Word, pl = [w] ∧ 1 < w.toNat) := by
    simp [ReservedOperand, hop, paramOfId_eq_none_iff, immField_toNat]
  have himp : impliedLength l h = 1 := by simp [impliedLength, hop]
  rw [himp]
  unfold decodeWpar
  split
  · next hpid => exact hres.2 (.inl hpid)
  · next pid hpid =>
    have hbool : ReservedOperand ⟨h, pl⟩ ↔ pid.isBool = true ∧ ∃ w : Word, pl = [w] ∧ 1 < w.toNat := by
      rw [hres, hpid, isBool_iff, paramId_of_paramOfId hpid, and_assoc]
      exact or_iff_right (Option.some_ne_none pid)
    match pl with
    | [] => exact ⟨fun hr => by simpa using hbool.1 hr, nofun⟩
    | _ :: _ :: ws => exact ⟨fun hr => by simpa using hbool.1 hr, by simp⟩
    | [w] =>
      have hone : ReservedOperand ⟨h, [w]⟩ ↔ (pid.isBool && !(w == 0#32 || w == 1#32)) = true := by
        rw [hbool, Bool.and_eq_true, not_boolWord_iff]
        simp
      simp only [takeOne]
      split
      · next hbad => exact hone.2 hbad
      · next hgood => exact ⟨fun hr => hgood (hone.1 hr), rfl⟩

theorem decodeWview_verdict {l : Nat} {h : Word} (hop : opcode h = 0x17) (pl : List Word) :
    OperandVerdict (ReservedOperand ⟨h, pl⟩) pl.length (impliedLength l h) (decodeWview h pl) := by
  have hres : ReservedOperand ⟨h, pl⟩ ↔ viewOfId (immField h).toNat = none := by
    simp [ReservedOperand, hop, viewOfId_eq_none_iff, immField_toNat]
  have himp : impliedLength l h = 1 := by simp [impliedLength, hop]
  rw [hres, himp]
  unfold decodeWview
  split
  · next hvid => exact hvid
  · next vid hvid =>
    rw [hvid, iff_false_intro (Option.some_ne_none vid)]
    exact takeOne_verdict pl fun w => .wview vid w

/-- The rows with no operand that R93 speaks of. -/
theorem not_reservedOperand {pk : Packet} (hop : opcode pk.header ∉ [0x10, 0x11, 0x12, 0x17]) : ¬ReservedOperand pk := by
  simp only [List.mem_cons, List.not_mem_nil, or_false, not_or] at hop
  simp [ReservedOperand, hop]

/-- The length of the statements is the model's, for the opcodes that have one (R83). -/
theorem impliedLength_eq_paylen {h : Word} {o : Op} (ho : opOfByte (opcField h) = some o) (l : Nat) :
    impliedLength l h = paylen l h := by
  have hop := opcode_eq_of_opOfByte ho
  rw [paylen, ho]
  cases o <;> simp [impliedLength, hop, opByte, opMatch, opcField, nsecField, nsm1Field_toNat, immField_toNat]

/-- The verdict on the operands of every row, in the words of R93 and R83. -/
theorem decodeOperands_verdict {h : Word} {o : Op} (ho : opOfByte (opcField h) = some o) (l : Nat) (p : Port) (pl : List Word) :
    OperandVerdict (ReservedOperand ⟨h, pl⟩) pl.length (impliedLength l h) (decodeOperands l o p h pl) := by
  have hop := opcode_eq_of_opOfByte ho
  cases o
  case upds => exact decodeUpds_verdict hop pl
  case sbyp => exact decodeSbyp_verdict hop pl
  case wpar => exact decodeWpar_verdict hop p pl
  case wview => exact decodeWview_verdict hop pl
  all_goals
    rw [iff_false_intro (not_reservedOperand (pk := ⟨h, pl⟩) (by rw [hop]; decide)), impliedLength_eq_paylen ho, paylen, ho]
  case proc => exact takeOne_verdict pl .proc
  case srate => exact takeOne_verdict pl (.srate p)
  case push => exact takeWords_verdict pl l _
  case magr => exact takeWords_verdict pl _ _
  all_goals exact takeNone_verdict pl _

/-! ### What decoding decides -/

theorem decode_of_headerMatches {l : Nat} {p : Port} {pk : Packet} {o : Op} (ho : opOfByte (opcField pk.header) = some o)
    (hp : portAllowed (opClass o) p = true) (hm : headerMatches o pk.header = true) :
    decode l p pk = decodeOperands l o p pk.header pk.payload := by
  simp only [decode, ho, hp, hm, if_true]

/-- What decoding has found when it rejects a packet, by the steps of R95. -/
theorem decode_error {l : Nat} {p : Port} {pk : Packet} {e : DecodeError} (h : decode l p pk = .error e) :
    (opOfByte (opcField pk.header) = none ∧ e = .unknownOpcode) ∨
    (OnWrongPort (opcode pk.header) p ∧ e = .wrongPort) ∨
    (UnusedFieldSet pk.header ∧ e = .reservedField) ∨
    (Issuable (opcode pk.header) p ∧ ¬UnusedFieldSet pk.header ∧
      OperandVerdict (ReservedOperand pk) pk.payload.length (impliedLength l pk.header) (.error e)) := by
  unfold decode at h
  split at h
  · next ho =>
    cases h
    exact .inl ⟨ho, rfl⟩
  · next o ho =>
    have hunused := unusedFieldSet_iff (opcode_eq_of_opOfByte ho)
    split at h
    · next hp =>
      split at h
      · next hm =>
        have hverdict := decodeOperands_verdict ho l p pk.payload
        rw [h] at hverdict
        exact .inr (.inr (.inr ⟨(issuable_iff _ p).2 ⟨o, ho, hp⟩, fun hu => hunused.1 hu hm, hverdict⟩))
      · next hm =>
        cases h
        exact .inr (.inr (.inl ⟨hunused.2 hm, rfl⟩))
    · next hp =>
      cases h
      exact .inr (.inl ⟨(onWrongPort_iff _ p).2 ⟨o, ho, Bool.eq_false_of_not_eq_true hp⟩, rfl⟩)

/-- A packet that decodes is legal in every respect that R87 to R93 name. -/
theorem decode_legal {l : Nat} {p : Port} {pk : Packet} {i : Instr} (h : decode l p pk = .ok i) :
    Issuable (opcode pk.header) p ∧ ¬UnusedFieldSet pk.header ∧ ¬ReservedOperand pk ∧
      pk.payload.length = impliedLength l pk.header := by
  obtain ⟨o, ho, hp, hm, hd⟩ := decode_ok h
  have hverdict := decodeOperands_verdict ho l p pk.payload
  rw [hd] at hverdict
  obtain ⟨hres, hlen⟩ := hverdict
  exact ⟨(issuable_iff _ p).2 ⟨o, ho, hp⟩, fun hu => (unusedFieldSet_iff (opcode_eq_of_opOfByte ho)).1 hu hm, hres, hlen⟩

theorem decode_wrongPort_iff (l : Nat) (p : Port) (pk : Packet) :
    decode l p pk = .error .wrongPort ↔ OnWrongPort (opcode pk.header) p := by
  constructor
  · intro h
    obtain ⟨-, he⟩ | ⟨hport, -⟩ | ⟨-, he⟩ | ⟨-, -, hverdict⟩ := decode_error h
    · cases he
    · exact hport
    · cases he
    · exact hverdict.elim
  · intro h
    obtain ⟨o, ho, hp⟩ := (onWrongPort_iff _ p).1 h
    simp [decode, ho, hp]

/-- A port that may issue an opcode is not the wrong one. -/
theorem Issuable.decode_ne_wrongPort {l : Nat} {p : Port} {pk : Packet} (h : Issuable (opcode pk.header) p) :
    decode l p pk ≠ .error .wrongPort := by
  intro hd
  obtain ⟨o, ho, hp⟩ := (issuable_iff _ p).1 h
  obtain ⟨o', ho', hp'⟩ := (onWrongPort_iff _ p).1 ((decode_wrongPort_iff l p pk).1 hd)
  rw [ho, Option.some.injEq] at ho'
  rw [← ho', hp] at hp'
  cases hp'

theorem decode_wrongLength_iff (l : Nat) (p : Port) (pk : Packet) :
    decode l p pk = .error .wrongLength ↔ Issuable (opcode pk.header) p ∧ ¬UnusedFieldSet pk.header ∧ ¬ReservedOperand pk ∧
      pk.payload.length ≠ impliedLength l pk.header := by
  constructor
  · intro h
    obtain ⟨-, he⟩ | ⟨-, he⟩ | ⟨-, he⟩ | ⟨hport, hunused, hres, hlen⟩ := decode_error h
    · cases he
    · cases he
    · cases he
    · exact ⟨hport, hunused, hres, hlen⟩
  · rintro ⟨hport, hunused, hillegal⟩
    obtain ⟨o, ho, hp⟩ := (issuable_iff _ p).1 hport
    have hm := not_not.1 (mt (unusedFieldSet_iff (opcode_eq_of_opOfByte ho)).2 hunused)
    rw [decode_of_headerMatches ho hp hm]
    exact (decodeOperands_verdict ho l p pk.payload).wrongLength_iff.2 hillegal

/-! ### The step of a refused packet -/

/-- A packet that neither decodes nor is on the wrong port leaves the record of `ILLEGAL_COMMAND` (R94). -/
theorem step_of_illegal {s : State} {p : Port} {pk : Packet} (h : nextEvent s = .command p pk)
    (hok : ∀ i, decode s.cfg.l p pk ≠ .ok i) (hport : decode s.cfg.l p pk ≠ .error .wrongPort) :
    step s = .next (refusedWith p 4 0x4#32 pk.header (accept p s)) := by
  cases hd : decode s.cfg.l p pk with
  | ok i => exact absurd hd (hok i)
  | error e =>
    have hcode : decodeErrorCode e = .illegalCommand := by
      cases e
      case wrongPort => exact absurd hd hport
      all_goals rfl
    rw [step_of_decode_error h hd, hcode, refuse_illegalCommand]

/-- Settles O11: a packet decodes, or decoding rejects it for its port or for another reason. -/
theorem illegalCommandWritesOnlyTheRecord : Obligations.IllegalCommandWritesOnlyTheRecord := by
  intro s p pk h
  by_cases hok : ∃ i, decode s.cfg.l p pk = .ok i
  · exact .inl hok
  by_cases hport : OnWrongPort (opcode pk.header) p
  · exact .inr (or_assoc.1 (.inl hport))
  · exact .inr (.inr (.inr (step_of_illegal h (not_exists.1 hok) (mt (decode_wrongPort_iff _ p pk).1 hport))))

/-- Settles O7, from the step that records a rejection and what decoding rejects a packet's port for. -/
theorem wrongPortIsRefused : Obligations.WrongPortIsRefused := by
  refine ⟨fun s p pk h hport => ?_, decode_wrongPort_iff⟩
  rw [step_of_decode_error h ((decode_wrongPort_iff _ p pk).2 hport), decodeErrorCode, refuse_portViolation]

/-- Settles O8: such a packet is on its port and does not decode. -/
theorem unusedFieldsMustBeZero : Obligations.UnusedFieldsMustBeZero := by
  intro s p pk h hport hunused
  refine step_of_illegal h (fun i hd => ?_) hport.decode_ne_wrongPort
  obtain ⟨-, hclear, -⟩ := decode_legal hd
  exact hclear hunused

/-- Settles O10: such a packet is on its port and does not decode; when the length is the reason is read off the steps of R95. -/
theorem wrongPayloadLengthIsIllegal : Obligations.WrongPayloadLengthIsIllegal := by
  refine ⟨fun s p pk h hport hlen => step_of_illegal h (fun i hd => ?_) hport.decode_ne_wrongPort, decode_wrongLength_iff⟩
  obtain ⟨-, -, -, hlegal⟩ := decode_legal hd
  exact hlen hlegal

theorem step_of_reservedOperand {s : State} {p : Port} {pk : Packet} (h : nextEvent s = .command p pk)
    (hport : Issuable (opcode pk.header) p) (hres : ReservedOperand pk) :
    step s = .next (refusedWith p 4 0x4#32 pk.header (accept p s)) := by
  refine step_of_illegal h (fun i hd => ?_) hport.decode_ne_wrongPort
  obtain ⟨-, -, hlegal, -⟩ := decode_legal hd
  exact hlegal hres

/-- A slope is no boolean, so every word of it is legal (R93) and the step stores it. -/
theorem step_wpar_lcs {s : State} {p : Port} {w : Word} (h : nextEvent s = .command p ⟨0x12000005#32, [w]⟩) :
    step s = .next (answered p 0x00000000#32 [] { accept p s with param := { s.param with lcs := w }, chg := true }) :=
  step_of_decode_ok h (decodeOfEncode s.cfg.l (.wpar p .lcs w) rfl)

theorem step_wpar_hcs {s : State} {p : Port} {w : Word} (h : nextEvent s = .command p ⟨0x12000006#32, [w]⟩) :
    step s = .next (answered p 0x00000000#32 [] { accept p s with param := { s.param with hcs := w }, chg := true }) :=
  step_of_decode_ok h (decodeOfEncode s.cfg.l (.wpar p .hcs w) rfl)

theorem refreshConfigured_of_slope {s : State} (h : 3 < s.param.lcs.toNat ∨ 3 < s.param.hcs.toNat) :
    refreshConfigured s = false := by
  obtain h | h := h <;> simp [refreshConfigured, slopeOutOfRange, h]

/-- A refresh with an edit pending and a bad configuration is refused (R162). -/
theorem exec_rfsh_of_misconfigured {s : State} (hchg : s.chg = true) (h : refreshConfigured s = false) :
    exec .rfsh s = .next (refusedWith .pr 2 0x1#32 0x15000000#32 { s with chg := false }) := by
  simp only [exec, execRfsh, hchg, h, if_true, Bool.false_eq_true, if_false]
  rfl

/-- Settles O9: reserved operands do not decode; a slope is stored as any parameter is, and fails the test of `RFSH`. -/
theorem reservedOperandsAreIllegal : Obligations.ReservedOperandsAreIllegal :=
  ⟨fun _ _ _ => step_of_reservedOperand, fun _ _ _ _ => step_wpar_lcs, fun _ _ _ _ => step_wpar_hcs,
    fun _ hchg hslope => exec_rfsh_of_misconfigured hchg (refreshConfigured_of_slope hslope)⟩

/-! ### Reserved opcodes and the one command without effect (R92) -/

/-- The four ranges of R92. -/
def ReservedOpcode (n : Nat) : Prop :=
  (0x04 ≤ n ∧ n ≤ 0x0F) ∨ (0x18 ≤ n ∧ n ≤ 0x1F) ∨ (0x25 ≤ n ∧ n ≤ 0x2F) ∨ (0x32 ≤ n ∧ n ≤ 0xFF)

theorem opByte_not_reserved (o : Op) : ¬ReservedOpcode (opByte o).toNat := by
  unfold ReservedOpcode
  cases o <;> decide

theorem opOfByte_of_reservedOpcode {h : Word} (hres : ReservedOpcode (opcode h)) : opOfByte (opcField h) = none := by
  cases ho : opOfByte (opcField h) with
  | none => rfl
  | some o =>
    rw [opcode_eq_of_opOfByte ho] at hres
    exact absurd hres (opByte_not_reserved o)

theorem step_of_reservedOpcode {s : State} {p : Port} {pk : Packet} (h : nextEvent s = .command p pk)
    (hres : ReservedOpcode (opcode pk.header)) : step s = .next (refusedWith p 4 0x4#32 pk.header (accept p s)) := by
  have hd : decode s.cfg.l p pk = .error .unknownOpcode := by simp only [decode, opOfByte_of_reservedOpcode hres]
  rw [step_of_decode_error h hd, decodeErrorCode, refuse_illegalCommand]

/-- In every state the command only answers `OK`. -/
def HasNoEffect (i : Instr) : Prop := ∀ s, exec i s = .next (answered i.port 0x00000000#32 [] s)

theorem mkResponse_eq_zero {c : Code} {ws : List Word} (h : mkResponse c ws = ⟨0x00000000#32, []⟩) : c = .ok ∧ ws = [] := by
  obtain rfl : ws = [] := congrArg Response.data h
  rw [mkResponse_nil, Response.mk.injEq] at h
  obtain ⟨hcode, -⟩ := h
  refine ⟨?_, rfl⟩
  cases c
  case ok => rfl
  all_goals exact absurd hcode (by decide)

/-- Two answers that agree come from the same response and the same state. -/
theorem respond_eq_answered {p : Port} {c : Code} {ws : List Word} {s u : State} (hout : u.out = s.out)
    (h : respond p c ws u = answered p 0x00000000#32 [] s) : c = .ok ∧ ws = [] ∧ u = s := by
  have hresp : mkResponse c ws = ⟨0x00000000#32, []⟩ := by
    have hlast := congrArg (fun t => (t.out.get p).getLast?) h
    simpa [answered] using hlast
  have hstate : { u with out := s.out } = s := congrArg (fun t => { t with out := s.out }) h
  obtain ⟨hc, hws⟩ := mkResponse_eq_zero hresp
  rw [← hout] at hstate
  exact ⟨hc, hws, hstate⟩

/-- A command has an effect when in some state it answers with another code, with data, or with something written. -/
theorem not_hasNoEffect {i : Instr} {s u : State} {c : Code} {ws : List Word} (hexec : exec i s = .next (respond i.port c ws u))
    (hout : u.out = s.out) (hne : c = .ok → ws = [] → u ≠ s) : ¬HasNoEffect i := by
  intro h
  obtain ⟨hc, hws, hu⟩ := respond_eq_answered hout (Host.Outcome.next.inj (hexec.symm.trans (h s)))
  exact hne hc hws hu

theorem not_hasNoEffect_sync : ¬HasNoEffect .sync :=
  not_hasNoEffect (s := { State.reset with pbyp := ⟨false, false, false⟩ }) rfl rfl fun _ _ hu =>
    nomatch congrArg (fun t => t.abyp.lc) hu

theorem not_hasNoEffect_push (blk : List F) : ¬HasNoEffect (.push blk) :=
  not_hasNoEffect (s := State.reset) rfl rfl fun _ _ hu => nomatch congrArg State.w hu

/-- A published set with one section more is not the one written. -/
theorem not_hasNoEffect_upds (stg : Stage) (secs : List Coefs) : ¬HasNoEffect (.upds stg secs) := by
  cases hfinite : secs.all coefsFinite with
  | true =>
    refine not_hasNoEffect (s := { State.reset with pub := State.reset.pub.set stg ⟨secs.length + 1, []⟩ }) (if_pos hfinite) rfl
      fun _ _ hu => ?_
    have hcount := congrArg (fun t => (t.pub.get stg).nsec) hu
    simp [stageSetOf] at hcount
  | false => exact not_hasNoEffect (s := State.reset) (if_neg (by simp [hfinite])) rfl nofun

theorem not_hasNoEffect_sbyp (stg : Stage) (v : Bool) : ¬HasNoEffect (.sbyp stg v) := by
  refine not_hasNoEffect (s := { State.reset with pbyp := State.reset.pbyp.set stg !v }) rfl rfl fun _ _ hu => ?_
  have hflag := congrArg (fun t => t.pbyp.get stg) hu
  simp at hflag

theorem readView_writeView (vid : View) (x : F) (v : ViewRegs) : readView vid (writeView vid x v) = x := by
  cases vid <;> rfl

/-- View registers that all hold `y`. -/
def constView (y : F) : ViewRegs := ⟨y, y, y, y, y, y, y⟩

theorem readView_constView (vid : View) (y : F) : readView vid (constView y) = y := by
  cases vid <;> rfl

/-- View registers that all hold another value do not hold the one written. -/
theorem not_hasNoEffect_wview (vid : View) (x : F) : ¬HasNoEffect (.wview vid x) := by
  cases hfinite : isFinite x with
  | true =>
    refine not_hasNoEffect (s := { State.reset with view := constView (x + 1#32) }) (if_pos hfinite) rfl fun _ _ hu => ?_
    have hread := congrArg (fun t => readView vid t.view) hu
    simp only [readView_writeView, readView_constView] at hread
    bv_omega
  | false => exact not_hasNoEffect (s := State.reset) (if_neg (by simp [hfinite])) rfl nofun

theorem not_hasNoEffect_clrst : ¬HasNoEffect .clrst :=
  not_hasNoEffect (s := { State.reset with status := 1#32 }) rfl rfl fun _ _ hu => nomatch congrArg State.status hu

/-- Only `NOP` has no effect in every state. -/
theorem HasNoEffect.eq_nop {i : Instr} (h : HasNoEffect i) : ∃ p, i = .nop p := by
  have hreset {c : Code} {ws : List Word} {u : State} (hexec : exec i State.reset = .next (respond i.port c ws u))
      (hout : u.out = State.reset.out) (hne : c = .ok → ws = [] → u ≠ State.reset) : False :=
    not_hasNoEffect hexec hout hne h
  cases i with
  | nop p => exact ⟨p, rfl⟩
  | sync => exact absurd h not_hasNoEffect_sync
  | push blk => exact absurd h (not_hasNoEffect_push blk)
  | upds stg secs => exact absurd h (not_hasNoEffect_upds stg secs)
  | sbyp stg v => exact absurd h (not_hasNoEffect_sbyp stg v)
  | wview vid x => exact absurd h (not_hasNoEffect_wview vid x)
  | clrst => exact absurd h not_hasNoEffect_clrst
  | proc | rfsh | avail | genp | rstat => exact (hreset rfl rfl fun _ => nofun).elim
  | magr | pop | anlz | rdpath => exact (hreset rfl rfl nofun).elim
  | wpar | srate | ntfy => exact (hreset rfl rfl fun _ _ hu => nomatch congrArg State.chg hu).elim

/-- Settles O6: no row has such an opcode, and each command but `NOP` has an effect in some state. -/
theorem reservedOpcodesAreIllegal : Obligations.ReservedOpcodesAreIllegal :=
  ⟨fun _ _ _ => step_of_reservedOpcode, fun _ => HasNoEffect.eq_nop⟩

end Sys2Proof.Machine
end

section
/-!
SUPPORT. The filter datapath by its parts: what `PROC`, `SYNC` and `UPDS` do in every state, the three stages in series against the
relations of the statements, and runs of samples. The statements about them: O31 to O35.
-/

namespace Sys2Proof

@[simp] theorem PerStage.set_set {α : Type} (x : PerStage α) (st : Stage) (a b : α) :
    (x.set st a).set st b = x.set st b := by
  cases st <;> rfl

theorem PerStage.ext_get {α : Type} {x y : PerStage α} (h : ∀ st, x.get st = y.get st) : x = y :=
  congr (congr (congrArg PerStage.mk (h .lc)) (h .pk)) (h .hc)

end Sys2Proof

namespace Sys2Proof.Machine

/-! ### `PROC` (R111) -/

theorem decode_proc (l : Nat) (x : F) : decode l .rt ⟨0x02000000#32, [x]⟩ = .ok (.proc x) := by
  have hop : opOfByte (opcField 0x02000000#32) = some .proc := rfl
  have hmatch : headerMatches .proc 0x02000000#32 = true := rfl
  simp only [decode, hop, hmatch, opClass, portAllowed, if_true, decodeOperands, takeOne]

theorem exec_proc (x : F) (s : State) :
    exec (.proc x) s = .next (answered .rt 0x00010000#32 [(runChain s.act s.abyp s.mem x s.draws).y]
      { s with
        mem := (runChain s.act s.abyp s.mem x s.draws).mem
        draws := (runChain s.act s.abyp s.mem x s.draws).draws }) :=
  congrArg Host.Outcome.next (respond_ok_one _ _ _)

/-- The memories of a stage after a sample are those its stage step leaves, on some input and from some draw. -/
theorem runChain_mem_get (act : PerStage StageSet) (abyp : PerStage Bool) (mem : PerStage (List SecMem)) (x : F) (k : Nat) :
    ∀ st, ∃ v j, (runChain act abyp mem x k).mem.get st = (stageStep (abyp.get st) (act.get st) (mem.get st) v j).mem
  | .lc => ⟨_, _, rfl⟩
  | .pk => ⟨_, _, rfl⟩
  | .hc => ⟨_, _, rfl⟩

/-- The slots from `NSEC` on keep their memories (R113). -/
theorem stageStep_getElem?_of_le (byp : Bool) (g : StageSet) (ms : List SecMem) (v : F) (k : Nat) {i : Nat} (hi : g.nsec ≤ i) :
    (stageStep byp g ms v k).mem[i]? = ms[i]? := by
  cases byp with
  | true => rfl
  | false =>
    have hdrop := congrArg (·[i - g.nsec]?) (runSections_drop g.nsec g.c ms v k)
    simpa [stageStep, List.getElem?_drop, Nat.add_sub_cancel' hi] using hdrop

/-- Settles O34, from what each stage step leaves unwritten. -/
theorem procWritesOnlyEnabledMemories : Obligations.ProcWritesOnlyEnabledMemories := by
  refine ⟨decode_proc, fun s x => ⟨_, _, _, exec_proc x s, fun st => ?_⟩⟩
  obtain ⟨v, k, hmem⟩ := runChain_mem_get s.act s.abyp s.mem x s.draws st
  rw [hmem]
  refine ⟨stageStep_length _ _ _ _ _, fun hbyp => ?_, fun i => stageStep_getElem?_of_le _ _ _ _ _⟩
  rw [hbyp, stageStep_bypassed]

/-! ### The section step in series (R112, R113) -/

theorem secStep_sectionStep (k : Nat) (c : Coefs) (m : SecMem) (v : F) :
    SectionStep c m v (secStep k c m v).1 (secStep k c m v).2 :=
  ⟨k, k + 1, k + 2, k + 3, k + 4, k + 5, k + 6, k + 7, k + 8, rfl, rfl, rfl⟩

theorem runSections_sectionsStep {n : Nat} {cs : List Coefs} {ms : List SecMem} (hcs : n ≤ cs.length) (hms : n ≤ ms.length)
    (v : F) (k : Nat) : SectionsStep (cs.take n) ms v (runSections n cs ms v k).y (runSections n cs ms v k).mem := by
  induction n generalizing cs ms v k with
  | zero => simp [runSections, SectionsStep]
  | succ n ih =>
    cases cs with
    | nil => cases hcs
    | cons c cs =>
      cases ms with
      | nil => cases hms
      | cons m ms =>
        exact ⟨_, secStep_sectionStep k c m v, ih (Nat.le_of_succ_le_succ hcs) (Nat.le_of_succ_le_succ hms) _ _⟩

theorem stageStep_stageRuns {st : Stage} {g : StageSet} {ms : List SecMem} (hg : SetShape st g) (hms : ms.length = slots st)
    (byp : Bool) (v : F) (k : Nat) : StageRuns byp g ms v (stageStep byp g ms v k).y (stageStep byp g ms v k).mem := by
  obtain ⟨hc, -, hn⟩ := hg
  cases byp with
  | true => exact ⟨rfl, rfl⟩
  | false => exact runSections_sectionsStep (hn.trans_eq hc.symm) (hn.trans_eq hms.symm) v k

/-- Settles O33: the three stage steps of the chain, each on the output of the one before. -/
theorem procRunsTheSections : Obligations.ProcRunsTheSections := fun s x hact hmem =>
  ⟨_, _, _, _, _, exec_proc x s, stageStep_stageRuns (hact .lc) (hmem .lc) _ _ _, stageStep_stageRuns (hact .pk) (hmem .pk) _ _ _,
    stageStep_stageRuns (hact .hc) (hmem .hc) _ _ _⟩

/-! ### `SYNC` (R116) -/

/-- What `SYNC` writes: the published bank becomes the active one, and the slots whose enable changes are cleared. -/
def adopt (s : State) : State :=
  { s with
    mem := perStage fun st => adoptMem (s.act.get st).nsec (s.pub.get st).nsec (s.mem.get st)
    act := s.pub
    abyp := s.pbyp }

theorem exec_sync (s : State) : exec .sync s = .next (answered .rt 0x00000000#32 [] (adopt s)) := rfl

theorem adopt_mem_get (s : State) (st : Stage) :
    (adopt s).mem.get st = adoptMem (s.act.get st).nsec (s.pub.get st).nsec (s.mem.get st) := by
  cases st <;> rfl

/-- A stage whose section count does not change keeps its memories, whatever its bypass flag does (R114). -/
theorem adopt_mem_get_of_nsec_eq {s : State} {st : Stage} (h : (s.pub.get st).nsec = (s.act.get st).nsec) :
    (adopt s).mem.get st = s.mem.get st := by
  rw [adopt_mem_get, h, adoptMem_same]

/-- With nothing newly published there is nothing to adopt. -/
theorem adopt_of_adopted {s : State} (hset : s.pub = s.act) (hbyp : s.pbyp = s.abyp) : adopt s = s := by
  have hmem : (adopt s).mem = s.mem := PerStage.ext_get fun st => adopt_mem_get_of_nsec_eq (by rw [hset])
  calc adopt s = { s with mem := s.mem, act := s.pub, abyp := s.pbyp } := by rw [← hmem]; rfl
    _ = s := congrArg₂ (fun act abyp => { s with act := act, abyp := abyp }) hset hbyp

/-- A slot keeps its memory where its enable stays, and is cleared where it changes (R116). -/
theorem adoptMem_slot {old new i : Nat} {ms : List SecMem} {m : SecMem} (h : ms[i]? = some m) :
    ((i < old ↔ i < new) → (adoptMem old new ms)[i]? = some m) ∧
    (¬(i < old ↔ i < new) → (adoptMem old new ms)[i]? = some SecMem.zero) := by
  rw [adoptMem_getElem?, h]
  constructor <;> intro hi <;> simp [hi]

/-- Settles O31, slot by slot. -/
theorem syncAdoptsThePublishedBank : Obligations.SyncAdoptsThePublishedBank := by
  refine ⟨fun l => decodeOfEncode l .sync rfl, fun s => ⟨(adopt s).mem, exec_sync s, fun st => ?_⟩, fun s hset hbyp => ?_⟩
  · rw [adopt_mem_get]
    exact ⟨adoptMem_length _ _ _, fun i old => adoptMem_slot⟩
  · rw [exec_sync, adopt_of_adopted hset hbyp]

/-! ### The same `UPDS` again (R118) -/

/-- What `UPDS` writes: the stage's published set, or the record of its refusal (R131, R133). -/
def updsWrite (st : Stage) (secs : List Coefs) (s : State) : State :=
  if secs.all coefsFinite then { s with pub := s.pub.set st (stageSetOf st secs) }
  else recordRefusal .coefRejected (headerOf (.upds st secs)) s

theorem exec_upds (st : Stage) (secs : List Coefs) (s : State) :
    ∃ c, exec (.upds st secs) s = .next (respond .pr c [] (updsWrite st secs s)) := by
  simp only [exec, execUpds, updsWrite]
  split
  · exact ⟨.ok, rfl⟩
  · exact ⟨.coefRejected, rfl⟩

theorem recordRefusal_recordRefusal (c : Code) (hdr : Word) (s : State) :
    recordRefusal c hdr (recordRefusal c hdr s) = recordRefusal c hdr s := by
  simp only [recordRefusal, BitVec.or_assoc, BitVec.or_self]

theorem updsWrite_updsWrite (st : Stage) (secs : List Coefs) (s : State) :
    updsWrite st secs (updsWrite st secs s) = updsWrite st secs s := by
  unfold updsWrite
  split
  · simp
  · exact recordRefusal_recordRefusal _ _ _

theorem updsWrite_adopt (st : Stage) (secs : List Coefs) (s : State) :
    updsWrite st secs (adopt (updsWrite st secs s)) = adopt (updsWrite st secs s) := by
  have hcomm : ∀ c hdr, recordRefusal c hdr (adopt s) = adopt (recordRefusal c hdr s) := fun _ _ => rfl
  unfold updsWrite
  split
  · simp [adopt]
  · rw [← hcomm, recordRefusal_recordRefusal]

/-- The state without its responses: what O32 compares. -/
def withoutResponses (s : State) : State := { s with out := ⟨[], []⟩ }

@[simp] theorem withoutResponses_respond (p : Port) (c : Code) (ws : List Word) (s : State) :
    withoutResponses (respond p c ws s) = withoutResponses s := rfl

@[simp] theorem withoutResponses_answered (p : Port) (hdr : Word) (ws : List Word) (s : State) :
    withoutResponses (answered p hdr ws s) = withoutResponses s := rfl

@[simp] theorem withoutResponses_adopt (s : State) : withoutResponses (adopt s) = adopt (withoutResponses s) := rfl

@[simp] theorem withoutResponses_updsWrite (st : Stage) (secs : List Coefs) (s : State) :
    withoutResponses (updsWrite st secs s) = updsWrite st secs (withoutResponses s) := by
  unfold updsWrite
  split <;> rfl

theorem eq_of_withoutResponses_eq {s t : State} (h : withoutResponses s = withoutResponses t) : s = { t with out := s.out } :=
  congrArg (fun u : State => { u with out := s.out }) h

/-- From every state that is `p` but for its responses, the commands run to a state that is `q` but for its responses. -/
def RunsUpToResponses (is : List Instr) (p q : State) : Prop :=
  ∀ s, withoutResponses s = p → ∃ t, execAll is s = .next t ∧ withoutResponses t = q

theorem RunsUpToResponses.nil (p : State) : RunsUpToResponses [] p p := fun s hs => ⟨s, rfl, hs⟩

theorem RunsUpToResponses.sync {is : List Instr} {p q : State} (h : RunsUpToResponses is (adopt p) q) :
    RunsUpToResponses (.sync :: is) p q := by
  intro s hs
  rw [execAll_cons_of_exec (exec_sync s)]
  exact h _ (by simp [hs])

theorem RunsUpToResponses.upds {is : List Instr} {st : Stage} {secs : List Coefs} {p q : State}
    (h : RunsUpToResponses is (updsWrite st secs p) q) : RunsUpToResponses (.upds st secs :: is) p q := by
  intro s hs
  obtain ⟨c, hexec⟩ := exec_upds st secs s
  rw [execAll_cons_of_exec hexec]
  exact h _ (by simp [hs])

theorem runsUpToResponses_upds_sync (st : Stage) (secs : List Coefs) (p : State) :
    RunsUpToResponses [.upds st secs, .sync] p (adopt (updsWrite st secs p)) :=
  .upds (.sync (.nil _))

theorem runsUpToResponses_upds_upds_sync (st : Stage) (secs : List Coefs) (p : State) :
    RunsUpToResponses [.upds st secs, .upds st secs, .sync] p (adopt (updsWrite st secs p)) := by
  have h := runsUpToResponses_upds_sync st secs (updsWrite st secs p)
  rw [updsWrite_updsWrite] at h
  exact .upds h

theorem runsUpToResponses_upds_sync_upds_sync (st : Stage) (secs : List Coefs) (p : State) :
    RunsUpToResponses [.upds st secs, .sync, .upds st secs, .sync] p (adopt (updsWrite st secs p)) := by
  have h := runsUpToResponses_upds_sync st secs (adopt (updsWrite st secs p))
  rw [updsWrite_adopt, adopt_of_adopted (s := adopt _) rfl rfl] at h
  exact .upds (.sync h)

/-- What samples write and answer does not depend on the responses before them. -/
theorem execAll_procs (xs : List F) (s : State) : ∃ (m : PerStage (List SecMem)) (d : Nat) (ws : List Response),
    ∀ o : PerPort (List Response), execAll (xs.map .proc) { s with out := o } =
      .next { s with mem := m, draws := d, out := ⟨o.rt ++ ws, o.pr⟩ } := by
  induction xs generalizing s with
  | nil => exact ⟨s.mem, s.draws, [], fun o => by simp [execAll]⟩
  | cons x xs ih =>
    obtain ⟨m, d, ws, hall⟩ := ih
      { s with
        mem := (runChain s.act s.abyp s.mem x s.draws).mem
        draws := (runChain s.act s.abyp s.mem x s.draws).draws }
    refine ⟨m, d, ⟨0x00010000#32, [(runChain s.act s.abyp s.mem x s.draws).y]⟩ :: ws, fun o => ?_⟩
    rw [List.map_cons, execAll_cons_of_exec (exec_proc x _)]
    refine (hall _).trans ?_
    simp [PerPort.get, PerPort.set]

/-- Settles O32: the three sequences write the same, and what samples answer does not depend on the responses before them. -/
theorem repeatedUpdateIsIdempotent : Obligations.RepeatedUpdateIsIdempotent := by
  intro s st secs xs
  obtain ⟨a, ha, hqa⟩ := runsUpToResponses_upds_sync st secs _ s rfl
  obtain ⟨b, hb, hqb⟩ := runsUpToResponses_upds_upds_sync st secs _ s rfl
  obtain ⟨c, hc, hqc⟩ := runsUpToResponses_upds_sync_upds_sync st secs _ s rfl
  have hab := eq_of_withoutResponses_eq (hqb.trans hqa.symm)
  have hac := eq_of_withoutResponses_eq (hqc.trans hqa.symm)
  obtain ⟨m, d, ws, hprocs⟩ := execAll_procs xs a
  have hpb := hprocs b.out
  have hpc := hprocs c.out
  rw [← hab] at hpb
  rw [← hac] at hpc
  exact ⟨a, b, c, _, _, _, ws, ha, hb, hc, hab, hac, hprocs a.out, rfl, hpb, rfl, hpc, rfl⟩

/-! ### A bypassed stage (R114) -/

/-- The chain with another set and other memories for a bypassed stage: it reads neither and holds the memories. -/
theorem runChain_set_of_bypassed {abyp : PerStage Bool} {st : Stage} (h : abyp.get st = true) (act : PerStage StageSet)
    (mem : PerStage (List SecMem)) (g : StageSet) (ms : List SecMem) (x : F) (k : Nat) :
    runChain (act.set st g) abyp (mem.set st ms) x k =
      { runChain act abyp mem x k with mem := (runChain act abyp mem x k).mem.set st ms } := by
  cases st <;> simp only [PerStage.get] at h <;> simp [runChain, PerStage.set, h]

theorem runChain_mem_get_of_bypassed {abyp : PerStage Bool} {st : Stage} (h : abyp.get st = true) (act : PerStage StageSet)
    (mem : PerStage (List SecMem)) (x : F) (k : Nat) : (runChain act abyp mem x k).mem.get st = mem.get st := by
  obtain ⟨v, j, hmem⟩ := runChain_mem_get act abyp mem x k st
  rw [hmem, h, stageStep_bypassed]

/-- The state with another active set and other memories for one stage. -/
def withStage (st : Stage) (g : StageSet) (ms : List SecMem) (s : State) : State :=
  { s with act := s.act.set st g, mem := s.mem.set st ms }

theorem exec_proc_withStage {s : State} {st : Stage} (h : s.abyp.get st = true) (g : StageSet) (ms : List SecMem) (x : F) :
    ∃ t, exec (.proc x) s = .next t ∧ exec (.proc x) (withStage st g ms s) = .next (withStage st g ms t) ∧
      t.abyp = s.abyp ∧ t.act = s.act ∧ t.mem.get st = s.mem.get st := by
  refine ⟨_, exec_proc x s, ?_, rfl, rfl, runChain_mem_get_of_bypassed h _ _ _ _⟩
  rw [exec_proc]
  simp only [withStage, runChain_set_of_bypassed h]
  rfl

/-- Along any samples, a bypassed stage's set and memories are held and make no difference to the rest. -/
theorem execAll_procs_withStage (xs : List F) {s : State} {st : Stage} (h : s.abyp.get st = true) (g : StageSet)
    (ms : List SecMem) : ∃ t, execAll (xs.map .proc) s = .next t ∧
      execAll (xs.map .proc) (withStage st g ms s) = .next (withStage st g ms t) ∧
      t.act = s.act ∧ t.mem.get st = s.mem.get st := by
  induction xs generalizing s with
  | nil => exact ⟨s, rfl, rfl, rfl, rfl⟩
  | cons x xs ih =>
    obtain ⟨t, hexec, hexec', habyp, hact, hmem⟩ := exec_proc_withStage h g ms x
    obtain ⟨u, hall, hall', huact, humem⟩ := ih (s := t) (by rw [habyp, h])
    rw [List.map_cons, execAll_cons_of_exec hexec, execAll_cons_of_exec hexec']
    exact ⟨u, hall, hall', huact.trans hact, humem.trans hmem⟩

theorem stageRuns_bypassed {byp : Bool} {g : StageSet} {ms ms' : List SecMem} {v y : F} (hbyp : byp = true)
    (h : StageRuns byp g ms v y ms') : y = v ∧ ms' = ms := by
  rwa [StageRuns, if_pos hbyp] at h

theorem runChain_of_all_bypassed (act : PerStage StageSet) (mem : PerStage (List SecMem)) (x : F) (k : Nat) :
    runChain act ⟨true, true, true⟩ mem x k = ⟨x, mem, k⟩ := rfl

theorem exec_proc_of_all_bypassed {s : State} (h : s.abyp = ⟨true, true, true⟩) (x : F) :
    exec (.proc x) s = .next (answered .rt 0x00010000#32 [x] s) := by
  rw [exec_proc, h, runChain_of_all_bypassed, ← h]

/-- Settles O35: the runs with and without the stage's set and memories, the chain with one link a wire, `SYNC` by section counts
alone, and the chain of three wires. -/
theorem bypassedStageIsAbsent : Obligations.BypassedStageIsAbsent := by
  refine ⟨fun xs s st g ms h => execAll_procs_withStage xs h g ms, fun s x hact hmem => ?_,
    fun s st h => ⟨_, exec_sync s, adopt_mem_get_of_nsec_eq h⟩, fun s x h => exec_proc_of_all_bypassed h x⟩
  obtain ⟨u, v, y, m, d, hexec, hlc, hpk, hhc⟩ := procRunsTheSections s x hact hmem
  refine ⟨y, m, d, hexec, fun hbyp => ?_, fun hbyp => ?_, fun hbyp => ?_⟩
  · obtain ⟨rfl, hm⟩ := stageRuns_bypassed hbyp hlc
    exact ⟨hm, v, hpk, hhc⟩
  · obtain ⟨rfl, hm⟩ := stageRuns_bypassed hbyp hpk
    exact ⟨hm, v, hlc, hhc⟩
  · obtain ⟨rfl, hm⟩ := stageRuns_bypassed hbyp hhc
    exact ⟨hm, u, hlc, hpk⟩

end Sys2Proof.Machine
end

section
/-!
SUPPORT. How a NaN spreads through a section, the enabled sections of a stage and the three stages: O36.
-/

namespace Sys2Proof.Machine

/-! ### One operation -/

theorem isNaN_fneg (a : F) : isNaN (fneg a) = isNaN a := by
  have hmag : fMag (fneg a) = fMag a := by
    simp only [fMag, fneg, BitVec.toNat_xor, Nat.xor_mod_two_pow]
    exact Nat.xor_zero _
  rw [isNaN, hmag, isNaN]

theorem isNaN_fmul_right (k : Nat) (a : F) {b : F} (h : isNaN b = true) : isNaN (fmul k a b) = true :=
  (isNaN_fmul_iff k a b).2 (.inr (.inl h))

theorem isNaN_fadd_left (k : Nat) {a : F} (b : F) (h : isNaN a = true) : isNaN (fadd k a b) = true :=
  (isNaN_fadd_iff k a b).2 (.inl h)

theorem isNaN_fadd_right (k : Nat) (a : F) {b : F} (h : isNaN b = true) : isNaN (fadd k a b) = true :=
  (isNaN_fadd_iff k a b).2 (.inr (.inl h))

theorem isNaN_fsub_right (k : Nat) (a : F) {b : F} (h : isNaN b = true) : isNaN (fsub k a b) = true :=
  isNaN_fadd_right k a (by rw [isNaN_fneg, h])

/-! ### One section (R112) -/

/-- Both words of a section memory are NaN. -/
def BothNaN (m : SecMem) : Prop := isNaN m.s1 = true ∧ isNaN m.s2 = true

/-- A NaN input, or a NaN in the first memory word, reaches the output. -/
theorem SectionStep.isNaN_output {c : Coefs} {m m' : SecMem} {v y : F} (h : SectionStep c m v y m')
    (hnan : isNaN v = true ∨ isNaN m.s1 = true) : isNaN y = true := by
  obtain ⟨k0, k1, -, -, -, -, -, -, -, rfl, -, -⟩ := h
  rcases hnan with hv | hs1
  · exact isNaN_fadd_left _ _ (isNaN_fmul_right _ _ hv)
  · exact isNaN_fadd_right _ _ hs1

/-- A NaN output is fed back into both memory words. -/
theorem SectionStep.bothNaN {c : Coefs} {m m' : SecMem} {v y : F} (h : SectionStep c m v y m') (hy : isNaN y = true) :
    BothNaN m' := by
  obtain ⟨-, -, k2, k3, k4, k5, k6, k7, k8, -, hs1, hs2⟩ := h
  rw [BothNaN, hs1, hs2]
  exact ⟨isNaN_fadd_left _ _ (isNaN_fsub_right _ _ (isNaN_fmul_right _ _ hy)), isNaN_fsub_right _ _ (isNaN_fmul_right _ _ hy)⟩

/-! ### The enabled sections of a stage (R113) -/

theorem SectionsStep.isNaN_output {cs : List Coefs} {ms ms' : List SecMem} {v y : F} (h : SectionsStep cs ms v y ms')
    (hv : isNaN v = true) : isNaN y = true := by
  induction cs generalizing ms ms' v with
  | nil =>
    obtain ⟨rfl, -⟩ := h
    exact hv
  | cons c cs ih =>
    match ms, ms', h with
    | m :: ms, m' :: ms', ⟨u, hstep, hrest⟩ => exact ih hrest (hstep.isNaN_output (.inl hv))

theorem SectionsStep.bothNaN {cs : List Coefs} {ms ms' : List SecMem} {v y : F} (h : SectionsStep cs ms v y ms')
    (hv : isNaN v = true) {i : Nat} {e : SecMem} (hi : i < cs.length) (he : ms'[i]? = some e) : BothNaN e := by
  induction cs generalizing ms ms' v i with
  | nil => cases hi
  | cons c cs ih =>
    match ms, ms', h with
    | m :: ms, m' :: ms', ⟨u, hstep, hrest⟩ =>
      have hu := hstep.isNaN_output (.inl hv)
      cases i with
      | zero =>
        cases he
        exact hstep.bothNaN hu
      | succ i => exact ih hrest hu (Nat.lt_of_succ_lt_succ hi) he

/-- A NaN in the first word of one section's memory stays there, and reaches the output through the sections after it. -/
theorem SectionsStep.isNaN_of_memory {cs : List Coefs} {ms ms' : List SecMem} {v y : F} (h : SectionsStep cs ms v y ms')
    {i : Nat} {old : SecMem} (hi : i < cs.length) (hold : ms[i]? = some old) (hnan : isNaN old.s1 = true) :
    isNaN y = true ∧ ∃ e, ms'[i]? = some e ∧ BothNaN e := by
  induction cs generalizing ms ms' v i with
  | nil => cases hi
  | cons c cs ih =>
    match ms, ms', h with
    | m :: ms, m' :: ms', ⟨u, hstep, hrest⟩ =>
      cases i with
      | zero =>
        cases hold
        have hu := hstep.isNaN_output (.inr hnan)
        exact ⟨hrest.isNaN_output hu, m', rfl, hstep.bothNaN hu⟩
      | succ i => exact ih hrest (Nat.lt_of_succ_lt_succ hi) hold

/-! ### A stage and the chain -/

theorem SetShape.length_enabled {st : Stage} {g : StageSet} (h : SetShape st g) : (g.c.take g.nsec).length = g.nsec := by
  obtain ⟨hc, -, hn⟩ := h
  rw [List.length_take, hc, min_eq_left hn]

theorem StageRuns.isNaN_output {byp : Bool} {g : StageSet} {ms ms' : List SecMem} {v y : F} (h : StageRuns byp g ms v y ms')
    (hv : isNaN v = true) : isNaN y = true := by
  cases byp with
  | true =>
    obtain ⟨rfl, -⟩ := h
    exact hv
  | false => exact SectionsStep.isNaN_output h hv

theorem StageRuns.bothNaN {byp : Bool} {st : Stage} {g : StageSet} {ms ms' : List SecMem} {v y : F}
    (h : StageRuns byp g ms v y ms') (hg : SetShape st g) (hv : isNaN v = true) (hbyp : byp = false) (i : Nat) (e : SecMem)
    (hi : i < g.nsec) (he : ms'[i]? = some e) : BothNaN e := by
  subst hbyp
  exact SectionsStep.bothNaN h hv (hi.trans_eq hg.length_enabled.symm) he

theorem StageRuns.isNaN_of_memory {byp : Bool} {st : Stage} {g : StageSet} {ms ms' : List SecMem} {v y : F}
    (h : StageRuns byp g ms v y ms') (hg : SetShape st g) (hbyp : byp = false) {i : Nat} {old : SecMem} (hi : i < g.nsec)
    (hold : ms[i]? = some old) (hnan : isNaN old.s1 = true) : isNaN y = true ∧ ∃ e, ms'[i]? = some e ∧ BothNaN e := by
  subst hbyp
  exact SectionsStep.isNaN_of_memory h (hi.trans_eq hg.length_enabled.symm) hold hnan

/-- Settles O36, from the three stages that `PROC` runs in series: a NaN at any point of the chain reaches its end. -/
theorem nanSpreadsThroughTheFilter : Obligations.NaNSpreadsThroughTheFilter := by
  intro s x hact hmem
  obtain ⟨u, v, y, m, d, hexec, hlc, hpk, hhc⟩ := procRunsTheSections s x hact hmem
  refine ⟨y, m, d, hexec, fun hx => ?_, fun st i old hbyp hi hold hnan => ?_⟩
  · have hu := hlc.isNaN_output hx
    have hv := hpk.isNaN_output hu
    refine ⟨hhc.isNaN_output hv, fun st => ?_⟩
    cases st with
    | lc => exact hlc.bothNaN (hact .lc) hx
    | pk => exact hpk.bothNaN (hact .pk) hu
    | hc => exact hhc.bothNaN (hact .hc) hv
  · cases st with
    | lc =>
      obtain ⟨hu, hstays⟩ := hlc.isNaN_of_memory (hact .lc) hbyp hi hold hnan
      exact ⟨hhc.isNaN_output (hpk.isNaN_output hu), hstays⟩
    | pk =>
      obtain ⟨hv, hstays⟩ := hpk.isNaN_of_memory (hact .pk) hbyp hi hold hnan
      exact ⟨hhc.isNaN_output hv, hstays⟩
    | hc => exact hhc.isNaN_of_memory (hact .hc) hbyp hi hold hnan

end Sys2Proof.Machine
end

section
/-!
SUPPORT. Coefficient and bypass control: `SBYP` and `UPDS` by their headers, what each writes, and when a set of sections is finite:
O28 to O30.
-/

namespace Sys2Proof

theorem PerStage.get_set_of_ne {α : Type} (x : PerStage α) {st other : Stage} (a : α) (h : other ≠ st) :
    (x.set st a).get other = x.get other := by
  rw [PerStage.get_set, if_neg h]

end Sys2Proof

namespace Sys2Proof.Machine

/-! ### The headers as numbers (R81) -/

theorem packHeader_eq_ofNat (o : BitVec 8) (s n : BitVec 2) (v : Bool) (m : BitVec 16) :
    packHeader o s n v m =
      BitVec.ofNat 32 (o.toNat * 2 ^ 24 + s.toNat * 2 ^ 22 + n.toNat * 2 ^ 20 + v.toNat * 2 ^ 19 + m.toNat) := by
  rw [← packHeader_toNat, BitVec.ofNat_toNat, BitVec.setWidth_eq]

theorem toNat_ofNat_stageNumber (st : Stage) : (BitVec.ofNat 2 (stageNumber st)).toNat = stageNumber st := by
  cases st <;> rfl

theorem slots_le_four (st : Stage) : slots st ≤ 4 := by
  cases st <;> decide

theorem headerOf_sbyp (st : Stage) (v : Bool) :
    headerOf (.sbyp st v) = BitVec.ofNat 32 (0x11000000 + stageNumber st * 2 ^ 22 + v.toNat * 2 ^ 19) := by
  have hopc : (opByte .sbyp).toNat = 0x11 := rfl
  rw [headerOf, packHeader_eq_ofNat, toNat_ofNat_stageNumber, hopc]
  simp

theorem headerOf_upds (st : Stage) {secs : List Coefs} (hslots : secs.length ≤ slots st) :
    headerOf (.upds st secs) =
      BitVec.ofNat 32 (0x10000000 + stageNumber st * 2 ^ 22 + (secs.length - 1) * 2 ^ 20) := by
  have hcount : secs.length - 1 < 2 ^ 2 := by have := slots_le_four st; omega
  have hopc : (opByte .upds).toNat = 0x10 := rfl
  rw [headerOf, packHeader_eq_ofNat, toNat_ofNat_stageNumber, BitVec.toNat_ofNat, Nat.mod_eq_of_lt hcount, hopc]
  simp

/-! ### `SBYP` (R137) -/

theorem decode_sbyp (l : Nat) (st : Stage) (v : Bool) :
    decode l .pr ⟨BitVec.ofNat 32 (0x11000000 + stageNumber st * 2 ^ 22 + v.toNat * 2 ^ 19), []⟩ = .ok (.sbyp st v) :=
  headerOf_sbyp st v ▸ decodeOfEncode l (.sbyp st v) rfl

theorem exec_sbyp (st : Stage) (v : Bool) (s : State) :
    exec (.sbyp st v) s = .next (answered .pr 0x00000000#32 [] { s with pbyp := s.pbyp.set st v }) := rfl

theorem step_sbyp_on_rt {s : State} {pk : Packet} (h : nextEvent s = .command .rt pk) (hop : opcode pk.header = 0x11) :
    step s = .next (refusedWith .rt 5 0x8#32 pk.header (accept .rt s)) := by
  obtain ⟨hrefused, -⟩ := wrongPortIsRefused
  refine hrefused s .rt pk h (.inr ⟨rfl, ?_⟩)
  rw [hop]
  decide

/-- Each kind of bad packet is one that the general statements on reserved operands, unused fields and lengths refuse. -/
theorem step_illegal_sbyp {s : State} {pk : Packet} (h : nextEvent s = .command .pr pk) (hop : opcode pk.header = 0x11)
    (hbad : pk.header.toNat / 2 ^ 22 % 4 = 3 ∨ pk.header.toNat / 2 ^ 20 % 4 ≠ 0 ∨ pk.header.toNat % 2 ^ 19 ≠ 0 ∨
      pk.payload ≠ []) :
    step s = .next (refusedWith .pr 4 0x4#32 pk.header (accept .pr s)) := by
  have hport : Issuable (opcode pk.header) .pr := by
    rw [hop]
    exact .inr (.inr ⟨rfl, by decide⟩)
  rcases hbad with hstg | hnsm1 | hlow | hpayload
  · exact step_of_reservedOperand h hport (.inr (.inl ⟨hop, hstg⟩))
  · exact unusedFieldsMustBeZero s .pr pk h hport (.inr (.inl ⟨hop, .inl hnsm1⟩))
  · exact unusedFieldsMustBeZero s .pr pk h hport (.inr (.inl ⟨hop, .inr hlow⟩))
  · have himplied : impliedLength s.cfg.l pk.header = 0 := by simp [impliedLength, hop]
    obtain ⟨hrefused, -⟩ := wrongPayloadLengthIsIllegal
    refine hrefused s .pr pk h hport ?_
    rwa [himplied, ne_eq, List.length_eq_zero_iff]

/-- Settles O28: the packets by their header, the one write, and a refusal for each kind of bad packet. -/
theorem sbypWritesOneFlag : Obligations.SbypWritesOneFlag :=
  ⟨fun l v => ⟨decode_sbyp l .lc v, decode_sbyp l .pk v, decode_sbyp l .hc v⟩,
    fun st v s => ⟨s.pbyp.set st v, exec_sbyp st v s, s.pbyp.get_set_same st v, fun _ => s.pbyp.get_set_of_ne v⟩,
    fun _ _ => step_sbyp_on_rt, fun _ _ => step_illegal_sbyp⟩

/-! ### The slots of a set made from its sections (R132) -/

theorem stageSetOf_getElem?_of_lt (st : Stage) {secs : List Coefs} {i : Nat} (hi : i < secs.length) :
    (stageSetOf st secs).c[i]? = secs[i]? :=
  List.getElem?_append_left hi

theorem stageSetOf_getElem?_of_le {st : Stage} {secs : List Coefs} {i : Nat} (hle : secs.length ≤ i) (hi : i < slots st) :
    (stageSetOf st secs).c[i]? = some Coefs.ident := by
  rw [stageSetOf, List.getElem?_append_right hle, List.getElem?_replicate_of_lt (by omega)]

/-! ### Finite sections (R133) -/

theorem coefsFinite_iff (c : Coefs) : coefsFinite c = true ↔
    isFinite c.b0 = true ∧ isFinite c.b1 = true ∧ isFinite c.b2 = true ∧ isFinite c.a1 = true ∧ isFinite c.a2 = true := by
  simp only [coefsFinite, Bool.and_eq_true, and_assoc]

theorem coefsFinite_iff_sectionWords (c : Coefs) : coefsFinite c = true ↔ ∀ w ∈ sectionWords c, isFinite w = true := by
  simp [coefsFinite_iff, sectionWords]

/-- The test of `UPDS` is one on the words of its payload. -/
theorem all_coefsFinite_iff (secs : List Coefs) :
    secs.all coefsFinite = true ↔ ∀ w ∈ sectionsWords secs, isFinite w = true := by
  induction secs with
  | nil => simp [sectionsWords]
  | cons c cs ih =>
    rw [List.all_cons, Bool.and_eq_true, ih, coefsFinite_iff_sectionWords, sectionsWords, List.forall_mem_append]

theorem isFinite_eq_false_of_isNaN_or_isInf {w : F} (h : isNaN w = true ∨ isInf w = true) : isFinite w = false := by
  rw [Bool.eq_false_iff]
  intro hfinite
  rcases h with hnan | hinf
  · exact Bool.eq_false_iff.1 (isNaN_of_isFinite hfinite) hnan
  · exact Bool.eq_false_iff.1 (isInf_of_isFinite hfinite) hinf

/-! ### `UPDS` (R131, R133) -/

theorem exec_upds_of_finite {st : Stage} {secs : List Coefs} (h : secs.all coefsFinite = true) (s : State) :
    exec (.upds st secs) s =
      .next (answered .pr 0x00000000#32 [] { s with pub := s.pub.set st (stageSetOf st secs) }) :=
  if_pos h

theorem exec_upds_of_nonFinite {st : Stage} {secs : List Coefs} (h : ¬secs.all coefsFinite = true) (s : State) :
    exec (.upds st secs) s = .next (refusedWith .pr 3 0x2#32 (headerOf (.upds st secs)) s) :=
  if_neg h

/-- Settles O29: the published set is the one made from the sections. -/
theorem updsReplacesTheStageSet : Obligations.UpdsReplacesTheStageSet := by
  intro st secs s hpos hslots hfinite
  have hall : ∀ c ∈ secs, coefsFinite c = true := fun c hc => (coefsFinite_iff c).2 (hfinite c hc)
  obtain ⟨hlength, -⟩ := setOk_stageSetOf hpos hslots hall
  refine ⟨headerOf_upds st hslots, s.pub.set st (stageSetOf st secs), exec_upds_of_finite (List.all_eq_true.2 hall) s, ?_⟩
  rw [PerStage.get_set_same]
  exact ⟨rfl, hlength, fun _ => stageSetOf_getElem?_of_lt st, fun _ => stageSetOf_getElem?_of_le,
    fun _ => s.pub.get_set_of_ne _⟩

/-- Settles O30: the packet is its command's encoding, so the bad word is a coefficient of its sections and the header recorded is
the packet's. -/
theorem updsRejectsNonFiniteSets : Obligations.UpdsRejectsNonFiniteSets := by
  intro s pk st secs h hd hbad
  obtain rfl : encode (.upds st secs) = pk := encode_of_decode hd
  obtain ⟨w, hw, hclass⟩ := hbad
  have hnonFinite : ¬secs.all coefsFinite = true := fun hall =>
    Bool.eq_false_iff.1 (isFinite_eq_false_of_isNaN_or_isInf hclass) ((all_coefsFinite_iff secs).1 hall w hw)
  rw [step_of_decode_ok h hd, exec_upds_of_nonFinite hnonFinite]
  rfl

end Sys2Proof.Machine
end

section
/-!
SUPPORT. Parameters and the coalesced refresh: what the edits write, the parameter bounds of the statements against the
factory's own test, and the publication of a refresh by stage: O17 to O21 and O23.
-/

namespace Sys2Proof.Machine

/-! ### The edits (R151, R154, R156) -/

theorem isBool_iff_seven_le (pid : Param) : pid.isBool = true ↔ 7 ≤ paramId pid := by
  have := paramId_lt pid
  rw [isBool_iff]
  omega

theorem headerOf_wpar (p : Port) (pid : Param) (w : Word) :
    headerOf (.wpar p pid w) = BitVec.ofNat 32 (0x12000000 + paramId pid) := by
  cases pid <;> rfl

/-- A boolean is written 0 or 1, any other parameter any word (R93). -/
theorem wf_wpar {l : Nat} {p : Port} {pid : Param} {w : Word} (hbool : 7 ≤ paramId pid → w = 0x0#32 ∨ w = 0x1#32) :
    (Instr.wpar p pid w).WF l := by
  rw [← isBool_iff_seven_le] at hbool
  cases h : pid.isBool
  · simp [Instr.WF, Instr.wellFormed, h]
  · obtain rfl | rfl := hbool h <;> simp [Instr.WF, Instr.wellFormed]

theorem decode_wpar (l : Nat) (p : Port) {pid : Param} {w : Word}
    (hbool : 7 ≤ paramId pid → w = 0x0#32 ∨ w = 0x1#32) :
    decode l p ⟨BitVec.ofNat 32 (0x12000000 + paramId pid), [w]⟩ = .ok (.wpar p pid w) :=
  headerOf_wpar p pid w ▸ decodeOfEncode l (.wpar p pid w) (wf_wpar hbool)

theorem readParam_writeParam_same {pid : Param} {w : Word} (q : Snapshot)
    (hbool : 7 ≤ paramId pid → w = 0x0#32 ∨ w = 0x1#32) : readParam pid (writeParam pid w q) = w := by
  cases pid
  case lcb | pkb | hcb | aen => obtain rfl | rfl := hbool (by decide) <;> rfl
  all_goals rfl

theorem readParam_writeParam_of_ne {pid other : Param} (h : other ≠ pid) (w : Word) (q : Snapshot) :
    readParam other (writeParam pid w q) = readParam other q := by
  cases pid <;> cases other <;> first | rfl | exact absurd rfl h

/-- The opcode of `WPAR` is one that either port may issue (R261). -/
theorem issuable_of_wpar {h : Word} (hop : opcode h = 0x12) (p : Port) : Issuable (opcode h) p := by
  rw [hop]
  exact .inl (by decide)

theorem step_illegal_wpar {s : State} {p : Port} {pk : Packet} (h : nextEvent s = .command p pk)
    (hop : opcode pk.header = 0x12)
    (hbad : 10 < pk.header.toNat % 2 ^ 16 ∨
      (7 ≤ pk.header.toNat % 2 ^ 16 ∧ ∃ w : Word, pk.payload = [w] ∧ w ≠ 0x0#32 ∧ w ≠ 0x1#32)) :
    step s = .next (refusedWith p 4 0x4#32 pk.header (accept p s)) := by
  refine step_of_reservedOperand h (issuable_of_wpar hop p) ?_
  by_cases hpid : 10 < pk.header.toNat % 2 ^ 16
  · exact .inr (.inr (.inl ⟨hop, hpid⟩))
  · obtain ⟨hlow, w, hw, hzero, hone⟩ := hbad.resolve_left hpid
    exact .inr (.inr (.inr (.inr ⟨hop, hlow, not_lt.1 hpid, w, hw, by bv_omega⟩)))

/-- Settles O17, register by register; a packet that R151 calls illegal has a reserved operand. -/
theorem wparWritesOneRegister : Obligations.WparWritesOneRegister :=
  ⟨fun pid => by cases pid <;> rfl, fun l p _ _ => decode_wpar l p,
    fun _ pid w s hbool => ⟨writeParam pid w s.param, rfl, readParam_writeParam_same s.param hbool,
      fun _ h => readParam_writeParam_of_ne h w s.param⟩,
    fun _ _ _ => step_illegal_wpar⟩

theorem headerOf_srate (p : Port) (fs : F) : headerOf (.srate p fs) = 0x13000000#32 := by
  simp only [headerOf, opOf]
  rfl

theorem headerOf_ntfy (p : Port) : headerOf (.ntfy p) = 0x14000000#32 := by
  simp only [headerOf, opOf]
  rfl

/-- Settles O18: the packets are those of the commands, and each has one outcome in every state. -/
theorem srateAndNtfySetChanged : Obligations.SrateAndNtfySetChanged :=
  ⟨fun l p fs => ⟨headerOf_srate p fs ▸ decodeOfEncode l (.srate p fs) rfl,
    headerOf_ntfy p ▸ decodeOfEncode l (.ntfy p) rfl⟩,
    fun _ _ _ => rfl, fun _ _ => rfl⟩

/-! ### The test of a refresh (R160, R162) -/

/-- Settles O19: the refresh looks at `CHG` before the rate and the slopes. -/
theorem refreshWithoutEditDoesNothing : Obligations.RefreshWithoutEditDoesNothing :=
  ⟨fun l => decodeOfEncode l .rfsh rfl, fun _ => exec_rfsh_of_unchanged⟩

theorem slopeOutOfRange_eq_false_iff (k : Word) : slopeOutOfRange k = false ↔ k.toNat ≤ 3 := by
  simp [slopeOutOfRange]

theorem refreshConfigured_iff (s : State) :
    refreshConfigured s = true ↔ RateValid s.fs ∧ s.param.lcs.toNat ≤ 3 ∧ s.param.hcs.toNat ≤ 3 := by
  simp only [refreshConfigured, Bool.and_eq_true, Bool.not_eq_true', slopeOutOfRange_eq_false_iff, validRate_iff, and_assoc]

/-- Settles O20: the refused refresh leaves `CHG` clear, so the next one does nothing, until an edit sets it. -/
theorem refreshRefusesBadConfiguration : Obligations.RefreshRefusesBadConfiguration := by
  intro s hchg hbad
  have hconf : refreshConfigured s = false := by
    rw [Bool.eq_false_iff, ne_eq, refreshConfigured_iff]
    rintro ⟨hrate, hlc, hhc⟩
    rcases hbad with h | h | h
    · exact h hrate
    · exact absurd hlc (not_le.2 h)
    · exact absurd hhc (not_le.2 h)
  exact ⟨_, exec_rfsh_of_misconfigured hchg hconf, rfl, exec_rfsh_of_unchanged rfl, fun _ _ => ⟨_, rfl, rfl⟩,
    fun _ _ => ⟨⟨_, rfl, rfl⟩, ⟨_, rfl, rfl⟩⟩⟩

/-! ### The parameter bounds (R27, R175) -/

/-- A larger magnitude has a larger value, on either side of zero. -/
theorem signed_le_signed_iff {f : Nat → Nat} (hf : StrictMono f) (hzero : f 0 = 0) (n n' : Bool) (u u' : Nat) :
    signed n (f u) ≤ signed n' (f u') ↔ signed n u ≤ signed n' u' := by
  have hle : f u ≤ f u' ↔ u ≤ u' := hf.le_iff_le
  have hge : f u' ≤ f u ↔ u' ≤ u := hf.le_iff_le
  have hu : f u = 0 ↔ u = 0 := hf.injective.eq_iff' hzero
  have hu' : f u' = 0 ↔ u' = 0 := hf.injective.eq_iff' hzero
  cases n <;> cases n' <;> simp only [signed, Bool.false_eq_true, if_true, if_false] <;> omega

/-- The order of bit patterns is the order of their values. -/
theorem fOrd_le_fOrd_iff (a b : F) : fOrd a ≤ fOrd b ↔ fInt a ≤ fInt b :=
  (signed_le_signed_iff magUnits_strictMono magUnits_zero (fSign a) (fSign b) (fMag a) (fMag b)).symm

theorem fLe_iff {a b : F} (ha : isFinite a = true) (hb : isFinite b = true) : fLe a b = true ↔ fInt a ≤ fInt b := by
  simp [fLe, isNaN_of_isFinite ha, isNaN_of_isFinite hb, fOrd_le_fOrd_iff]

theorem fLt_iff {a b : F} (ha : isFinite a = true) (hb : isFinite b = true) : fLt a b = true ↔ fInt a < fInt b := by
  rw [← not_le, ← fOrd_le_fOrd_iff, not_le]
  simp [fLt, isNaN_of_isFinite ha, isNaN_of_isFinite hb]

/-- Two finite patterns bound a finite value as their values do. -/
theorem within_of_fInt {lo x hi : F} (hlo : isFinite lo = true) (hhi : isFinite hi = true) (hx : isFinite x = true)
    (h1 : fInt lo ≤ fInt x) (h2 : fInt x ≤ fInt hi) : within lo x hi = true := by
  rw [within, Bool.and_eq_true]
  exact ⟨(fLe_iff hlo hx).2 h1, (fLe_iff hx hhi).2 h2⟩

theorem within_of_valueWithin {lo x hi : F} {m n : Int} (hlo : isFinite lo = true) (hhi : isFinite hi = true)
    (hm : fInt lo = m * 2 ^ 149) (hn : fInt hi = n * 2 ^ 149) (h : ValueWithin m n x) : within lo x hi = true := by
  obtain ⟨hx, h1, h2⟩ := h
  exact within_of_fInt hlo hhi hx (hm ▸ h1) (hn ▸ h2)

theorem within_frequency {x : F} (h : ValueWithin 20 20000 x) : within 0x41A00000#32 x 0x469C4000#32 = true :=
  within_of_valueWithin (by decide) (by decide) rfl rfl h

/-- The pattern before `0x3DCCCCCD` is below 0.1, so no value of at least 0.1 is left out by starting there. -/
theorem within_quality {x : F} (hx : isFinite x = true) (h1 : 2 ^ 149 ≤ 10 * fInt x) (h2 : fInt x ≤ 10 * 2 ^ 149) :
    within 0x3DCCCCCD#32 x 0x41200000#32 = true := by
  have hbelow : fInt 0x3DCCCCCC#32 < fInt x := by
    have : 10 * fInt 0x3DCCCCCC#32 < 2 ^ 149 := by decide
    omega
  have hord : fOrd 0x3DCCCCCC#32 < fOrd x := by rwa [← not_le, fOrd_le_fOrd_iff, not_le]
  have hsucc : fOrd 0x3DCCCCCD#32 = fOrd 0x3DCCCCCC#32 + 1 := by decide
  have hmax : fInt 0x41200000#32 = 10 * 2 ^ 149 := rfl
  exact within_of_fInt (by decide) (by decide) hx ((fOrd_le_fOrd_iff _ _).1 (by omega)) (hmax ▸ h2)

/-- The bounds of the statements imply the factory's own test. -/
theorem ParametersInBounds.inBounds {q : Snapshot} {fs : F} (h : ParametersInBounds q fs) : inBounds q fs = true := by
  obtain ⟨hpkf, hpkg, ⟨hpkq, hqmin, hqmax⟩, hlcf, hhcf, hlcs, hhcs, hfin, hfs⟩ := h
  have hgain : within 0xC1C00000#32 q.pkg 0x41C00000#32 = true :=
    within_of_valueWithin (by decide) (by decide) rfl rfl hpkg
  have hrate : fLt 0x471C4000#32 fs = true := by
    have hmin : fInt 0x471C4000#32 = 40000 * 2 ^ 149 := rfl
    exact (fLt_iff (by decide) hfin).2 (hmin ▸ hfs)
  simp only [Machine.inBounds, within_frequency hpkf, hgain, within_quality hpkq hqmin hqmax, within_frequency hlcf,
    within_frequency hhcf, (slopeOutOfRange_eq_false_iff _).2 hlcs, (slopeOutOfRange_eq_false_iff _).2 hhcs, hfin, hrate,
    Bool.not_false, Bool.and_true]

theorem ParametersInBounds.rateValid {q : Snapshot} {fs : F} (h : ParametersInBounds q fs) : RateValid fs := by
  obtain ⟨-, -, -, -, -, -, -, hfin, hfs⟩ := h
  exact ⟨hfin, by omega⟩

theorem ParametersInBounds.slopes {q : Snapshot} {fs : F} (h : ParametersInBounds q fs) :
    q.lcs.toNat ≤ 3 ∧ q.hcs.toNat ≤ 3 := by
  obtain ⟨-, -, -, -, -, hlcs, hhcs, -⟩ := h
  exact ⟨hlcs, hhcs⟩

/-! ### The factory's sets (R170, R175) -/

theorem factoryShape_stageSetOf_replicate (st : Stage) (n : Nat) (c : Coefs) :
    FactoryShape st n (stageSetOf st (List.replicate n c)) := by
  refine ⟨List.length_replicate, c, ?_⟩
  rw [stageSetOf, List.length_replicate]
  rfl

theorem setFinite_eq_false_iff (g : StageSet) : setFinite g = false ↔ HasNonFinite g := by
  simp [setFinite, HasNonFinite, enabledSections]

theorem rejectedStages_get (sets : PerStage StageSet) (st : Stage) :
    (rejectedStages sets).get st = true ↔ HasNonFinite (sets.get st) := by
  rw [← setFinite_eq_false_iff, ← Bool.not_eq_true']
  cases st <;> rfl

/-- Each set is made from copies of one section of the factory. -/
theorem factorySets_get (q : Snapshot) (fs : F) (st : Stage) :
    ∃ n c, (factorySets q fs).get st = stageSetOf st (List.replicate n (factorySection q fs c)) := by
  cases st with
  | lc => exact ⟨_, _, rfl⟩
  | pk => exact ⟨1, _, rfl⟩
  | hc => exact ⟨_, _, rfl⟩

/-- Within the bounds every set is finite (F4). -/
theorem setFinite_factorySets {q : Snapshot} {fs : F} (h : ParametersInBounds q fs) (st : Stage) :
    setFinite ((factorySets q fs).get st) = true := by
  obtain ⟨n, c, hset⟩ := factorySets_get q fs st
  rw [hset, setFinite, enabledSections_stageSetOf, List.all_eq_true]
  intro d hd
  rw [List.eq_of_mem_replicate hd]
  exact factorySection_finite h.inBounds c

theorem rejectedStages_factorySets {q : Snapshot} {fs : F} (h : ParametersInBounds q fs) :
    rejectedStages (factorySets q fs) = ⟨false, false, false⟩ := by
  have hlc : setFinite (factorySets q fs).lc = true := setFinite_factorySets h .lc
  have hpk : setFinite (factorySets q fs).pk = true := setFinite_factorySets h .pk
  have hhc : setFinite (factorySets q fs).hc = true := setFinite_factorySets h .hc
  rw [rejectedStages, hlc, hpk, hhc]
  rfl

/-! ### The publication (R160, R163, R167) -/

theorem exec_rfsh_of_configured {s : State} (hchg : s.chg = true) (h : refreshConfigured s = true) :
    exec .rfsh s = .next (publish (factorySets s.param s.fs) { s with chg := false }) := by
  simp only [exec, execRfsh, hchg, h, if_true]

theorem refreshWord_eq (rej : PerStage Bool) :
    refreshWord rej = BitVec.ofNat 32 (1 + 2 * rej.lc.toNat + 4 * rej.pk.toNat + 8 * rej.hc.toNat) := by
  obtain ⟨lc, pk, hc⟩ := rej
  cases lc <;> cases pk <;> cases hc <;> rfl

/-- The state a publication leaves: a rejected stage keeps its set, and a rejection is recorded. -/
theorem publish_eq (sets : PerStage StageSet) (s : State) {rej : PerStage Bool} (h : rejectedStages sets = rej) :
    publish sets s = answered .pr 0x00010000#32 [refreshWord rej]
      { s with
        pub := publishSets s.pub sets rej
        pbyp := ⟨s.param.lcb, s.param.pkb, s.param.hcb⟩
        laen := s.param.aen
        status := if rej.lc || rej.pk || rej.hc then s.status ||| 0x2#32 else s.status
        lastcode := if rej.lc || rej.pk || rej.hc then 0x3#8 else s.lastcode
        lasterr := if rej.lc || rej.pk || rej.hc then 0x15000000#32 else s.lasterr } := by
  subst h
  rw [publish, respond_ok_one]
  cases (rejectedStages sets).lc || (rejectedStages sets).pk || (rejectedStages sets).hc <;> rfl

/-- Settles O21: the three functions are the model's factory. -/
theorem refreshPublishesStageByStage : Obligations.RefreshPublishesStageByStage := by
  refine ⟨factorySets, fun q fs _ _ => ?_, fun q fs h st hbad => ?_, fun s rej hchg hrate hlc hhc hrej => ?_⟩
  · exact ⟨factoryShape_stageSetOf_replicate .lc _ _, factoryShape_stageSetOf_replicate .pk 1 _,
      factoryShape_stageSetOf_replicate .hc _ _⟩
  · rw [← setFinite_eq_false_iff, setFinite_factorySets h st] at hbad
    cases hbad
  · have hrejected : rejectedStages (factorySets s.param s.fs) = rej :=
      PerStage.ext_get fun st => Bool.eq_iff_iff.2 ((rejectedStages_get _ st).trans (hrej st).symm)
    rw [exec_rfsh_of_configured hchg ((refreshConfigured_iff s).2 ⟨hrate, hlc, hhc⟩), publish_eq _ _ hrejected,
      refreshWord_eq]
    rfl

/-- The state after a refresh with in-bounds parameters: every stage is published (R163). -/
theorem exec_rfsh_of_inBounds {s : State} (hchg : s.chg = true) (h : ParametersInBounds s.param s.fs) :
    exec .rfsh s = .next (answered .pr 0x00010000#32 [0x00000001#32]
      { s with
        chg := false
        pub := factorySets s.param s.fs
        pbyp := ⟨s.param.lcb, s.param.pkb, s.param.hcb⟩
        laen := s.param.aen }) := by
  rw [exec_rfsh_of_configured hchg ((refreshConfigured_iff s).2 ⟨h.rateValid, h.slopes⟩),
    publish_eq _ _ (rejectedStages_factorySets h)]
  rfl

theorem lastResponse_answered_same (p : Port) (hdr : Word) (ws : List Word) (s : State) :
    lastResponse p (answered p hdr ws s) = some ⟨hdr, ws⟩ := by
  simp [lastResponse, answered]

theorem lastResponse_answered_other (p : Port) (hdr : Word) (ws : List Word) (s : State) :
    lastResponse p.other (answered p hdr ws s) = lastResponse p.other s := by
  simp [lastResponse, answered]

/-- Settles O23: the rate is stored, the refresh publishes the factory's sets, and `SYNC` adopts them. -/
theorem bootPutsTheFilterInForce : Obligations.BootPutsTheFilterInForce := by
  intro s p fs h
  obtain ⟨hlcs, hhcs⟩ := h.slopes
  have hsrate : exec (.srate p fs) s = .next (answered p 0x00000000#32 [] { s with fs := fs, chg := true }) := rfl
  have hrfsh := exec_rfsh_of_inBounds (s := answered p 0x00000000#32 [] { s with fs := fs, chg := true }) rfl h
  rw [bootCommands, execAll_cons_of_exec hsrate, execAll_cons_of_exec hrfsh, execAll_cons_of_exec (exec_sync _)]
  refine ⟨_, rfl, rfl, rfl, ?_, lastResponse_answered_same .rt _ _ _, rfl, fun st => ?_, ?_, rfl, ?_, rfl, rfl⟩
  · exact (lastResponse_answered_other .rt _ _ _).trans (lastResponse_answered_same .pr _ _ _)
  · exact setOk_factorySets ((slopeOutOfRange_eq_false_iff _).2 hlcs) ((slopeOutOfRange_eq_false_iff _).2 hhcs) st
      (setFinite_factorySets h st)
  · exact List.length_replicate
  · exact List.length_replicate

end Sys2Proof.Machine
end

section
/-!
SUPPORT. `MAGR` and the magnitude evaluator: what the command does with and without a valid rate, what the evaluator depends
on, and its exact answers: O24 to O26.
-/

namespace Sys2Proof.Machine

theorem headerOf_magr {freqs : List F} (h : freqs.length ≤ 65535) :
    headerOf (.magr freqs) = BitVec.ofNat 32 (0x16000000 + freqs.length) := by
  have hopc : (opByte .magr).toNat = 0x16 := rfl
  have himm : (BitVec.ofNat 16 freqs.length).toNat = freqs.length :=
    (BitVec.toNat_ofNat _ _).trans (Nat.mod_eq_of_lt (by omega))
  rw [headerOf, packHeader_eq_ofNat, hopc, himm]
  simp

theorem exec_magr_of_rateValid {s : State} (h : RateValid s.fs) (freqs : List F) :
    exec (.magr freqs) s =
      .next (answered .pr (okHeader freqs.length) (freqs.map (magResp s.pub s.pbyp s.fs)) s) := by
  simp only [exec, execMagr, (validRate_iff s.fs).2 h, if_true, respond_ok, List.length_map]

theorem exec_magr_of_not_rateValid {s : State} (h : ¬RateValid s.fs) (freqs : List F) :
    exec (.magr freqs) s = .next (refusedWith .pr 2 0x1#32 (headerOf (.magr freqs)) s) := by
  rw [← validRate_iff] at h
  exact if_neg h

/-- Settles O24: the rate is tested first, and the header recorded is the command's own. -/
theorem magrNeedsAValidRate : Obligations.MagrNeedsAValidRate := by
  intro s freqs hrate hlen
  rw [exec_magr_of_not_rateValid hrate, headerOf_magr hlen]

/-! ### The evaluator (R181) -/

/-- The sections of the enabled slots, by stage (R16). -/
def enabledBank (pub : PerStage StageSet) : PerStage (List Coefs) :=
  ⟨enabledSections pub.lc, enabledSections pub.pk, enabledSections pub.hc⟩

theorem enabledBank_get (pub : PerStage StageSet) (st : Stage) :
    (enabledBank pub).get st = (pub.get st).c.take (pub.get st).nsec := by
  cases st <;> rfl

/-- The evaluator as a function of the enabled sections. -/
theorem magResp_eq (pub : PerStage StageSet) (byp : PerStage Bool) (fs f : F) :
    magResp pub byp fs f =
      if byp.lc && byp.pk && byp.hc then oneF
      else if referenceIsZero (audibleSections (enabledBank pub) byp) f fs then 0#32
      else if referenceIsPositive (audibleSections (enabledBank pub) byp) f fs then
        positiveFinite (Config.magResp (enabledBank pub) byp fs f)
      else Config.magResp (enabledBank pub) byp fs f := rfl

theorem magResp_congr {a b : PerStage StageSet}
    (h : ∀ st, (a.get st).c.take (a.get st).nsec = (b.get st).c.take (b.get st).nsec) (byp : PerStage Bool) (fs f : F) :
    magResp a byp fs f = magResp b byp fs f := by
  have hbank : enabledBank a = enabledBank b :=
    PerStage.ext_get fun st => by rw [enabledBank_get, enabledBank_get, h st]
  rw [magResp_eq, magResp_eq, hbank]

/-- Settles O25: the one function is the model's evaluator. -/
theorem magrEvaluatesThePublishedBank : Obligations.MagrEvaluatesThePublishedBank :=
  ⟨magResp, fun _ _ byp fs f h => magResp_congr h byp fs f, fun _ _ _ => rfl,
    fun _ freqs hrate _ => exec_magr_of_rateValid hrate freqs⟩

/-- The sections that enter the reference are the enabled ones of the stages that are not bypassed. -/
theorem mem_audibleSections (pub : PerStage StageSet) (byp : PerStage Bool) (c : Coefs) :
    c ∈ audibleSections (enabledBank pub) byp ↔
      ∃ st, byp.get st = false ∧ c ∈ (pub.get st).c.take (pub.get st).nsec := by
  have hstage : ∀ (b : Bool) (cs : List Coefs), c ∈ (if b then [] else cs) ↔ b = false ∧ c ∈ cs := fun b cs => by
    cases b <;> simp
  simp only [audibleSections, List.mem_append, hstage]
  constructor
  · rintro ((h | h) | h)
    · exact ⟨.lc, h⟩
    · exact ⟨.pk, h⟩
    · exact ⟨.hc, h⟩
  · rintro ⟨_ | _ | _, h⟩
    · exact .inl (.inl h)
    · exact .inl (.inr h)
    · exact .inr h

/-- At 0 Hz the point of the unit circle is 1, where a polynomial's value is the sum of its coefficients. -/
theorem vanishesAt_zero_hertz (fs : F) (p0 p1 p2 : Int) :
    vanishesAt (twiceCos 0#32 fs) p0 p1 p2 = true ↔ p0 + p1 + p2 = 0 :=
  beq_iff_eq

theorem inBand_zero_hertz {fs : F} (h : RateValid fs) : inBand 0#32 fs = true := by
  obtain ⟨-, hpos⟩ := h
  have hzero : fInt 0#32 = 0 := rfl
  simp only [inBand, isFinite_zero, hzero, Bool.true_and, Bool.and_eq_true, decide_eq_true_eq]
  omega

/-- Settles O26: the low cut is heard, so the answer is the one for an exact zero of the reference. -/
theorem magrOfLowCutAtZeroIsZero : Obligations.MagrOfLowCutAtZeroIsZero := by
  rintro s hrate hlc ⟨c, hc, hzero⟩ hden
  have hnumerator : (audibleSections (enabledBank s.pub) s.pbyp).any (numeratorVanishes 0#32 s.fs) = true :=
    List.any_eq_true.2 ⟨c, (mem_audibleSections _ _ c).2 ⟨.lc, hlc, hc⟩, (vanishesAt_zero_hertz _ _ _ _).2 hzero⟩
  have hdenominator : (audibleSections (enabledBank s.pub) s.pbyp).any (denominatorVanishes 0#32 s.fs) = false := by
    rw [List.any_eq_false]
    intro d hd hvanishes
    obtain ⟨st, hst, hmem⟩ := (mem_audibleSections _ _ d).1 hd
    exact hden st hst d hmem ((vanishesAt_zero_hertz _ _ _ _).1 hvanishes)
  have hreference : referenceIsZero (audibleSections (enabledBank s.pub) s.pbyp) 0#32 s.fs = true := by
    simp only [referenceIsZero, inBand_zero_hertz hrate, hnumerator, hdenominator, Bool.not_false, Bool.and_self]
  have hanswer : magResp s.pub s.pbyp s.fs 0#32 = 0#32 := by
    simp only [magResp_eq, hlc, hreference, Bool.false_and, Bool.false_eq_true, if_true, if_false]
  rw [exec_magr_of_rateValid hrate, List.map_singleton, hanswer]
  rfl

end Sys2Proof.Machine
end

section
/-!
SUPPORT. The reference sections over the reals (R171 to R174) at the frequencies where their magnitude is exact: O59 and O60.
A section's polynomial at the angle `w` is turned by `e^(jw)`, which keeps its norm and leaves a real and an imaginary part
that vanish in turn.
-/

namespace Sys2Proof.Machine

/-! ### The norm of a section's polynomial (R181) -/

/-- The polynomial turned by `e^(jw)`: its middle coefficient comes out real. -/
theorem polyAt_eq (c0 c1 c2 w : ℝ) :
    polyAt c0 c1 c2 w = Complex.exp ((-w : ℝ) * Complex.I) *
      (((c1 + (c0 + c2) * Real.cos w : ℝ) : ℂ) + (((c0 - c2) * Real.sin w : ℝ) : ℂ) * Complex.I) := by
  have h1 : Complex.exp (-(w * Complex.I)) = Complex.cos w - Complex.sin w * Complex.I := by
    rw [← neg_mul, Complex.exp_mul_I, Complex.cos_neg, Complex.sin_neg, neg_mul, sub_eq_add_neg]
  have h2 : Complex.exp (-(2 * w * Complex.I)) = Complex.exp (-(w * Complex.I)) ^ 2 := by
    rw [← Complex.exp_nat_mul]
    congr 1
    push_cast
    ring
  have h3 := Complex.sin_sq_add_cos_sq (w : ℂ)
  rw [polyAt, h2, Complex.ofReal_neg, neg_mul, h1]
  push_cast
  linear_combination (-(c0 : ℂ)) * h3 + (c0 * Complex.sin w ^ 2) * Complex.I_sq

theorem norm_polyAt_sq (c0 c1 c2 w : ℝ) :
    ‖polyAt c0 c1 c2 w‖ ^ 2 = (c1 + (c0 + c2) * Real.cos w) ^ 2 + ((c0 - c2) * Real.sin w) ^ 2 := by
  rw [polyAt_eq, norm_mul, Complex.norm_exp_ofReal_mul_I, one_mul, Complex.sq_norm, Complex.normSq_add_mul_I]

/-- Where the turned polynomial has no imaginary part. -/
theorem norm_polyAt_of_real {c0 c1 c2 w x : ℝ} (him : (c0 - c2) * Real.sin w = 0)
    (hre : c1 + (c0 + c2) * Real.cos w = x) : ‖polyAt c0 c1 c2 w‖ = |x| := by
  rw [← abs_norm, ← sq_eq_sq_iff_abs_eq_abs, norm_polyAt_sq, him, hre]
  ring

/-- Where the turned polynomial has no real part. -/
theorem norm_polyAt_of_imaginary {c0 c1 c2 w y : ℝ} (hre : c1 + (c0 + c2) * Real.cos w = 0)
    (him : (c0 - c2) * Real.sin w = y) : ‖polyAt c0 c1 c2 w‖ = |y| := by
  rw [← abs_norm, ← sq_eq_sq_iff_abs_eq_abs, norm_polyAt_sq, him, hre]
  ring

theorem sectionMagnitude_nonneg (c : RealCoefs) (w : ℝ) : 0 ≤ sectionMagnitude c w :=
  div_nonneg (norm_nonneg _) (norm_nonneg _)

/-- A quotient of absolute values where one is a nonnegative multiple of the other. -/
theorem abs_div_abs_of_eq_mul {x y g : ℝ} (hg : 0 ≤ g) (hy : y ≠ 0) (h : x = g * y) : |x| / |y| = g := by
  rw [h, abs_mul, abs_of_nonneg hg, mul_div_cancel_right₀ _ (abs_ne_zero.2 hy)]

/-! ### The peak section (R171) -/

theorem linearGain_pos (gainDb : ℝ) : 0 < linearGain gainDb := Real.rpow_pos_of_pos (by norm_num) _

/-- `2*pi*f/fs` lies strictly between the angles of 0 Hz and of half the rate. -/
theorem angle_mem_Ioo {f fs : ℝ} (hf : 0 < f) (hfs : 2 * f < fs) : 2 * Real.pi * f / fs ∈ Set.Ioo 0 Real.pi := by
  have hrate : 0 < fs := by linarith
  refine ⟨by positivity, ?_⟩
  rw [div_lt_iff₀ hrate]
  nlinarith [Real.pi_pos]

/-- `peakRef` by its parts: the root `a` of the gain, the angle `w` and `al = sin w / (2q)`. -/
noncomputable def peakSectionOf (a al w : ℝ) : RealCoefs where
  b0 := (1 + al * a) / (1 + al / a)
  b1 := -2 * Real.cos w / (1 + al / a)
  b2 := (1 - al * a) / (1 + al / a)
  a1 := -2 * Real.cos w / (1 + al / a)
  a2 := (1 - al / a) / (1 + al / a)

theorem peakRef_eq (f gainDb q fs : ℝ) :
    peakRef f gainDb q fs = peakSectionOf (Real.sqrt (linearGain gainDb))
      (Real.sin (2 * Real.pi * f / fs) / (2 * q)) (2 * Real.pi * f / fs) := rfl

section Peak

variable {a al : ℝ} (ha : 0 < a) (hal : 0 < al) (w v : ℝ)

include ha hal

/-- At the angle `v` the numerator has a real part by how far `v` is from the center `w` and an imaginary one by `al * a`. -/
theorem norm_peak_numerator_sq :
    ‖polyAt (peakSectionOf a al w).b0 (peakSectionOf a al w).b1 (peakSectionOf a al w).b2 v‖ ^ 2 =
      (2 / (1 + al / a)) ^ 2 * ((Real.cos v - Real.cos w) ^ 2 + (al * a * Real.sin v) ^ 2) := by
  have h0 : 0 < 1 + al / a := by positivity
  rw [norm_polyAt_sq]
  simp only [peakSectionOf]
  field_simp
  ring

/-- The denominator is the numerator with `al / a` for `al * a`. -/
theorem norm_peak_denominator_sq :
    ‖polyAt 1 (peakSectionOf a al w).a1 (peakSectionOf a al w).a2 v‖ ^ 2 =
      (2 / (1 + al / a)) ^ 2 * ((Real.cos v - Real.cos w) ^ 2 + (al / a * Real.sin v) ^ 2) := by
  have h0 : 0 < 1 + al / a := by positivity
  rw [norm_polyAt_sq]
  simp only [peakSectionOf]
  field_simp
  ring

theorem sectionMagnitude_peak_sq : sectionMagnitude (peakSectionOf a al w) v ^ 2 =
    ((Real.cos v - Real.cos w) ^ 2 + (al * a * Real.sin v) ^ 2) /
      ((Real.cos v - Real.cos w) ^ 2 + (al / a * Real.sin v) ^ 2) := by
  have h0 : 0 < 2 / (1 + al / a) := by positivity
  rw [sectionMagnitude, div_pow, norm_peak_numerator_sq ha hal, norm_peak_denominator_sq ha hal]
  exact mul_div_mul_left _ _ (by positivity)

variable {w v}

/-- At the center the real parts vanish, and the imaginary ones are in the ratio `a^2`. -/
theorem sectionMagnitude_peak_center (hw : 0 < Real.sin w) : sectionMagnitude (peakSectionOf a al w) w = a ^ 2 := by
  rw [← sq_eq_sq₀ (sectionMagnitude_nonneg _ _) (by positivity), sectionMagnitude_peak_sq ha hal]
  field_simp
  ring

/-- At 0 Hz and at half the rate the imaginary parts vanish, and the real ones are equal. -/
theorem sectionMagnitude_peak_end (hv : Real.sin v = 0) (hne : Real.cos w ≠ Real.cos v) :
    sectionMagnitude (peakSectionOf a al w) v = 1 := by
  have hdiff : Real.cos v - Real.cos w ≠ 0 := sub_ne_zero.2 hne.symm
  rw [← sq_eq_sq₀ (sectionMagnitude_nonneg _ _) zero_le_one, sectionMagnitude_peak_sq ha hal, hv, mul_zero, mul_zero,
    div_self (by positivity), one_pow]

end Peak

/-- Settles O59: the section is real at both ends of the band and imaginary at its center. -/
theorem peakMagnitudeAtCenterIsTheGain : Obligations.PeakMagnitudeAtCenterIsTheGain := by
  intro f gainDb q fs hf hfs hq
  obtain ⟨hpos, hlt⟩ := angle_mem_Ioo hf hfs
  have ha : 0 < Real.sqrt (linearGain gainDb) := Real.sqrt_pos.2 (linearGain_pos gainDb)
  have hsin := Real.sin_pos_of_pos_of_lt_pi hpos hlt
  have hal : 0 < Real.sin (2 * Real.pi * f / fs) / (2 * q) := by positivity
  rw [peakRef_eq]
  refine ⟨?_, sectionMagnitude_peak_end ha hal Real.sin_zero ?_, sectionMagnitude_peak_end ha hal Real.sin_pi ?_⟩
  · rw [sectionMagnitude_peak_center ha hal hsin, Real.sq_sqrt (linearGain_pos gainDb).le, linearGain]
  · exact (Real.cos_lt_cos_of_nonneg_of_le_pi le_rfl hlt.le hpos).ne
  · exact (Real.cos_lt_cos_of_nonneg_of_le_pi hpos.le le_rfl hlt).ne'

/-! ### The cut sections (R172 to R174) -/

/-- The cosine and the sine of an angle below `pi` by the tangent of its half. -/
theorem cos_sin_of_tan_half {w : ℝ} (h0 : 0 < w) (hpi : w < Real.pi) :
    Real.cos w = (1 - Real.tan (w / 2) ^ 2) / (1 + Real.tan (w / 2) ^ 2) ∧
    Real.sin w = 2 * Real.tan (w / 2) / (1 + Real.tan (w / 2) ^ 2) := by
  have hcos : 0 < Real.cos (w / 2) := Real.cos_pos_of_mem_Ioo ⟨by linarith, by linarith⟩
  have hone := Real.sin_sq_add_cos_sq (w / 2)
  have hden : 1 + Real.tan (w / 2) ^ 2 = 1 / Real.cos (w / 2) ^ 2 := by
    rw [Real.tan_eq_sin_div_cos]
    field_simp
    linarith
  have hw : w = 2 * (w / 2) := by ring
  rw [hden, Real.tan_eq_sin_div_cos]
  constructor
  · conv_lhs => rw [hw, Real.cos_two_mul']
    field_simp
  · conv_lhs => rw [hw, Real.sin_two_mul]
    field_simp

/-- The angle's cosine and sine by the pre-warped frequency, which is positive. -/
theorem prewarp_spec {f fs : ℝ} (hf : 0 < f) (hfs : 2 * f < fs) :
    0 < prewarp f fs ∧
    Real.cos (2 * Real.pi * f / fs) = (1 - prewarp f fs ^ 2) / (1 + prewarp f fs ^ 2) ∧
    Real.sin (2 * Real.pi * f / fs) = 2 * prewarp f fs / (1 + prewarp f fs ^ 2) := by
  obtain ⟨hpos, hlt⟩ := angle_mem_Ioo hf hfs
  have hhalf : prewarp f fs = Real.tan (2 * Real.pi * f / fs / 2) := by
    rw [prewarp]
    congr 1
    ring
  rw [hhalf]
  exact ⟨Real.tan_pos_of_pos_of_lt_pi_div_two (by linarith) (by linarith), cos_sin_of_tan_half hpos hlt⟩

section Cut

variable {k w : ℝ} (hk : 0 < k) (hcos : Real.cos w = (1 - k ^ 2) / (1 + k ^ 2)) (hsin : Real.sin w = 2 * k / (1 + k ^ 2))

include hk

theorem cutScale_pos : 0 < cutScale k := by
  unfold cutScale
  positivity

theorem cutScale_mul : cutScale k * (1 + Real.sqrt 2 * k + k * k) = 1 := by
  have : 0 < 1 + Real.sqrt 2 * k + k * k := by positivity
  exact one_div_mul_cancel this.ne'

include hcos hsin

/-- At the cutoff the denominator of both cut sections is imaginary. -/
theorem norm_cut_denominator :
    ‖polyAt 1 (2 * cutScale k * (k * k - 1)) (cutScale k * (1 - Real.sqrt 2 * k + k * k)) w‖ =
      |4 * Real.sqrt 2 * (cutScale k * k ^ 2 / (1 + k ^ 2))| := by
  have hc := cutScale_mul hk
  refine norm_polyAt_of_imaginary ?_ ?_
  · rw [hcos]
    field_simp
    linear_combination (k ^ 2 - 1) * hc
  · rw [hsin]
    field_simp
    linear_combination -2 * hc

theorem sectionMagnitude_lowCut_cutoff : sectionMagnitude (lowCutRef k) w = 1 / Real.sqrt 2 := by
  have hc := cutScale_pos hk
  have hnum : ‖polyAt (lowCutRef k).b0 (lowCutRef k).b1 (lowCutRef k).b2 w‖ =
      |-(4 * (cutScale k * k ^ 2 / (1 + k ^ 2)))| := by
    refine norm_polyAt_of_real (by simp only [lowCutRef]; ring) ?_
    simp only [lowCutRef, hcos]
    field_simp
    ring
  have hden := norm_cut_denominator hk hcos hsin
  rw [sectionMagnitude, hnum, abs_neg]
  refine (congrArg (_ / ·) hden).trans (abs_div_abs_of_eq_mul (by positivity) (by positivity) ?_)
  field_simp

theorem sectionMagnitude_highCut_cutoff : sectionMagnitude (highCutRef k) w = 1 / Real.sqrt 2 := by
  have hc := cutScale_pos hk
  have hnum : ‖polyAt (highCutRef k).b0 (highCutRef k).b1 (highCutRef k).b2 w‖ =
      |4 * (cutScale k * k ^ 2 / (1 + k ^ 2))| := by
    refine norm_polyAt_of_real (by simp only [highCutRef]; ring) ?_
    simp only [highCutRef, hcos]
    field_simp
    ring
  have hden := norm_cut_denominator hk hcos hsin
  rw [sectionMagnitude, hnum]
  refine (congrArg (_ / ·) hden).trans (abs_div_abs_of_eq_mul (by positivity) (by positivity) ?_)
  field_simp

end Cut

theorem sectionMagnitude_lowCut_zero (k : ℝ) : sectionMagnitude (lowCutRef k) 0 = 0 := by
  have hnum : ‖polyAt (lowCutRef k).b0 (lowCutRef k).b1 (lowCutRef k).b2 0‖ = |0| :=
    norm_polyAt_of_real (by rw [Real.sin_zero, mul_zero]) (by simp only [lowCutRef, Real.cos_zero]; ring)
  rw [sectionMagnitude, hnum, abs_zero, zero_div]

theorem sectionMagnitude_highCut_zero {k : ℝ} (hk : 0 < k) : sectionMagnitude (highCutRef k) 0 = 1 := by
  have hc := cutScale_pos hk
  have hmul := cutScale_mul hk
  have hnum : ‖polyAt (highCutRef k).b0 (highCutRef k).b1 (highCutRef k).b2 0‖ = |4 * (k * k * cutScale k)| :=
    norm_polyAt_of_real (by rw [Real.sin_zero, mul_zero]) (by simp only [highCutRef, Real.cos_zero]; ring)
  have hden : ‖polyAt 1 (highCutRef k).a1 (highCutRef k).a2 0‖ = |4 * (k * k * cutScale k)| :=
    norm_polyAt_of_real (by rw [Real.sin_zero, mul_zero])
      (by simp only [highCutRef, Real.cos_zero]; linear_combination -hmul)
  rw [sectionMagnitude, hnum, hden]
  exact div_self (by positivity)

theorem cascadeMagnitude_replicate (n : ℕ) (c : RealCoefs) (w : ℝ) :
    cascadeMagnitude (List.replicate n c) w = sectionMagnitude c w ^ n := by
  rw [cascadeMagnitude, List.map_replicate, List.prod_replicate]

/-- Settles O60: the cascade's magnitude is the power of its one section's. -/
theorem cutMagnitudeAtCutoff : Obligations.CutMagnitudeAtCutoff := by
  intro f fs k hf hfs
  obtain ⟨hpos, hcos, hsin⟩ := prewarp_spec hf hfs
  simp only [cascadeMagnitude_replicate]
  rw [sectionMagnitude_lowCut_cutoff hpos hcos hsin, sectionMagnitude_highCut_cutoff hpos hcos hsin,
    sectionMagnitude_lowCut_zero, sectionMagnitude_highCut_zero hpos]
  exact ⟨rfl, rfl, zero_pow (Nat.succ_ne_zero k), one_pow _⟩

end Sys2Proof.Machine
end

section
/-!
SUPPORT. The document's +6 dB scenario (R182): how far the magnitude of a section near the reference one is from the
reference's, and how far that is from the document's decibels, at 1000, 20 and 20000 Hz: O27.
-/

namespace Sys2Proof.Machine

/-! ### The magnitude of a section near another -/

theorem polyAt_sub (c0 c1 c2 d0 d1 d2 w : ℝ) :
    polyAt c0 c1 c2 w - polyAt d0 d1 d2 w = polyAt (c0 - d0) (c1 - d1) (c2 - d2) w := by
  simp only [polyAt]
  push_cast
  ring

theorem norm_polyAt_le (c0 c1 c2 w : ℝ) : ‖polyAt c0 c1 c2 w‖ ≤ |c0| + |c1| + |c2| := by
  have hunit : ∀ x : ℝ, ‖Complex.exp (-(x * Complex.I))‖ = 1 := fun x => by
    rw [← neg_mul, ← Complex.ofReal_neg, Complex.norm_exp_ofReal_mul_I]
  have h1 : ‖(c1 : ℂ) * Complex.exp (-(w * Complex.I))‖ = |c1| := by
    rw [norm_mul, hunit, mul_one, Complex.norm_real, Real.norm_eq_abs]
  have h2 : ‖(c2 : ℂ) * Complex.exp (-(2 * w * Complex.I))‖ = |c2| := by
    rw [norm_mul, ← Complex.ofReal_ofNat, ← Complex.ofReal_mul, hunit, mul_one, Complex.norm_real, Real.norm_eq_abs]
  calc ‖polyAt c0 c1 c2 w‖ ≤ ‖(c0 : ℂ)‖ + _ + _ := norm_add₃_le
    _ = |c0| + |c1| + |c2| := by rw [h1, h2, Complex.norm_real, Real.norm_eq_abs]

theorem abs_norm_polyAt_sub_le (c0 c1 c2 d0 d1 d2 w : ℝ) :
    |‖polyAt c0 c1 c2 w‖ - ‖polyAt d0 d1 d2 w‖| ≤ |c0 - d0| + |c1 - d1| + |c2 - d2| :=
  calc |‖polyAt c0 c1 c2 w‖ - ‖polyAt d0 d1 d2 w‖|
    _ ≤ ‖polyAt c0 c1 c2 w - polyAt d0 d1 d2 w‖ := abs_norm_sub_norm_le _ _
    _ ≤ |c0 - d0| + |c1 - d1| + |c2 - d2| := polyAt_sub c0 c1 c2 d0 d1 d2 w ▸ norm_polyAt_le _ _ _ w

/-- `m` lies within one part in `10^4` of `r`. -/
def RelativelyNear (r m : ℝ) : Prop := (1 - 1 / 10 ^ 4) * r ≤ m ∧ m ≤ (1 + 1 / 10 ^ 4) * r

/-- Small errors in a numerator and a denominator that are not small make a small relative error in their quotient. -/
theorem relativelyNear_div {n d n' d' : ℝ} (hn : 1 / 100 ≤ n) (hd : 1 / 100 ≤ d) (hn' : |n' - n| ≤ 3 / 10 ^ 7)
    (hd' : |d' - d| ≤ 3 / 10 ^ 7) : RelativelyNear (n / d) (n' / d') := by
  obtain ⟨hn1, hn2⟩ := abs_le.1 hn'
  obtain ⟨hd1, hd2⟩ := abs_le.1 hd'
  have hd0 : 0 < d := by linarith
  have hd'0 : 0 < d' := by linarith
  have hlow : (1 - 1 / 10 ^ 4) * d' ≤ (1 - 3 / 10 ^ 5) * d := by linarith
  have hhigh : (1 + 3 / 10 ^ 5) * d ≤ (1 + 1 / 10 ^ 4) * d' := by linarith
  constructor
  · rw [← mul_div_assoc, div_le_div_iff₀ hd0 hd'0]
    calc (1 - 1 / 10 ^ 4) * n * d' = n * ((1 - 1 / 10 ^ 4) * d') := by ring
      _ ≤ n * ((1 - 3 / 10 ^ 5) * d) := mul_le_mul_of_nonneg_left hlow (by linarith)
      _ = (1 - 3 / 10 ^ 5) * n * d := by ring
      _ ≤ n' * d := mul_le_mul_of_nonneg_right (by linarith) hd0.le
  · rw [← mul_div_assoc, div_le_div_iff₀ hd'0 hd0]
    calc n' * d ≤ (1 + 3 / 10 ^ 5) * n * d := mul_le_mul_of_nonneg_right (by linarith) hd0.le
      _ = n * ((1 + 3 / 10 ^ 5) * d) := by ring
      _ ≤ n * ((1 + 1 / 10 ^ 4) * d') := mul_le_mul_of_nonneg_left hhigh (by linarith)
      _ = (1 + 1 / 10 ^ 4) * n * d' := by ring

/-- Where neither polynomial of the reference section is small, a section near it has nearly its magnitude. -/
theorem sectionMagnitude_near {c : Coefs} {r : RealCoefs} {w : ℝ} (h : CoefsNear (1 / 10 ^ 7) c r)
    (hnum : 1 / 100 ≤ ‖polyAt r.b0 r.b1 r.b2 w‖) (hden : 1 / 100 ≤ ‖polyAt 1 r.a1 r.a2 w‖) :
    RelativelyNear (sectionMagnitude r w) (sectionMagnitude (realCoefs c) w) := by
  obtain ⟨hb0, hb1, hb2, ha1, ha2⟩ := h
  refine relativelyNear_div hnum hden ((abs_norm_polyAt_sub_le _ _ _ _ _ _ w).trans ?_)
    ((abs_norm_polyAt_sub_le _ _ _ _ _ _ w).trans ?_)
  · simp only [realCoefs]
    linarith
  · rw [sub_self, abs_zero]
    simp only [realCoefs]
    linarith

/-! ### Decibels -/

theorem two_le_log_ten : 2 ≤ Real.log 10 := by
  rw [Real.le_log_iff_exp_le (by norm_num), show (2 : ℝ) = 1 + 1 by norm_num, Real.exp_add]
  nlinarith [Real.exp_one_lt_d9, Real.exp_pos 1]

theorem decibels_linearGain (x : ℝ) : decibels (linearGain x) = x := by
  rw [decibels, linearGain, Real.logb_rpow (by norm_num) (by norm_num)]
  ring

/-- A magnitude within 6 parts in `10^4` of another is within 0.01 dB of it. -/
theorem abs_decibels_sub_le {g m : ℝ} (hg : 0 < g) (h1 : (1 - 6 / 10 ^ 4) * g ≤ m) (h2 : m ≤ (1 + 6 / 10 ^ 4) * g) :
    |decibels m - decibels g| ≤ 1 / 100 := by
  have hm : 0 < m := lt_of_lt_of_le (by positivity) h1
  have hlog : |Real.log m - Real.log g| ≤ 1 / 1000 := by
    rw [← Real.log_div hm.ne' hg.ne', abs_le]
    have hup : m / g ≤ 1 + 6 / 10 ^ 4 := (div_le_iff₀ hg).2 h2
    have hinv : (m / g)⁻¹ ≤ 1 + 1 / 1000 := by
      rw [inv_div, div_le_iff₀ hm]
      linarith
    have hratio := div_pos hm hg
    exact ⟨by linarith [Real.one_sub_inv_le_log_of_pos hratio], by linarith [Real.log_le_sub_one_of_pos hratio]⟩
  have hten := two_le_log_ten
  have heq : decibels m - decibels g = 20 * (Real.log m - Real.log g) / Real.log 10 := by
    simp only [decibels, Real.logb]
    ring
  rw [heq, abs_div, abs_mul, abs_of_pos (show (0 : ℝ) < 20 by norm_num), abs_of_pos (show 0 < Real.log 10 by linarith),
    div_le_iff₀ (by linarith)]
  linarith

/-! ### The scenario's reference section -/

/-- What the estimates use of the root `a` of the gain and of `al` in the scenario. -/
def ScenarioParts (a al : ℝ) : Prop :=
  a ^ 2 = linearGain 6 ∧ 1 ≤ a ∧ al * a ≤ 0.0923 ∧ 0.0461 ≤ al / a ∧ al / a ≤ 0.0464

theorem scenario_peakRef :
    ∃ a al : ℝ, peakRef 1000 6 1 48000 = peakSectionOf a al (Real.pi / 24) ∧ ScenarioParts a al := by
  obtain ⟨ha1, ha2⟩ := Laws.sqrt_linearGain_six_bounds
  obtain ⟨hs1, hs2⟩ := Laws.sin_pi_div_24_bounds
  have hw : 2 * Real.pi * 1000 / 48000 = Real.pi / 24 := by ring
  have ha : 0 < Real.sqrt (linearGain 6) := by linarith
  refine ⟨Real.sqrt (linearGain 6), Real.sin (Real.pi / 24) / (2 * 1), by rw [peakRef_eq, hw],
    Real.sq_sqrt (linearGain_pos 6).le, by linarith, by nlinarith, ?_, ?_⟩
  · rw [le_div_iff₀ ha]
    linarith
  · rw [div_le_iff₀ ha]
    linarith

/-- How far the cosine of an angle is from that of the scenario's center. -/
noncomputable def centerDistance (v : ℝ) : ℝ := Real.cos v - Real.cos (Real.pi / 24)

section Scenario

variable {a al : ℝ} (h : ScenarioParts a al) {v : ℝ}

include h

theorem ScenarioParts.one_le_root : 1 ≤ a := by
  obtain ⟨-, hone, -⟩ := h
  exact hone

theorem ScenarioParts.root_pos : 0 < a := zero_lt_one.trans_le h.one_le_root

theorem ScenarioParts.div_bounds : 0.0461 ≤ al / a ∧ al / a ≤ 0.0464 := by
  obtain ⟨-, -, -, hdiv⟩ := h
  exact hdiv

theorem ScenarioParts.al_pos : 0 < al := by
  obtain ⟨hdiv, -⟩ := h.div_bounds
  exact (div_pos_iff_of_pos_right h.root_pos).1 (by linarith)

/-- A gain above 0 dB makes the numerator the larger of the two polynomials. -/
theorem ScenarioParts.denominator_le_numerator :
    centerDistance v ^ 2 + (al / a * Real.sin v) ^ 2 ≤ centerDistance v ^ 2 + (al * a * Real.sin v) ^ 2 := by
  have hdiv : al / a ≤ al * a := (div_le_self h.al_pos.le h.one_le_root).trans (le_mul_of_one_le_right h.al_pos.le h.one_le_root)
  have hsq : (al / a) ^ 2 ≤ (al * a) ^ 2 := pow_le_pow_left₀ (div_nonneg h.al_pos.le h.root_pos.le) hdiv 2
  rw [mul_pow, mul_pow (al * a)]
  linarith [mul_le_mul_of_nonneg_right hsq (sq_nonneg (Real.sin v))]

/-- The two polynomials have a common factor, and are not small where their other factors are not. -/
theorem ScenarioParts.le_norm {x m : ℝ} (hm : 0 ≤ m) (hx : 1 / 36000 ≤ x) (hsq : m ^ 2 = (2 / (1 + al / a)) ^ 2 * x) :
    1 / 100 ≤ m := by
  have hfactor : 3.6 ≤ (2 / (1 + al / a)) ^ 2 := by
    obtain ⟨hlow, hhigh⟩ := h.div_bounds
    have hdiv : 1.9 ≤ 2 / (1 + al / a) := (le_div_iff₀ (by linarith)).2 (by linarith)
    nlinarith
  refine le_of_sq_le_sq ?_ hm
  rw [hsq]
  nlinarith

/-- A section near the scenario's has nearly its magnitude where the denominator's parts are not both small. -/
theorem ScenarioParts.magnitude_near {c : Coefs} (hc : CoefsNear (1 / 10 ^ 7) c (peakSectionOf a al (Real.pi / 24)))
    (hv : 1 / 36000 ≤ centerDistance v ^ 2 + (al / a * Real.sin v) ^ 2) :
    RelativelyNear (sectionMagnitude (peakSectionOf a al (Real.pi / 24)) v) (sectionMagnitude (realCoefs c) v) :=
  sectionMagnitude_near hc
    (h.le_norm (norm_nonneg _) (hv.trans h.denominator_le_numerator) (norm_peak_numerator_sq h.root_pos h.al_pos _ v))
    (h.le_norm (norm_nonneg _) hv (norm_peak_denominator_sq h.root_pos h.al_pos _ v))

/-- Away from the center, where the cosine is much farther from the center's than the sine is from 0, the reference is flat. -/
theorem ScenarioParts.magnitude_flat (hfar : 1 / 150 ≤ |centerDistance v|)
    (hsin : 3.2 * |Real.sin v| ≤ |centerDistance v|) :
    1 ≤ sectionMagnitude (peakSectionOf a al (Real.pi / 24)) v ∧
    sectionMagnitude (peakSectionOf a al (Real.pi / 24)) v ≤ 1 + 45 / 10 ^ 5 := by
  have hsq := sectionMagnitude_peak_sq h.root_pos h.al_pos (Real.pi / 24) v
  have hnonneg := sectionMagnitude_nonneg (peakSectionOf a al (Real.pi / 24)) v
  have hle := h.denominator_le_numerator (v := v)
  rw [← centerDistance] at hsq
  have hdist : 0 < centerDistance v ^ 2 := by
    rw [← sq_abs]
    positivity
  have hden : 0 < centerDistance v ^ 2 + (al / a * Real.sin v) ^ 2 := by positivity
  have himag : (al * a * Real.sin v) ^ 2 ≤ 9 / 10 ^ 4 * centerDistance v ^ 2 := by
    have habs : |al * a * Real.sin v| ≤ |3 / 100 * centerDistance v| := by
      rw [abs_mul (al * a), abs_mul (3 / 100), abs_of_pos (mul_pos h.al_pos h.root_pos),
        abs_of_pos (show (0 : ℝ) < 3 / 100 by norm_num)]
      obtain ⟨-, -, hmul, -⟩ := h
      have := mul_le_mul_of_nonneg_right hmul (abs_nonneg (Real.sin v))
      linarith
    have := sq_le_sq.2 habs
    linarith
  constructor
  · refine le_of_sq_le_sq ?_ hnonneg
    rwa [one_pow, hsq, one_le_div hden]
  · refine le_of_sq_le_sq ?_ (by norm_num)
    rw [hsq, div_le_iff₀ hden]
    nlinarith [sq_nonneg (al / a * Real.sin v)]

/-- A section near the scenario's is within 0.01 dB of a gain that the reference is within 0.45 parts in `10^3` of. -/
theorem ScenarioParts.decibels_near {c : Coefs} {g : ℝ} (hc : CoefsNear (1 / 10 ^ 7) c (peakSectionOf a al (Real.pi / 24)))
    (hv : 1 / 36000 ≤ centerDistance v ^ 2 + (al / a * Real.sin v) ^ 2) (hg : 0 < g)
    (h1 : g ≤ sectionMagnitude (peakSectionOf a al (Real.pi / 24)) v)
    (h2 : sectionMagnitude (peakSectionOf a al (Real.pi / 24)) v ≤ (1 + 45 / 10 ^ 5) * g) :
    0 < sectionMagnitude (realCoefs c) v ∧ |decibels (sectionMagnitude (realCoefs c) v) - decibels g| ≤ 1 / 100 := by
  obtain ⟨hlow, hhigh⟩ := h.magnitude_near hc hv
  exact ⟨by linarith, abs_decibels_sub_le hg (by linarith) (by linarith)⟩

/-- The center, 1000 Hz. -/
theorem ScenarioParts.decibels_center {c : Coefs} (hc : CoefsNear (1 / 10 ^ 7) c (peakSectionOf a al (Real.pi / 24))) :
    0 < sectionMagnitude (realCoefs c) (Real.pi / 24) ∧
    |decibels (sectionMagnitude (realCoefs c) (Real.pi / 24)) - 6| ≤ 1 / 100 := by
  obtain ⟨hs, -⟩ := Laws.sin_pi_div_24_bounds
  obtain ⟨hgain, -⟩ := id h
  obtain ⟨hdiv, -⟩ := h.div_bounds
  have hcenter : sectionMagnitude (peakSectionOf a al (Real.pi / 24)) (Real.pi / 24) = linearGain 6 :=
    (sectionMagnitude_peak_center h.root_pos h.al_pos (by linarith)).trans hgain
  have himag : 0.006 ≤ al / a * Real.sin (Real.pi / 24) := by nlinarith
  have hv : 1 / 36000 ≤ centerDistance (Real.pi / 24) ^ 2 + (al / a * Real.sin (Real.pi / 24)) ^ 2 := by
    nlinarith [sq_nonneg (centerDistance (Real.pi / 24))]
  have hg := linearGain_pos 6
  have hdb := h.decibels_near hc hv hg hcenter.ge (by rw [hcenter]; linarith)
  rwa [decibels_linearGain] at hdb

/-- The frequencies away from the center. -/
theorem ScenarioParts.decibels_flat {c : Coefs} (hc : CoefsNear (1 / 10 ^ 7) c (peakSectionOf a al (Real.pi / 24)))
    (hfar : 1 / 150 ≤ |centerDistance v|) (hsin : 3.2 * |Real.sin v| ≤ |centerDistance v|) :
    0 < sectionMagnitude (realCoefs c) v ∧ |decibels (sectionMagnitude (realCoefs c) v) - 0| ≤ 1 / 100 := by
  have hv : 1 / 36000 ≤ centerDistance v ^ 2 + (al / a * Real.sin v) ^ 2 := by
    rw [← sq_abs (centerDistance v)]
    nlinarith [sq_nonneg (al / a * Real.sin v)]
  have hone : decibels 1 = 0 := by simp [decibels]
  obtain ⟨h1, h2⟩ := h.magnitude_flat hfar hsin
  have hdb := h.decibels_near hc hv one_pos h1 (by linarith)
  rwa [hone] at hdb

end Scenario

/-- 20 Hz is far from the center. -/
theorem centerDistance_low : 1 / 150 ≤ |centerDistance (Real.pi / 1200)| ∧
    3.2 * |Real.sin (Real.pi / 1200)| ≤ |centerDistance (Real.pi / 1200)| := by
  obtain ⟨-, hcenter⟩ := Laws.cos_pi_div_24_bounds
  have hpi := Real.pi_lt_d4
  have hpos := Real.pi_pos
  have hcos := Real.one_sub_sq_div_two_le_cos (x := Real.pi / 1200)
  have hsin := Real.sin_le (x := Real.pi / 1200) (by positivity)
  have hsin0 : 0 ≤ Real.sin (Real.pi / 1200) := Real.sin_nonneg_of_nonneg_of_le_pi (by positivity) (by linarith)
  have hdist : 0.0085 ≤ centerDistance (Real.pi / 1200) := by
    rw [centerDistance]
    nlinarith
  rw [abs_of_nonneg hsin0, abs_of_nonneg (by linarith)]
  exact ⟨by linarith, by linarith⟩

/-- 20000 Hz is far from the center. -/
theorem centerDistance_high : 1 / 150 ≤ |centerDistance (5 * Real.pi / 6)| ∧
    3.2 * |Real.sin (5 * Real.pi / 6)| ≤ |centerDistance (5 * Real.pi / 6)| := by
  obtain ⟨hcenter, -⟩ := Laws.cos_pi_div_24_bounds
  have hangle : 5 * Real.pi / 6 = Real.pi - Real.pi / 6 := by ring
  have hroot : 1.7 ≤ Real.sqrt 3 := Real.le_sqrt_of_sq_le (by norm_num)
  have hdist : centerDistance (5 * Real.pi / 6) ≤ -1.8 := by
    rw [centerDistance, hangle, Real.cos_pi_sub, Real.cos_pi_div_six]
    linarith
  have hsin : Real.sin (5 * Real.pi / 6) = 1 / 2 := by
    rw [hangle, Real.sin_pi_sub, Real.sin_pi_div_six]
  rw [hsin, abs_of_pos (show (0 : ℝ) < 1 / 2 by norm_num),
    abs_of_neg (show centerDistance (5 * Real.pi / 6) < 0 by linarith)]
  exact ⟨by linarith, by linarith⟩

/-! ### The scenario's frequencies and parameters as reals -/

theorem toReal_48000 : toReal 0x473B8000#32 = 48000 := Laws.toReal_eq (n := 48000 * 2 ^ 149) rfl (by norm_num)
theorem toReal_1000 : toReal 0x447A0000#32 = 1000 := Laws.toReal_eq (n := 1000 * 2 ^ 149) rfl (by norm_num)
theorem toReal_20 : toReal 0x41A00000#32 = 20 := Laws.toReal_eq (n := 20 * 2 ^ 149) rfl (by norm_num)
theorem toReal_20000 : toReal 0x469C4000#32 = 20000 := Laws.toReal_eq (n := 20000 * 2 ^ 149) rfl (by norm_num)
theorem toReal_6 : toReal 0x40C00000#32 = 6 := Laws.toReal_eq (n := 6 * 2 ^ 149) rfl (by norm_num)
theorem toReal_1 : toReal 0x3F800000#32 = 1 := Laws.toReal_eq (n := 1 * 2 ^ 149) rfl (by norm_num)

/-! ### The scenario -/

/-- Where only a peak section is heard the reference is its magnitude. -/
theorem magRespRef_of_peak {pub : PerStage StageSet} {c : Coefs} (h : pub.pk.c.take pub.pk.nsec = [c]) (fs f : F) :
    magRespRef pub ⟨true, false, true⟩ fs f = sectionMagnitude (realCoefs c) (2 * Real.pi * toReal f / toReal fs) := by
  simp [magRespRef, audibleSections, enabledSections, h, cascadeMagnitude]

/-- An answer that M1 allows is as far from the document's decibels as M1 and the reference are together. -/
theorem scenario_answer {tol x v : ℝ} {pub : PerStage StageSet} {c : Coefs} {f : F}
    (h : MagRespAccurateAt tol pub ⟨true, false, true⟩ 0x473B8000#32 f) (hpub : pub.pk.c.take pub.pk.nsec = [c])
    (hv : 2 * Real.pi * toReal f / 48000 = v)
    (hmag : 0 < sectionMagnitude (realCoefs c) v ∧ |decibels (sectionMagnitude (realCoefs c) v) - x| ≤ 1 / 100) :
    (isFinite (magResp pub ⟨true, false, true⟩ 0x473B8000#32 f) = true ∧
      0 < toReal (magResp pub ⟨true, false, true⟩ 0x473B8000#32 f)) ∧
    |decibels (toReal (magResp pub ⟨true, false, true⟩ 0x473B8000#32 f)) - x| ≤ tol + 1 / 100 := by
  rw [MagRespAccurateAt, magRespRef_of_peak hpub, toReal_48000, hv] at h
  obtain ⟨hpos, hnear⟩ := hmag
  obtain ⟨hfinite, hanswer, htol⟩ := h hpos
  exact ⟨⟨hfinite, hanswer⟩, (abs_sub_le _ _ _).trans (add_le_add htol hnear)⟩

/-- The refresh of the scenario publishes a peak section as near the reference as the factory's accuracy says. -/
theorem exec_rfsh_scenario {s : State} {coefTol : ℝ} (hchg : s.chg = true) (hfs : s.fs = 0x473B8000#32)
    (hpkf : s.param.pkf = 0x447A0000#32) (hpkg : s.param.pkg = 0x40C00000#32) (hpkq : s.param.pkq = 0x3F800000#32)
    (hlcb : s.param.lcb = true) (hpkb : s.param.pkb = false) (hhcb : s.param.hcb = true)
    (hbounds : ParametersInBounds s.param s.fs) (haccurate : FactoryAccurateAt coefTol s.param s.fs) :
    ∃ (t : State) (c : Coefs), exec .rfsh s = .next t ∧ t.fs = s.fs ∧ t.pbyp = ⟨true, false, true⟩ ∧
      t.pub.pk.c.take t.pub.pk.nsec = [c] ∧ CoefsNear coefTol c (peakRef 1000 6 1 48000) := by
  obtain ⟨hpeak, -⟩ := haccurate
  have hrate : toReal s.fs = 48000 := by rw [hfs, toReal_48000]
  refine ⟨_, factorySection s.param s.fs (Config.peakSection s.param s.fs), exec_rfsh_of_inBounds hchg hbounds, rfl, ?_,
    enabledSections_stageSetOf .pk _, ?_⟩
  · simp only [answered, hlcb, hpkb, hhcb]
  · rwa [hpkf, hpkg, hpkq, hrate, toReal_1000, toReal_6, toReal_1] at hpeak

/-- Settles O27: the refresh publishes the factory's section, and the reference of a section near it is within 0.01 dB of +6, 0
and 0 dB. -/
theorem magrMeetsTheScenario : Obligations.MagrMeetsTheScenario := by
  refine ⟨fun _ _ => exec_rfsh_scenario, fun s c tol hfs hbyp hpub hnear haccurate => ?_⟩
  obtain ⟨a, al, hpeak, hparts⟩ := scenario_peakRef
  rw [hpeak] at hnear
  rw [hfs, hbyp] at haccurate
  obtain ⟨hlow, hlowsin⟩ := centerDistance_low
  obtain ⟨hhigh, hhighsin⟩ := centerDistance_high
  obtain ⟨hm1, hdb1⟩ := scenario_answer (haccurate 0x447A0000#32 (by simp)) hpub (by rw [toReal_1000]; ring)
    (hparts.decibels_center hnear)
  obtain ⟨hm2, hdb2⟩ := scenario_answer (haccurate 0x41A00000#32 (by simp)) hpub (by rw [toReal_20]; ring)
    (hparts.decibels_flat (v := Real.pi / 1200) hnear hlow hlowsin)
  obtain ⟨hm3, hdb3⟩ := scenario_answer (haccurate 0x469C4000#32 (by simp)) hpub (by rw [toReal_20000]; ring)
    (hparts.decibels_flat (v := 5 * Real.pi / 6) hnear hhigh hhighsin)
  rw [sub_zero] at hdb2 hdb3
  have hrate : RateValid s.fs := by
    rw [hfs]
    exact ⟨by decide, by decide⟩
  refine ⟨_, _, _, ?_, ?_, hdb1, hdb2, hdb3⟩
  · rw [exec_magr_of_rateValid hrate, hfs, hbyp]
    rfl
  · simp only [List.forall_mem_cons, List.not_mem_nil, false_imp_iff, implies_true, and_true]
    exact ⟨hm1, hm2, hm3⟩

end Sys2Proof.Machine
end

section
/-!
SUPPORT. The sample block channel: what `PUSH` and `POP` do in every state, and the ring against the list of the blocks pushed
into it: O42, O43 and O45.
-/

namespace Sys2Proof.Machine

/-! ### `PUSH` (R192) -/

theorem headerOf_push (blk : List F) : headerOf (.push blk) = 0x03000000#32 := by
  simp only [headerOf, opOf]
  decide

theorem decode_push (blk : List F) : decode blk.length .rt ⟨0x03000000#32, blk⟩ = .ok (.push blk) :=
  headerOf_push blk ▸ decodeOfEncode blk.length (.push blk) (beq_self_eq_true _)

/-- The state `PUSH` ends in: the slot of block number `W` written, `W` one on, the response appended. -/
def pushed (blk : List F) (s : State) : State :=
  answered .rt 0x00000000#32 [] { s with slot := slotSet s.cfg.l (s.w % s.cfg.cap) blk s.slot, w := s.w + 1 }

theorem exec_push (blk : List F) (s : State) : exec (.push blk) s = .next (pushed blk s) := rfl

@[simp] theorem pushed_cfg (blk : List F) (s : State) : (pushed blk s).cfg = s.cfg := rfl
@[simp] theorem pushed_w (blk : List F) (s : State) : (pushed blk s).w = s.w + 1 := rfl

theorem slotRead_pushed_same {s : State} (h : slotsWf s.cfg.l s.cfg.cap s.slot = true) (blk : List F) :
    slotRead (pushed blk s) (s.w % s.cfg.cap) = blk :=
  slotGet_slotSet_same _ _ _ (slotsWf_rising h)

theorem slotRead_pushed_other {s : State} {j : Nat} (h : j ≠ s.w % s.cfg.cap) (blk : List F) :
    slotRead (pushed blk s) j = slotRead s j :=
  slotGet_slotSet_other _ h _

theorem slotsWf_pushed {s : State} {blk : List F} (h : slotsWf s.cfg.l s.cfg.cap s.slot = true) (hcap : 1 ≤ s.cfg.cap)
    (hblk : blk.length = s.cfg.l) : slotsWf s.cfg.l s.cfg.cap (pushed blk s).slot = true :=
  slotsWf_slotSet h (Nat.mod_lt _ hcap) hblk

/-- Settles O42, by the laws of a slot write. -/
theorem pushStoresTheBlock : Obligations.PushStoresTheBlock :=
  ⟨decode_push, fun s blk => ⟨_, exec_push blk s, fun hslots hcap hblk =>
    ⟨slotRead_pushed_same hslots blk, fun _ hj => slotRead_pushed_other hj blk, slotsWf_pushed hslots hcap hblk⟩⟩⟩

/-! ### `POP` (R195) -/

theorem decode_pop (l : Nat) : decode l .pr ⟨0x20000000#32, []⟩ = .ok .pop :=
  decodeOfEncode l .pop rfl

theorem takeIndex_of_kept {s : State} (h : s.w - s.r ≤ s.cfg.cap) : takeIndex s = s.r :=
  if_neg (Nat.not_lt.2 h)

theorem takeIndex_of_overwritten {s : State} (h : s.cfg.cap < s.w - s.r) : takeIndex s = s.w - s.cfg.cap :=
  if_pos h

/-- The next block a take reads is as far behind `W` as blocks are available (R191, R196). -/
theorem takeIndex_eq_sub {s : State} (h : s.r ≤ s.w) : takeIndex s = s.w - min (s.w - s.r) s.cfg.cap := by
  unfold takeIndex
  split <;> omega

/-- A canonical slot holds `L` words, so the header of a taken block counts `L`. -/
theorem exec_pop_of_slotsWf {s : State} (hslots : slotsWf s.cfg.l s.cfg.cap s.slot = true) (hne : s.w ≠ s.r) :
    exec .pop s = .next (answered .pr (okHeader s.cfg.l) (slotRead s (takeIndex s % s.cfg.cap))
      { s with r := takeIndex s + 1 }) := by
  have hlen : (slotRead s (takeIndex s % s.cfg.cap)).length = s.cfg.l := slotGet_length hslots _
  rw [exec_pop_of_nonempty hne, respond_ok, hlen]

/-- Settles O43: a take reads the block at `takeIndex`, which is `R` or, past overwritten blocks, `W - CAP`. -/
theorem popReturnsTheOldestBlock : Obligations.PopReturnsTheOldestBlock := by
  refine ⟨decode_pop, fun s => exec_pop_of_empty, fun s hslots _ hrw hkept => ?_, fun s hslots _ hover => ?_⟩
  · have hpop := exec_pop_of_slotsWf hslots (by omega)
    rwa [takeIndex_of_kept hkept] at hpop
  · have hpop := exec_pop_of_slotsWf hslots (by omega)
    rwa [takeIndex_of_overwritten hover] at hpop

/-! ### Sequences of commands -/

theorem execAll_append {is js : List Instr} {s t : State} (h : execAll is s = .next t) :
    execAll (is ++ js) s = execAll js t := by
  induction is generalizing s with
  | nil =>
    cases h
    rfl
  | cons i is ih =>
    simp only [execAll, List.cons_append] at h ⊢
    split at h
    · exact ih h
    · cases h
    · cases h

/-! ### The ring as the newest part of a log (R197) -/

/-- Block numbers less than `cap` apart have slots of their own. -/
theorem mod_ne_mod_of_lt_add {a b cap : Nat} (hab : a < b) (hb : b < a + cap) : a % cap ≠ b % cap := by
  intro h
  have hdvd : cap ∣ b - a := (Nat.modEq_iff_dvd' hab.le).1 h
  have := Nat.le_of_dvd (by omega) hdvd
  omega

/-- `log` lists the blocks pushed since `W` was `base`, oldest first, and its last `CAP` blocks stand in their slots, bit
for bit. -/
def RingLog (base : Nat) (log : List (List F)) (s : State) : Prop :=
  1 ≤ s.cfg.cap ∧ slotsWf s.cfg.l s.cfg.cap s.slot = true ∧ s.w = base + log.length ∧
  ∀ (i : Nat) (hi : i < log.length), log.length ≤ i + s.cfg.cap → slotRead s ((base + i) % s.cfg.cap) = log[i]

theorem ringLog_nil {s : State} (hcap : 1 ≤ s.cfg.cap) (hslots : slotsWf s.cfg.l s.cfg.cap s.slot = true) :
    RingLog s.w [] s :=
  ⟨hcap, hslots, rfl, nofun⟩

/-- A push adds its block to the log: it overwrites the slot of no block that is among the last `CAP` after it. -/
theorem RingLog.after_push {base : Nat} {log : List (List F)} {s : State} {blk : List F} (h : RingLog base log s)
    (hblk : blk.length = s.cfg.l) : RingLog base (log ++ [blk]) (pushed blk s) := by
  obtain ⟨hcap, hslots, hw, hheld⟩ := h
  refine ⟨hcap, slotsWf_pushed hslots hcap hblk, ?_, fun i hi hnew => ?_⟩
  · rw [pushed_w, hw, List.length_append, List.length_singleton, Nat.add_assoc]
  · rw [List.length_append, List.length_singleton] at hi hnew
    rw [pushed_cfg] at hnew ⊢
    rcases Nat.lt_or_ge i log.length with hold | hlast
    · have hother : (base + i) % s.cfg.cap ≠ s.w % s.cfg.cap := mod_ne_mod_of_lt_add (by omega) (by omega)
      rw [slotRead_pushed_other hother, hheld i hold (by omega), List.getElem_append_left hold]
    · obtain rfl : i = log.length := by omega
      rw [← hw, slotRead_pushed_same hslots, List.getElem_concat_length rfl]

/-- Pushes answer `OK`, one each, and leave `R`. -/
theorem execAll_pushes {base : Nat} (blks : List (List F)) : ∀ {log : List (List F)} {s : State}, RingLog base log s →
    (∀ b ∈ blks, b.length = s.cfg.l) →
    ∃ t, execAll (blks.map .push) s = .next t ∧ RingLog base (log ++ blks) t ∧ t.cfg = s.cfg ∧ t.r = s.r ∧
      t.out = ⟨s.out.rt ++ List.replicate blks.length ⟨0x00000000#32, []⟩, s.out.pr⟩ := by
  induction blks with
  | nil => exact fun {log s} h _ => ⟨s, rfl, by rwa [List.append_nil], rfl, rfl, by simp⟩
  | cons blk blks ih =>
    intro log s h hlen
    obtain ⟨hblk, hblks⟩ := List.forall_mem_cons.1 hlen
    obtain ⟨t, hall, hlog, hcfg, hr, hout⟩ := ih (h.after_push hblk) hblks
    refine ⟨t, (execAll_cons_of_exec (exec_push blk s) _).trans hall, ?_, hcfg, hr, hout.trans ?_⟩
    · rwa [List.append_assoc] at hlog
    · simp [pushed, answered, PerPort.set, PerPort.get, List.replicate_succ]

/-- A take leaves the log, which speaks of `W` and the slots alone. -/
theorem RingLog.after_pop {base : Nat} {log : List (List F)} {s : State} (h : RingLog base log s) (hdr : Word) (ws : List Word)
    (r : Nat) : RingLog base log (answered .pr hdr ws { s with r := r }) :=
  h

/-- The next take answers the oldest block available. -/
theorem RingLog.exec_pop {base k : Nat} {log : List (List F)} {s : State} (h : RingLog base log s) (hbase : base ≤ s.r)
    (hring : s.r ≤ s.w) (hk : min (s.w - s.r) s.cfg.cap = k + 1) (hi : log.length - (k + 1) < log.length) :
    exec .pop s = .next (answered .pr (okHeader s.cfg.l) log[log.length - (k + 1)] { s with r := takeIndex s + 1 }) := by
  obtain ⟨-, hslots, hw, hheld⟩ := h
  have hindex : takeIndex s = base + (log.length - (k + 1)) := by
    rw [takeIndex_eq_sub hring, hk]
    omega
  rw [exec_pop_of_slotsWf hslots (by omega), ← hheld _ hi (by omega), ← hindex]

/-- As many takes as are available answer that many blocks from the end of the log, in order. -/
theorem execAll_pops_of_ringLog {base : Nat} {log : List (List F)} (k : Nat) : ∀ {s : State}, RingLog base log s →
    base ≤ s.r → s.r ≤ s.w → min (s.w - s.r) s.cfg.cap = k →
    ∃ t, execAll (List.replicate k .pop) s = .next t ∧ t.r = t.w ∧
      t.out = ⟨s.out.rt, s.out.pr ++ (log.drop (log.length - k)).map fun b => ⟨okHeader s.cfg.l, b⟩⟩ := by
  induction k with
  | zero =>
    intro s h _ hring hk
    obtain ⟨hcap, -⟩ := h
    exact ⟨s, rfl, by omega, by simp⟩
  | succ k ih =>
    intro s h hbase hring hk
    have ⟨hcap, _, hw, _⟩ := h
    have hi : log.length - (k + 1) < log.length := by omega
    have hnext : log.length - (k + 1) + 1 = log.length - k := by omega
    have hlt : takeIndex s < s.w := takeIndex_lt hring (by omega) hcap
    have hle : base ≤ takeIndex s + 1 := by
      rw [takeIndex_eq_sub hring, hk]
      omega
    obtain ⟨t, hall, hempty, hout⟩ := ih (h.after_pop _ _ _) hle hlt (available_after_take hk)
    refine ⟨t, (execAll_cons_of_exec (h.exec_pop hbase hring hk hi) _).trans hall, hempty, hout.trans ?_⟩
    rw [List.drop_eq_getElem_cons hi, hnext]
    simp [answered, PerPort.set, PerPort.get]

/-- Settles O45: the pushes make the log, and the takes read off its end. -/
theorem ringKeepsTheNewestInOrder : Obligations.RingKeepsTheNewestInOrder := by
  intro s blks hslots hcap _ hempty hlen
  obtain ⟨u, hpushes, hlog, hcfg, hr, hout⟩ := execAll_pushes blks (ringLog_nil hcap hslots) hlen
  have ⟨_, _, hw, _⟩ := hlog
  rw [List.nil_append] at hw
  have havail : min (u.w - u.r) u.cfg.cap = min blks.length s.cfg.cap := by
    rw [hcfg, hw, hr, hempty, Nat.add_sub_cancel_left]
  obtain ⟨t, hpops, hdone, htout⟩ := execAll_pops_of_ringLog _ hlog (by omega) (by omega) havail
  have hnewest : blks.length - min blks.length s.cfg.cap = blks.length - s.cfg.cap := by omega
  rw [hout, hcfg, List.nil_append, hnewest] at htout
  exact ⟨t, (execAll_append hpushes).trans hpops, congrArg PerPort.rt htout, congrArg PerPort.pr htout,
    exec_pop_of_empty hdone.symm⟩

end Sys2Proof.Machine
end

section
/-!
SUPPORT. The spectrum analyzer: what `WVIEW`, `ANLZ`, `GENP` and `RDPATH` do in every state, and the exact properties of the
spectrum and of the path: O46 to O52.
-/

namespace Sys2Proof.Machine

/-! ### `WVIEW` (R231) -/

theorem headerOf_wview (vid : View) (w : F) : headerOf (.wview vid w) = BitVec.ofNat 32 (0x17000000 + viewId vid) := by
  cases vid <;> rfl

theorem decode_wview (l : Nat) (vid : View) (w : F) :
    decode l .pr ⟨BitVec.ofNat 32 (0x17000000 + viewId vid), [w]⟩ = .ok (.wview vid w) :=
  headerOf_wview vid w ▸ decodeOfEncode l (.wview vid w) rfl

theorem readView_writeView_of_ne {vid other : View} (h : other ≠ vid) (x : F) (v : ViewRegs) :
    readView other (writeView vid x v) = readView other v := by
  cases vid <;> cases other <;> first | rfl | exact absurd rfl h

theorem exec_wview_of_finite {w : F} (h : isFinite w = true) (vid : View) (s : State) :
    exec (.wview vid w) s = .next (answered .pr 0x00000000#32 [] { s with view := writeView vid w s.view }) :=
  if_pos h

theorem exec_wview_of_nonFinite {w : F} (h : isNaN w = true ∨ isInf w = true) (vid : View) (s : State) :
    exec (.wview vid w) s = .next (refusedWith .pr 2 0x1#32 (BitVec.ofNat 32 (0x17000000 + viewId vid)) s) := by
  have hrefused : exec (.wview vid w) s = .next (refuse .pr .invalidConfiguration (headerOf (.wview vid w)) s) :=
    if_neg (Bool.eq_false_iff.1 (isFinite_eq_false_of_isNaN_or_isInf h))
  rw [hrefused, refuse_invalidConfiguration, headerOf_wview]

/-- Settles O46: the packets by their header, the one write, and the refusal. -/
theorem wviewWritesOneFiniteRegister : Obligations.WviewWritesOneFiniteRegister :=
  ⟨fun vid => by cases vid <;> rfl, decode_wview,
    fun vid w s hfinite => ⟨_, exec_wview_of_finite hfinite vid s, readView_writeView vid w s.view,
      fun _ hne => readView_writeView_of_ne hne w s.view⟩,
    fun vid _ s hclass => exec_wview_of_nonFinite hclass vid s⟩

/-! ### `ANLZ` (R212) -/

theorem exec_anlz_of_disabled {s : State} (h : s.laen = false) :
    exec .anlz s = .next (answered .pr 0x00010000#32 [0x00000000#32] s) :=
  if_neg (Bool.eq_false_iff.1 h)

theorem exec_anlz_of_empty {s : State} (hlaen : s.laen = true) (h : s.w = s.r) :
    exec .anlz s = .next (answered .pr 0x00000001#32 [] s) := by
  simp only [exec, execAnlz, hlaen, if_true, ringTake_empty h, respond_empty]

theorem exec_anlz_of_nonempty {s : State} (hlaen : s.laen = true) (h : s.w ≠ s.r) :
    exec .anlz s = .next (analyze (slotRead s (takeIndex s % s.cfg.cap)) { s with r := takeIndex s + 1 }) := by
  simp only [exec, execAnlz, hlaen, if_true, ringTake_nonempty h]

/-- Settles O47: the enable is tested before the ring. -/
theorem anlzWithNothingToTake : Obligations.AnlzWithNothingToTake :=
  ⟨fun l => decodeOfEncode l .anlz rfl, fun _ => exec_anlz_of_disabled, fun _ => exec_anlz_of_empty⟩

/-- A take reads the oldest block that is unread and not overwritten (R196). -/
theorem takeIndex_eq_max (s : State) : takeIndex s = max s.r (s.w - s.cfg.cap) := by
  unfold takeIndex
  split <;> omega

/-- Where the buffer has `N` samples, both ways of sliding drop the first `L` of the buffer and the block together (R211). -/
theorem shiftAppend_eq_drop {n : Nat} {acc : List F} (hacc : acc.length = n) (l : Nat) (blk : List F) :
    shiftAppend n l acc blk = (acc ++ blk).drop l := by
  unfold shiftAppend
  rw [List.drop_append, hacc]
  split
  · next hle => rw [List.drop_eq_nil_of_le (hacc.trans_le hle), List.nil_append]
  · next hlt => rw [Nat.sub_eq_zero_of_le (by omega), List.drop_zero]

theorem enqueue_eq (mqcap : Nat) (mq : List (List F)) (m : List F) :
    enqueue mqcap mq m = (if mq.length = mqcap then mq.drop 1 else mq) ++ [m] := by
  rw [enqueue, List.drop_one]

/-- Fewer than `N` samples supplied: the buffer slides and nothing is queued (R213). -/
theorem analyze_of_filling {s : State} (h : s.accfill + s.cfg.l < s.cfg.n) (blk : List F) :
    analyze blk s = answered .pr 0x00010000#32 [0x00000000#32]
      { s with acc := shiftAppend s.cfg.n s.cfg.l s.acc blk, accfill := s.accfill + s.cfg.l } := by
  simp only [analyze, min_eq_right h.le, if_pos h, respond_ok_one]

/-- `N` samples supplied: the spectrum of the buffer is queued (R212, R214). -/
theorem analyze_of_filled {s : State} (h : s.cfg.n ≤ s.accfill + s.cfg.l) (blk : List F) :
    analyze blk s = answered .pr 0x00010000#32 [0x00000001#32]
      { s with
        acc := shiftAppend s.cfg.n s.cfg.l s.acc blk
        accfill := s.cfg.n
        mq := enqueue s.cfg.mqcap s.mq
          (spectrum s.cfg.n s.cfg.nb (shiftAppend s.cfg.n s.cfg.l s.acc blk) s.view.floor) } := by
  simp only [analyze, min_eq_left h, lt_irrefl, if_false, respond_ok_one]

/-- Settles O48: the block taken stands at `takeIndex`, and the work on it depends on whether it fills the buffer. -/
theorem anlzSlidesAndQueues : Obligations.AnlzSlidesAndQueues := by
  intro s hinv hlaen hpending
  have hexec := exec_anlz_of_nonempty hlaen hpending.ne'
  have hslide := shiftAppend_eq_drop hinv.acc s.cfg.l (slotRead s (takeIndex s % s.cfg.cap))
  refine ⟨takeIndex s, slotRead s (takeIndex s % s.cfg.cap), _, takeIndex_eq_max s, rfl, rfl,
    fun hfilling => ?_, fun hfilled => ?_⟩
  · rw [hexec, analyze_of_filling (s := { s with r := takeIndex s + 1 }) hfilling, ← hslide]
  · rw [hexec, analyze_of_filled (s := { s with r := takeIndex s + 1 }) hfilled, enqueue_eq, ← hslide]

/-! ### The spectrum (R218, R219) -/

theorem isZero_of_eq_zero {x : F} (h : x = 0x00000000#32 ∨ x = 0x80000000#32) : isZero x = true := by
  rcases h with rfl | rfl <;> decide

theorem fInt_le_maxFinite {a : F} (h : isFinite a = true) : fInt a ≤ fInt maxFinite := by
  have hmag := (isFinite_iff a).1 h
  have hmax : fOrd maxFinite = 0x7F7FFFFF := by decide
  rw [← fOrd_le_fOrd_iff, hmax]
  unfold fOrd
  split <;> omega

/-- S1 for one value: whatever is held at the floor is not below it. -/
theorem fInt_le_floored {floor : F} (h : isFinite floor = true) (d : F) : fInt floor ≤ fInt (floored floor d) := by
  unfold floored
  split
  · exact le_rfl
  · next hnan =>
    split
    · exact le_rfl
    · next hge =>
      split
      · exact fInt_le_maxFinite h
      · next hinf =>
        rw [Bool.not_eq_true] at hnan hinf
        have hfinite := isFinite_of_not_isNaN_of_not_isInf hnan hinf
        rwa [fLt_iff hfinite h, not_lt] at hge

theorem spectrumValue_of_isZero {acc : List F} (h : ∀ x ∈ acc, isZero x = true) (n : Nat) (floor : F) (k : Nat) :
    spectrumValue n acc floor k = floor :=
  if_pos (List.all_eq_true.2 h)

theorem spectrumValue_of_nonFinite {acc : List F} (h : ¬∀ x ∈ acc, isFinite x = true) (n : Nat) (floor : F) (k : Nat) :
    spectrumValue n acc floor k = floor := by
  rw [← List.all_eq_true] at h
  rw [spectrumValue, if_neg h, ite_self]

theorem fInt_le_spectrumValue {floor : F} (h : isFinite floor = true) (n : Nat) (acc : List F) (k : Nat) :
    fInt floor ≤ fInt (spectrumValue n acc floor k) := by
  unfold spectrumValue
  split
  · exact le_rfl
  · split
    · exact fInt_le_floored h _
    · exact le_rfl

theorem fInt_le_of_mem_spectrum {floor : F} (h : isFinite floor = true) {n nb : Nat} {acc : List F} {d : F}
    (hd : d ∈ spectrum n nb acc floor) : fInt floor ≤ fInt d := by
  obtain ⟨k, -, rfl⟩ := List.mem_map.1 hd
  exact fInt_le_spectrumValue h n acc k

theorem spectrum_eq_replicate {n : Nat} {acc : List F} {floor : F} (h : ∀ k, spectrumValue n acc floor k = floor) (nb : Nat) :
    spectrum n nb acc floor = List.replicate nb floor := by
  refine List.eq_replicate_iff.2 ⟨spectrum_length n nb acc floor, fun d hd => ?_⟩
  obtain ⟨k, -, rfl⟩ := List.mem_map.1 hd
  exact h k

/-- Settles O49, value by value. -/
theorem spectrumProperties : Obligations.SpectrumProperties := by
  intro g acc floor hfloor
  refine ⟨spectrum_length _ _ _ _, fun d hd => ⟨isFinite_of_mem_spectrum hfloor hd, fInt_le_of_mem_spectrum hfloor hd⟩,
    fun hsilent => ?_, fun ⟨x, hx, hclass⟩ => ?_⟩
  · exact spectrum_eq_replicate (spectrumValue_of_isZero (fun x hx => isZero_of_eq_zero (hsilent x hx)) _ _) _
  · have hnonFinite : ¬∀ x ∈ acc, isFinite x = true := fun hall =>
      Bool.eq_false_iff.1 (isFinite_eq_false_of_isNaN_or_isInf hclass) (hall x hx)
    exact spectrum_eq_replicate (spectrumValue_of_nonFinite hnonFinite _ _) _

/-! ### `GENP` (R222) -/

theorem headerOf_genp : headerOf .genp = 0x23000000#32 := by
  simp only [headerOf, opOf]
  decide

/-- The test of `GENP` by exact values (R223). -/
theorem pathConfigured_iff {s : State} (h : ViewOk s.view) :
    pathConfigured s = true ↔ RateValid s.fs ∧ fInt s.view.dbmin < fInt s.view.dbmax := by
  obtain ⟨-, -, -, -, hdbmin, hdbmax, -⟩ := h
  rw [pathConfigured, Bool.and_eq_true, validRate_iff, fLt_iff hdbmin hdbmax]

theorem exec_genp_of_idle {s : State} (h : s.laen = false ∨ s.mq = []) :
    exec .genp s = .next (answered .pr 0x00010000#32 [0x00000000#32] s) := by
  have hidle : ¬(s.laen && !s.mq.isEmpty) = true := by
    rcases h with hlaen | hmq
    · simp [hlaen]
    · simp [hmq]
  exact if_neg hidle

/-- With a path to make, `GENP` turns on its test. -/
theorem exec_genp_of_queued {s : State} (hlaen : s.laen = true) (hmq : s.mq ≠ []) :
    exec .genp s =
      if pathConfigured s then
        .next (answered .pr 0x00010000#32 [wordOfNat s.mq.length] { s with latest := latestPath s, mq := [], havepath := true })
      else .next (refusedWith .pr 2 0x1#32 0x23000000#32 s) := by
  have hqueued : (s.laen && !s.mq.isEmpty) = true := by simp [hlaen, hmq]
  simp only [exec, execGenp, if_pos hqueued, respond_ok_one, refuse_invalidConfiguration, headerOf_genp]

/-- Settles O51: the test is made only where there is a path to make. -/
theorem genpIdleOrRefused : Obligations.GenpIdleOrRefused := by
  refine ⟨fun l => decodeOfEncode l .genp rfl, fun _ => exec_genp_of_idle, fun s hview hlaen hmq hbad => ?_⟩
  have hrefused : ¬pathConfigured s = true := by rwa [pathConfigured_iff hview, not_and_or]
  rw [exec_genp_of_queued hlaen hmq, if_neg hrefused]

/-- Of the paths made in turn the last one is left (R222). -/
theorem latestPath_of_append {s : State} {older : List (List F)} {newest : List F} (h : s.mq = older ++ [newest]) :
    latestPath s = pathOf s.cfg.n s.fs s.view newest := by
  rw [latestPath, h, List.foldl_concat]

theorem binFrequency_eq (n : Nat) (fs : F) (k : Nat) :
    binFrequency n fs k = (k : ℚ) * ((fInt fs : ℚ) / 2 ^ 149) / (n : ℚ) := by
  rw [binFrequency, fRat, Rat.mkRat_eq_div, Nat.cast_pow, Nat.cast_ofNat]

/-- Settles O50: the two coordinate functions are the open ones made finite. -/
theorem genpKeepsTheNewestPath : Obligations.GenpKeepsTheNewestPath := by
  refine ⟨fun f vx0 vw => finitize (Config.mapX f vx0 vw),
    fun d vyb vyt dbmin dbmax => finitize (Config.mapY d vyb vyt dbmin dbmax),
    fun _ _ _ => finitize_isFinite _, fun _ _ _ _ _ => finitize_isFinite _, ?_⟩
  intro s older newest hview hlaen hmq hrate hrange
  have hne : s.mq ≠ [] := by simp [hmq]
  have hlength : s.mq.length = older.length + 1 := by simp [hmq]
  rw [exec_genp_of_queued hlaen hne, if_pos ((pathConfigured_iff hview).2 ⟨hrate, hrange⟩), latestPath_of_append hmq, hlength]
  simp only [← binFrequency_eq]
  rfl

/-! ### `RDPATH` (R229) -/

/-- The two words of point `k` stand at `2*k` (R88). -/
theorem pathWords_getElem? {ps : List Point} {k : Nat} {q : Point} (h : ps[k]? = some q) :
    (pathWords ps)[2 * k]? = some q.x ∧ (pathWords ps)[2 * k + 1]? = some q.y := by
  induction ps generalizing k with
  | nil => cases h
  | cons p ps ih =>
    cases k with
    | zero =>
      cases h
      exact ⟨rfl, rfl⟩
    | succ k => exact ih h

theorem exec_rdpath_of_none {s : State} (h : s.havepath = false) :
    exec .rdpath s = .next (answered .pr 0x00000001#32 [] s) :=
  if_neg (Bool.eq_false_iff.1 h)

theorem exec_rdpath_of_some {s : State} (h : s.havepath = true) :
    exec .rdpath s = .next (answered .pr (okHeader (2 * s.latest.length)) (pathWords s.latest) s) := by
  rw [← pathWords_length, ← respond_ok]
  exact if_pos h

/-- The retained path is the same in both. -/
def PathKept (s t : State) : Prop := t.latest = s.latest ∧ t.havepath = s.havepath

theorem publish_pathKept (sets : PerStage StageSet) (s : State) : PathKept s (publish sets s) := by
  unfold publish
  simp only
  split <;> exact ⟨rfl, rfl⟩

theorem analyze_pathKept (blk : List F) (s : State) : PathKept s (analyze blk s) := by
  unfold analyze
  simp only
  split <;> exact ⟨rfl, rfl⟩

/-- Only `GENP` writes the path. -/
theorem exec_pathKept {i : Instr} {s t : State} (hi : i ≠ .genp) (h : exec i s = .next t) : PathKept s t := by
  cases i with
  | genp => exact absurd rfl hi
  | upds | magr | wview | rdpath =>
    simp only [exec, execUpds, execMagr, execWview, execRdpath] at h
    split at h <;> cases h <;> exact ⟨rfl, rfl⟩
  | rfsh =>
    simp only [exec, execRfsh] at h
    split_ifs at h <;> cases h
    · exact publish_pathKept (factorySets s.param s.fs) { s with chg := false }
    · exact ⟨rfl, rfl⟩
    · exact ⟨rfl, rfl⟩
  | pop =>
    by_cases hempty : s.w = s.r
    · cases (exec_pop_of_empty hempty).symm.trans h
      exact ⟨rfl, rfl⟩
    · cases (exec_pop_of_nonempty hempty).symm.trans h
      exact ⟨rfl, rfl⟩
  | anlz =>
    cases hlaen : s.laen with
    | false =>
      cases (exec_anlz_of_disabled hlaen).symm.trans h
      exact ⟨rfl, rfl⟩
    | true =>
      by_cases hempty : s.w = s.r
      · cases (exec_anlz_of_empty hlaen hempty).symm.trans h
        exact ⟨rfl, rfl⟩
      · cases (exec_anlz_of_nonempty hlaen hempty).symm.trans h
        exact analyze_pathKept _ { s with r := takeIndex s + 1 }
  | nop | sync | proc | push | sbyp | wpar | srate | ntfy | avail | rstat | clrst =>
    cases h
    exact ⟨rfl, rfl⟩

/-- Settles O52: the words by the points, and the frame of every other command. -/
theorem rdpathReturnsThePath : Obligations.RdpathReturnsThePath := by
  refine ⟨fun l => decodeOfEncode l .rdpath rfl, fun _ => exec_rdpath_of_none, fun s hpath hlatest _ => ?_,
    fun _ _ _ => exec_pathKept⟩
  refine ⟨pathWords s.latest, ?_, ?_, fun _ _ => pathWords_getElem?⟩
  · rw [exec_rdpath_of_some hpath, hlatest]
  · rw [pathWords_length, hlatest]

end Sys2Proof.Machine
end

section
/-!
SUPPORT. The system commands: the packets of `NOP`, `RSTAT` and `CLRST`, the packets refused beside them, and what `RSTAT` answers
after a reset and after a refused `UPDS`: O16.
-/

namespace Sys2Proof.Machine

/-! ### `NOP` (R240) -/

theorem headerOf_nop (p : Port) : headerOf (.nop p) = 0x00000000#32 := by
  simp only [headerOf, opOf]
  rfl

theorem exec_nop (p : Port) (s : State) : exec (.nop p) s = .next (answered p 0x00000000#32 [] s) := rfl

/-- With opcode 0, a header that is not all zero sets a field that the format of `NOP` does not use (R91). -/
theorem unusedFieldSet_of_nop {h : Word} (hop : opcode h = 0x00) (hne : h ≠ 0x00000000#32) : UnusedFieldSet h := by
  have hlow : h.toNat % 2 ^ 24 ≠ 0 := by
    have htop : h.toNat / 2 ^ 24 = 0 := hop
    bv_omega
  have hformat : opcode h ∈ [0x00, 0x01, 0x02, 0x03, 0x13, 0x14, 0x15, 0x20, 0x21, 0x22, 0x23, 0x24, 0x30, 0x31] := by
    rw [hop]
    decide
  exact .inr (.inr (.inr ⟨hformat, hlow⟩))

theorem step_illegal_nop {s : State} {p : Port} {pk : Packet} (h : nextEvent s = .command p pk)
    (hop : opcode pk.header = 0x00) (hbad : pk.header ≠ 0x00000000#32 ∨ pk.payload ≠ []) :
    step s = .next (refusedWith p 4 0x4#32 pk.header (accept p s)) := by
  have hport : Issuable (opcode pk.header) p := by
    rw [hop]
    exact .inl (by decide)
  rcases hbad with hheader | hpayload
  · exact unusedFieldsMustBeZero s p pk h hport (unusedFieldSet_of_nop hop hheader)
  · have himplied : impliedLength s.cfg.l pk.header = 0 := by simp [impliedLength, hop]
    obtain ⟨hrefused, -⟩ := wrongPayloadLengthIsIllegal
    refine hrefused s p pk h hport ?_
    rwa [himplied, ne_eq, List.length_eq_zero_iff]

/-! ### `RSTAT` (R241) -/

theorem headerOf_rstat (p : Port) : headerOf (.rstat p) = 0x30000000#32 := by
  simp only [headerOf, opOf]
  rfl

theorem exec_rstat (p : Port) (s : State) :
    exec (.rstat p) s = .next (answered p 0x00030000#32 [s.status, s.lastcode.setWidth 32, s.lasterr] s) :=
  congrArg _ (respond_ok p _ s)

theorem exec_rstat_reset :
    exec (.rstat .pr) State.reset = .next (answered .pr 0x00030000#32 [0x0#32, 0x0#32, 0x0#32] State.reset) :=
  exec_rstat .pr State.reset

theorem not_coefsFinite_of_isNaN {c : Coefs}
    (h : isNaN c.b0 = true ∨ isNaN c.b1 = true ∨ isNaN c.b2 = true ∨ isNaN c.a1 = true ∨ isNaN c.a2 = true) :
    ¬coefsFinite c = true := by
  rw [coefsFinite_iff]
  rintro ⟨hb0, hb1, hb2, ha1, ha2⟩
  simp [isNaN_of_isFinite hb0, isNaN_of_isFinite hb1, isNaN_of_isFinite hb2, isNaN_of_isFinite ha1,
    isNaN_of_isFinite ha2] at h

theorem headerOf_upds_pk (c : Coefs) : headerOf (.upds .pk [c]) = 0x10400000#32 := by
  simp [headerOf_upds .pk (secs := [c]) le_rfl, stageNumber]

/-- The record of a refusal as `RSTAT` reads it: its flag among the earlier ones, its code and its header (R254). -/
theorem exec_rstat_refusedWith (p q : Port) (code : Nat) (flag hdr : Word) (s : State) :
    exec (.rstat p) (refusedWith q code flag hdr s) =
      .next (answered p 0x00030000#32 [s.status ||| flag, (BitVec.ofNat 8 code).setWidth 32, hdr]
        (refusedWith q code flag hdr s)) :=
  exec_rstat p (refusedWith q code flag hdr s)

/-- The second example of R241, from any state. -/
theorem rstat_after_refused_upds {c : Coefs} (h : ¬coefsFinite c = true) (s : State) :
    ∃ t, execAll [.upds .pk [c], .rstat .pr] s = .next t ∧
      lastResponse .pr t = some ⟨0x00030000#32, [s.status ||| 0x2#32, 0x3#32, 0x10400000#32]⟩ := by
  have hupds : exec (.upds .pk [c]) s = .next (refusedWith .pr 3 0x2#32 0x10400000#32 s) := by
    rw [exec_upds_of_nonFinite (by simpa using h), headerOf_upds_pk]
  have hrstat := exec_rstat_refusedWith .pr .pr 3 0x2#32 0x10400000#32 s
  exact ⟨_, (execAll_cons_of_exec hupds _).trans (execAll_cons_of_exec hrstat []), lastResponse_answered_same .pr _ _ _⟩

/-! ### `CLRST` (R242) -/

theorem exec_clrst (s : State) :
    exec .clrst s =
      .next (answered .pr 0x00000000#32 [] { s with status := 0x0#32, lastcode := 0x0#8, lasterr := 0x0#32 }) := rfl

theorem step_clrst_on_rt {s : State} {pl : List Word} (h : nextEvent s = .command .rt ⟨0x31000000#32, pl⟩) :
    step s = .next (refusedWith .rt 5 0x8#32 0x31000000#32 (accept .rt s)) := by
  obtain ⟨hrefused, -⟩ := wrongPortIsRefused
  have hop : opcode 0x31000000#32 ∈ prOnlyOpcodes := by decide
  exact hrefused s .rt _ h (.inr ⟨rfl, hop⟩)

/-- Settles O16: the packets are those of the commands, each command has one outcome in every state, and the refused packets are
those of the general statements on unused fields, lengths and ports. -/
theorem systemCommands : Obligations.SystemCommands :=
  ⟨fun l p => ⟨headerOf_nop p ▸ decodeOfEncode l (.nop p) rfl, headerOf_rstat p ▸ decodeOfEncode l (.rstat p) rfl,
      decodeOfEncode l .clrst rfl⟩,
    exec_nop, fun _ _ _ => step_illegal_nop, exec_rstat, exec_rstat_reset,
    fun _ hnan => rstat_after_refused_upds (not_coefsFinite_of_isNaN hnan) State.reset, exec_clrst,
    fun _ _ => step_clrst_on_rt⟩

end Sys2Proof.Machine
end

section
/-!
SUPPORT. The refusal-free real-time port is inductive (O56): no step changes the parameters of R8, a command of R258 on the RT port
answers `OK` in every state, and a command on the PR port leaves the RT port's packets and responses as they are.
-/

namespace Sys2Proof.Machine

/-! ### The parameters of R8 (log entry 1) -/

theorem publish_cfg (sets : PerStage StageSet) (s : State) : (publish sets s).cfg = s.cfg := by
  unfold publish
  simp only
  split <;> rfl

theorem analyze_cfg (blk : List F) (s : State) : (analyze blk s).cfg = s.cfg := by
  unfold analyze
  simp only
  split <;> rfl

theorem exec_cfg {i : Instr} {s t : State} (h : exec i s = .next t) : t.cfg = s.cfg := by
  cases i with
  | upds | magr | wview | genp | rdpath =>
    simp only [exec, execUpds, execMagr, execWview, execGenp, execRdpath] at h
    split_ifs at h <;> cases h <;> rfl
  | rfsh =>
    simp only [exec, execRfsh] at h
    split_ifs at h <;> cases h
    · exact publish_cfg _ _
    · rfl
    · rfl
  | pop =>
    by_cases hempty : s.w = s.r
    · cases (exec_pop_of_empty hempty).symm.trans h
      rfl
    · cases (exec_pop_of_nonempty hempty).symm.trans h
      rfl
  | anlz =>
    cases hlaen : s.laen with
    | false =>
      cases (exec_anlz_of_disabled hlaen).symm.trans h
      rfl
    | true =>
      by_cases hempty : s.w = s.r
      · cases (exec_anlz_of_empty hlaen hempty).symm.trans h
        rfl
      · cases (exec_anlz_of_nonempty hlaen hempty).symm.trans h
        exact analyze_cfg _ _
  | nop | sync | proc | push | sbyp | wpar | srate | ntfy | avail | rstat | clrst =>
    cases h
    rfl

/-- No step changes the parameters, so what is well formed stays so. -/
theorem step_cfg {s t : State} (h : step s = .next t) : t.cfg = s.cfg := by
  rcases step_cases h with ⟨-, rfl⟩ | ⟨-, rfl⟩ | ⟨p, pk, i, -, -, hexec⟩ | ⟨p, pk, e, -, -, rfl⟩
  · rfl
  · rfl
  · exact (exec_cfg hexec).trans (accept_cfg p s)
  · rfl

/-! ### The commands of R258 -/

theorem port_of_rtOkCommand {i : Instr} (h : rtOkCommand i = true) : i.port = .rt := by
  cases i with
  | sync | proc | push => rfl
  | nop p | wpar p | srate p | ntfy p | rstat p =>
    cases p with
    | rt => rfl
    | pr => cases h
  | upds | sbyp | rfsh | magr | wview | pop | avail | anlz | genp | rdpath | clrst => cases h

/-- Such a command tests nothing: in every state it answers `OK`. -/
theorem exec_rtOkCommand {i : Instr} (h : rtOkCommand i = true) (s : State) :
    ∃ ws u, exec i s = .next (respond .rt .ok ws u) ∧ StreamsKept s u := by
  cases i with
  | sync | proc | push => exact ⟨_, _, rfl, rfl, rfl⟩
  | nop p | wpar p | srate p | ntfy p | rstat p =>
    cases p with
    | rt => exact ⟨_, _, rfl, rfl, rfl⟩
    | pr => cases h
  | upds | sbyp | rfsh | magr | wview | pop | avail | anlz | genp | rdpath | clrst => cases h

/-! ### What a step leaves on the RT port -/

/-- The RT port stays clean while its packets are among those that waited and its new responses are `OK`. -/
theorem RtClean.mono {s t : State} (h : RtClean s) (hcfg : t.cfg = s.cfg) (hinq : t.inq.rt ⊆ s.inq.rt)
    (hout : ∀ r ∈ t.out.rt, r ∈ s.out.rt ∨ responseCode r = codeByte .ok) : RtClean t := by
  obtain ⟨hpackets, hresponses⟩ := h
  exact ⟨fun pk hpk => hcfg ▸ hpackets pk (hinq hpk), fun r hr => (hout r hr).elim (hresponses r) id⟩

/-- Nothing taken from the RT port and nothing answered there leaves it clean. -/
theorem RtClean.of_rt_kept {s t : State} (h : RtClean s) (hcfg : t.cfg = s.cfg) (hinq : t.inq.rt = s.inq.rt)
    (hout : t.out.rt = s.out.rt) : RtClean t :=
  h.mono hcfg (hinq ▸ List.Subset.refl _) fun _ hr => .inl (hout ▸ hr)

/-- The next packet of a clean RT port is a command of R258, so the step answers it with `OK`. -/
theorem RtClean.step_rt {s : State} (h : RtClean s) {pk : Packet} (he : nextEvent s = .command .rt pk) :
    ∃ ws u, step s = .next (respond .rt .ok ws u) ∧ StreamsKept (accept .rt s) u := by
  obtain ⟨hpackets, -⟩ := h
  obtain ⟨rest, hrest⟩ := nextEvent_command he
  have hmem : pk ∈ s.inq.get .rt := hrest ▸ List.mem_cons_self
  obtain ⟨i, hi, hwf, rfl⟩ := hpackets pk hmem
  have hdecode : decode s.cfg.l .rt (encode i) = .ok i := port_of_rtOkCommand hi ▸ decodeOfEncode s.cfg.l i hwf
  rw [step_of_decode_ok he hdecode]
  exact exec_rtOkCommand hi (accept .rt s)

/-- Settles O56, by what the event of a turn can be. -/
theorem stepKeepsRtClean : Obligations.StepKeepsRtClean := by
  intro s t h hstep
  have hcfg := step_cfg hstep
  cases he : nextEvent s with
  | idle =>
    cases (step_of_idle he).symm.trans hstep
    exact h.of_rt_kept hcfg rfl rfl
  | reset =>
    cases (step_of_reset he).symm.trans hstep
    exact h.of_rt_kept hcfg rfl rfl
  | command p pk =>
    cases p with
    | pr =>
      obtain ⟨i, c, ws, u, -, -, ⟨⟨hinq, hout⟩, -⟩, hr⟩ := step_command he
      cases hr.symm.trans hstep
      refine h.of_rt_kept hcfg ?_ ?_
      · rw [respond_inq, hinq]
        rfl
      · rw [respond_out, hout]
        rfl
    | rt =>
      obtain ⟨ws, u, hr, hinq, hout⟩ := h.step_rt he
      cases hr.symm.trans hstep
      have htaken : (respond .rt .ok ws u).inq.rt = s.inq.rt.tail := by
        rw [respond_inq, hinq]
        rfl
      have hanswered : (respond .rt .ok ws u).out.rt = s.out.rt ++ [mkResponse .ok ws] := by
        rw [respond_out, hout]
        rfl
      refine h.mono hcfg (htaken ▸ List.tail_subset _) fun r hr => ?_
      rw [hanswered, List.mem_append, List.mem_singleton] at hr
      refine hr.imp_right ?_
      rintro rfl
      exact responseCode_mkResponse .ok ws

end Sys2Proof.Machine
end
